-- ==== Sys2Proof/Word.lean ====
section
/-! DEFINITION. The word types of the block: bytes of BUF, MSG and the device, 16-bit results, CRC
values and device addresses, and the 32-bit words of the host bus (10_state.md R23 to R29). -/

namespace Sys2Proof

/-- A byte of BUF, MSG, SCR or the storage device. -/
abbrev Byte := BitVec 8

/-- A 16-bit value: RES0, the CRC accumulator, a device address, the log pointer. -/
abbrev Half := BitVec 16

/-- A 32-bit value of the host bus; a command word (30_encoding.md R100). -/
abbrev Word := BitVec 32

end Sys2Proof
end

