-- ==== Sys2Proof/Syntax.lean ====
section
/-! DEFINITION. The 19 commands of the block, one constructor per row of spec/opcode_table.json
(30_encoding.md R108). Counts and indexes are natural numbers, bounded by `Instr.wellFormed`; what the
block treats as bits (the CRC byte, the device address, the flag mask) is a bit vector. -/

namespace Sys2Proof

/-- A decoded command with its operands (30_encoding.md R101 to R108). -/
inductive Instr where
  /-- CRC_INIT (40_crc.md R126). -/
  | crcInit
  /-- CRC_BYTE imm8 (R127). -/
  | crcByte (imm8 : Byte)
  /-- CRC_BUF len (R128). -/
  | crcBuf (len : Nat)
  /-- CRC_SEAL len (R129); len is the record length maxLen. -/
  | crcSeal (len : Nat)
  /-- CRC_CHECK len (R130); len is the record length maxLen. -/
  | crcCheck (len : Nat)
  /-- ST_WRITE_STATUS addr, len (41_store.md R141). -/
  | stWriteStatus (addr : Half) (len : Nat)
  /-- ST_READ_STATUS addr, len (R142). -/
  | stReadStatus (addr : Half) (len : Nat)
  /-- ST_RAW_READ addr, len (R143). -/
  | stRawRead (addr : Half) (len : Nat)
  /-- ST_RAW_WRITE addr, len (R144). -/
  | stRawWrite (addr : Half) (len : Nat)
  /-- LOG_WRITE (42_log.md R164). -/
  | logWrite
  /-- LOG_READ slot (R165). -/
  | logRead (slot : Nat)
  /-- LOG_DELETE (R166). -/
  | logDelete
  /-- Q_SEND q (43_dispatch.md R183). -/
  | qSend (q : Nat)
  /-- Q_SENDC q (R185). -/
  | qSendc (q : Nat)
  /-- Q_TRYRECV q (R186). -/
  | qTryrecv (q : Nat)
  /-- Q_RECV q (R187). -/
  | qRecv (q : Nat)
  /-- FLAG_SET mask (R189). -/
  | flagSet (mask : BitVec 2)
  /-- FLAG_CLEAR mask (R190). -/
  | flagClear (mask : BitVec 2)
  /-- FLAG_GET (R192). -/
  | flagGet
deriving DecidableEq, Repr

end Sys2Proof
end

