-- ==== Sys2Proof/WellFormed.lean ====
section
/-! DEFINITION. Which commands a 32-bit word can hold: each numeric operand within its field
(30_encoding.md R103, R104, R106). Values that fit the field but that a command refuses (a record
length below 3, a slot past the ring, queue 3) are well formed: the command answers them ERR_ARG. -/

namespace Sys2Proof

/-- `len` fits its 8-bit field (R103). -/
def lenFits (len : Nat) : Bool := decide (len < 256)

/-- `slot` fits its 8-bit field (R104). -/
def slotFits (slot : Nat) : Bool := decide (slot < 256)

/-- `q` fits its 2-bit field (R106). -/
def queueFits (q : Nat) : Bool := decide (q < 4)

/-- Every operand fits the field its format gives it (R101 to R107). -/
def Instr.wellFormed : Instr → Bool
  | .crcInit => true
  | .crcByte _ => true
  | .crcBuf len => lenFits len
  | .crcSeal len => lenFits len
  | .crcCheck len => lenFits len
  | .stWriteStatus _ len => lenFits len
  | .stReadStatus _ len => lenFits len
  | .stRawRead _ len => lenFits len
  | .stRawWrite _ len => lenFits len
  | .logWrite => true
  | .logRead slot => slotFits slot
  | .logDelete => true
  | .qSend q => queueFits q
  | .qSendc q => queueFits q
  | .qTryrecv q => queueFits q
  | .qRecv q => queueFits q
  | .flagSet _ => true
  | .flagClear _ => true
  | .flagGet => true

end Sys2Proof
end

