-- ==== Sys2Proof/Decode.lean ====
section
/-! DEFINITION. The decoder of 30_encoding.md R100 to R112, total on every 32-bit word and on every
byte list, and the encoder written from the same format table (R101, R108). -/

namespace Sys2Proof

/-- Why a word is no command; step turns the first two into ERR_OPC (R109, R110). -/
inductive Illegal where
  /-- The opc field is not assigned (R110). -/
  | unassignedOpc
  /-- A must-be-zero bit of the command's format is 1 (R109). -/
  | mustBeZeroBitSet
  /-- The bytes are not exactly the four of one command word (R100, R112). -/
  | notOneWord
deriving DecidableEq, Repr

/-- What the decoder answers. -/
inductive Decoded where
  | instr (i : Instr)
  | illegal (why : Illegal)
deriving DecidableEq, Repr

/-- The decoded command, if there is one. -/
def Decoded.instr? : Decoded → Option Instr
  | .instr i => some i
  | .illegal _ => none

/-! ### Fields (R100 to R107) -/

/-- opc = cmd[31:24]. -/
def opcOf (w : Word) : Nat := (w.extractLsb' 24 8).toNat

/-- len = cmd[23:16] (R103). -/
def lenOf (w : Word) : Nat := (w.extractLsb' 16 8).toNat

/-- addr = cmd[15:0] (R105). -/
def addrOf (w : Word) : Half := w.extractLsb' 0 16

/-- imm8 = cmd[7:0] (R102). -/
def immOf (w : Word) : Byte := w.extractLsb' 0 8

/-- slot = cmd[7:0] (R104). -/
def slotOf (w : Word) : Nat := (w.extractLsb' 0 8).toNat

/-- q = cmd[1:0] (R106). -/
def queueFieldOf (w : Word) : Nat := (w.extractLsb' 0 2).toNat

/-- mask = cmd[1:0] (R107). -/
def maskOf (w : Word) : BitVec 2 := w.extractLsb' 0 2

/-! ### Formats: the must-be-zero fields (R101, R109, R111) -/

def decodeN (w : Word) (i : Instr) : Decoded :=
  if w.extractLsb' 0 24 = 0 then .instr i else .illegal .mustBeZeroBitSet

def decodeB (w : Word) (f : Byte → Instr) : Decoded :=
  if w.extractLsb' 8 16 = 0 then .instr (f (immOf w)) else .illegal .mustBeZeroBitSet

def decodeL (w : Word) (f : Nat → Instr) : Decoded :=
  if w.extractLsb' 0 16 = 0 then .instr (f (lenOf w)) else .illegal .mustBeZeroBitSet

def decodeAL (w : Word) (f : Half → Nat → Instr) : Decoded :=
  .instr (f (addrOf w) (lenOf w))

def decodeS (w : Word) (f : Nat → Instr) : Decoded :=
  if w.extractLsb' 8 16 = 0 then .instr (f (slotOf w)) else .illegal .mustBeZeroBitSet

def decodeQ (w : Word) (f : Nat → Instr) : Decoded :=
  if w.extractLsb' 2 22 = 0 then .instr (f (queueFieldOf w)) else .illegal .mustBeZeroBitSet

def decodeF (w : Word) (f : BitVec 2 → Instr) : Decoded :=
  if w.extractLsb' 2 22 = 0 then .instr (f (maskOf w)) else .illegal .mustBeZeroBitSet

/-- The decoding algorithm of R111, over the opcode map of R108. -/
def decode (w : Word) : Decoded :=
  match opcOf w with
  | 0x01 => decodeN w .crcInit
  | 0x02 => decodeB w .crcByte
  | 0x03 => decodeL w .crcBuf
  | 0x04 => decodeL w .crcSeal
  | 0x05 => decodeL w .crcCheck
  | 0x10 => decodeAL w .stWriteStatus
  | 0x11 => decodeAL w .stReadStatus
  | 0x12 => decodeAL w .stRawRead
  | 0x13 => decodeAL w .stRawWrite
  | 0x20 => decodeN w .logWrite
  | 0x21 => decodeS w .logRead
  | 0x22 => decodeN w .logDelete
  | 0x30 => decodeQ w .qSend
  | 0x31 => decodeQ w .qSendc
  | 0x32 => decodeQ w .qTryrecv
  | 0x33 => decodeQ w .qRecv
  | 0x38 => decodeF w .flagSet
  | 0x39 => decodeF w .flagClear
  | 0x3A => decodeN w .flagGet
  | _ => .illegal .unassignedOpc

/-- The decoder over bytes as they stand in a bank from offset 0x000: the host bus is little-endian
(20_memory.md R71), so the byte at the lowest offset is cmd[7:0]. DEDUCED (assumption 27). -/
def decodeBytes : List Byte → Decoded
  | [b0, b1, b2, b3] => decode (b3 ++ b2 ++ b1 ++ b0)
  | _ => .illegal .notOneWord

/-- The four bytes of a word, lowest bank offset first (20_memory.md R71). -/
def wordBytes (w : Word) : List Byte :=
  [w.extractLsb' 0 8, w.extractLsb' 8 8, w.extractLsb' 16 8, w.extractLsb' 24 8]

/-- What the decoder reads from a command of `nbits` bits `w`, numbered as spec/opcode_table.json
numbers them; every bit above `nbits` is 0. -/
def decodeTableWord (nbits w : Nat) : Option Instr :=
  (decodeBytes (wordBytes (BitVec.ofNat 32 (w % 2 ^ nbits)))).instr?

/-! ### The encoder (R101, R108) -/

def wordN (opc : Byte) : Word := opc ++ 0#24

def wordB (opc : Byte) (imm8 : Byte) : Word := opc ++ 0#16 ++ imm8

def wordL (opc : Byte) (len : Nat) : Word := opc ++ BitVec.ofNat 8 len ++ 0#16

def wordAL (opc : Byte) (addr : Half) (len : Nat) : Word := opc ++ BitVec.ofNat 8 len ++ addr

def wordS (opc : Byte) (slot : Nat) : Word := opc ++ 0#16 ++ BitVec.ofNat 8 slot

def wordQ (opc : Byte) (q : Nat) : Word := opc ++ 0#22 ++ BitVec.ofNat 2 q

def wordF (opc : Byte) (mask : BitVec 2) : Word := opc ++ 0#22 ++ mask

/-- The word of a well-formed command; an operand that does not fit its field is cut. DESIGN CHOICE
(assumption 32). -/
def encode : Instr → Word
  | .crcInit => wordN 0x01
  | .crcByte imm8 => wordB 0x02 imm8
  | .crcBuf len => wordL 0x03 len
  | .crcSeal len => wordL 0x04 len
  | .crcCheck len => wordL 0x05 len
  | .stWriteStatus addr len => wordAL 0x10 addr len
  | .stReadStatus addr len => wordAL 0x11 addr len
  | .stRawRead addr len => wordAL 0x12 addr len
  | .stRawWrite addr len => wordAL 0x13 addr len
  | .logWrite => wordN 0x20
  | .logRead slot => wordS 0x21 slot
  | .logDelete => wordN 0x22
  | .qSend q => wordQ 0x30 q
  | .qSendc q => wordQ 0x31 q
  | .qTryrecv q => wordQ 0x32 q
  | .qRecv q => wordQ 0x33 q
  | .flagSet mask => wordF 0x38 mask
  | .flagClear mask => wordF 0x39 mask
  | .flagGet => wordN 0x3A

/-! ### The rows of spec/opcode_table.json -/

/-- A row's mask and match: a word is the row's when `word &&& mask = pattern`. -/
structure Row where
  mask : Word
  pattern : Word
deriving DecidableEq, Repr

/-- The row of spec/opcode_table.json a command belongs to. -/
def Instr.row : Instr → Row
  | .crcInit => ⟨0xFFFFFFFF, 0x01000000⟩
  | .crcByte _ => ⟨0xFFFFFF00, 0x02000000⟩
  | .crcBuf _ => ⟨0xFF00FFFF, 0x03000000⟩
  | .crcSeal _ => ⟨0xFF00FFFF, 0x04000000⟩
  | .crcCheck _ => ⟨0xFF00FFFF, 0x05000000⟩
  | .stWriteStatus _ _ => ⟨0xFF000000, 0x10000000⟩
  | .stReadStatus _ _ => ⟨0xFF000000, 0x11000000⟩
  | .stRawRead _ _ => ⟨0xFF000000, 0x12000000⟩
  | .stRawWrite _ _ => ⟨0xFF000000, 0x13000000⟩
  | .logWrite => ⟨0xFFFFFFFF, 0x20000000⟩
  | .logRead _ => ⟨0xFFFFFF00, 0x21000000⟩
  | .logDelete => ⟨0xFFFFFFFF, 0x22000000⟩
  | .qSend _ => ⟨0xFFFFFFFC, 0x30000000⟩
  | .qSendc _ => ⟨0xFFFFFFFC, 0x31000000⟩
  | .qTryrecv _ => ⟨0xFFFFFFFC, 0x32000000⟩
  | .qRecv _ => ⟨0xFFFFFFFC, 0x33000000⟩
  | .flagSet _ => ⟨0xFFFFFFFC, 0x38000000⟩
  | .flagClear _ => ⟨0xFFFFFFFC, 0x39000000⟩
  | .flagGet => ⟨0xFFFFFFFF, 0x3A000000⟩

end Sys2Proof
end

