-- ==== Sys2Proof/Machine/Agents.lean ====
section
/-! DEFINITION. The agents of the block and what reaches it from outside: ports, queues, host
accesses, and the events of a schedule (00_scope.md R3; 60_exceptions.md R232). -/

namespace Sys2Proof.Machine

/-- The three host ports (00_scope.md R3): CTL, UI and NET, port numbers 0, 1 and 2. -/
inductive PortId where
  | ctl
  | ui
  | net
deriving DecidableEq, Repr, Inhabited

/-- One thing for each port. -/
structure PerPort (α : Type) where
  ctl : α
  ui : α
  net : α
deriving DecidableEq, Repr, Inhabited

def PerPort.get {α : Type} (t : PerPort α) : PortId → α
  | .ctl => t.ctl
  | .ui => t.ui
  | .net => t.net

def PerPort.set {α : Type} (t : PerPort α) (p : PortId) (x : α) : PerPort α :=
  match p with
  | .ctl => { t with ctl := x }
  | .ui => { t with ui := x }
  | .net => { t with net := x }

/-- The three queues (10_state.md R31): Q_UI, Q_NET and Q_CTL, queue numbers 0, 1 and 2. -/
inductive QueueId where
  | ui
  | net
  | ctl
deriving DecidableEq, Repr, Inhabited

/-- One thing for each queue. -/
structure PerQueue (α : Type) where
  ui : α
  net : α
  ctl : α
deriving DecidableEq, Repr, Inhabited

def PerQueue.get {α : Type} (t : PerQueue α) : QueueId → α
  | .ui => t.ui
  | .net => t.net
  | .ctl => t.ctl

def PerQueue.set {α : Type} (t : PerQueue α) (q : QueueId) (x : α) : PerQueue α :=
  match q with
  | .ui => { t with ui := x }
  | .net => { t with net := x }
  | .ctl => { t with ctl := x }

/-- The resources a posted mutation can be for (10_state.md R32). -/
inductive Resource where
  | queue (q : QueueId)
  | flags
deriving DecidableEq, Repr, Inhabited

/-- The widths of a host access (20_memory.md R67). -/
inductive Width where
  | w8
  | w16
  | w32
deriving DecidableEq, Repr, Inhabited

def Width.bytes : Width → Nat
  | .w8 => 1
  | .w16 => 2
  | .w32 => 4

/-- What a host access does; a write carries its value in the low bits. -/
inductive AccessOp where
  | read
  | write (v : Word)
deriving DecidableEq, Repr, Inhabited

/-- One host access: an address of the host bus, a width and an operation (20_memory.md R66, R67). -/
structure Access where
  addr : Nat
  width : Width
  op : AccessOp
deriving DecidableEq, Repr, Inhabited

/-- One step of one agent, with the draws the spec leaves to the outside. Which event comes next is
the schedule's choice (20_memory.md R78, R83; 60_exceptions.md R223, R232), and the draws come with it.
DESIGN CHOICE (assumption 7, assumption 9). -/
inductive Event where
  /-- The host of port p makes its next bank access (10_state.md R24). -/
  | host (p : PortId)
  /-- Port p tests the condition its current command holds on (00_scope.md R12). -/
  | port (p : PortId)
  /-- The store sequencer takes its next step (10_state.md R35). `ok`: the transaction transfers the
  requested count (20_memory.md R62). `took`: of a failed write, bit i says that byte i took its new
  value (R64). -/
  | sequencer (ok : Bool) (took : BitVec 256)
  /-- The lander takes the front entry of PEND[p][r] (43_dispatch.md R196). -/
  | land (p : PortId) (r : Resource)
  /-- Power is lost and comes back (70_reset_and_hazards.md R250, R252). `took`: bit i says that byte
  i of a torn write holds its new value. `boot`: the accesses the hosts make after the power-up. -/
  | powerLoss (took : BitVec 256) (boot : PerPort (List Access))
deriving DecidableEq, Repr, Inhabited

end Sys2Proof.Machine
end

