-- ==== Sys2Proof/Config.lean ====
section
/-! DEFINITION. The implementation parameters (00_scope.md R6, R7) and the free values: what the spec
leaves open and no proof may know. The parameters are a field of State, so a claim about every state
is a claim about every configuration; R8's legality test is `ConfigLegal` in Machine/Operands.lean. -/

namespace Sys2Proof

/-- The parameters of R7, and the bank base of each port (20_memory.md R66). -/
structure Config where
  /-- LOG_COUNT: number of log slots. -/
  logCount : Nat
  /-- MIN_LOG_ADDR: device address of slot 0. -/
  minLogAddr : Nat
  /-- LOG_ADDR_STORAGE: device address of the 2-byte log pointer. -/
  logAddrStorage : Nat
  /-- DEV_SIZE: number of bytes of the storage device. -/
  devSize : Nat
  /-- DEV_INIT: device contents at the first power-up, in the memory's canonical form. -/
  devInit : List Host.Cell
  /-- T_SETTLE in milliseconds; no step reads it (70_reset_and_hazards.md R262). -/
  tSettleMs : Nat
  /-- FLAG_PEND_DEPTH: depth of each port's pending flag-operation buffer. -/
  flagPendDepth : Nat
  /-- Host bus address of CTL's bank. -/
  ctlBase : Nat
  /-- Host bus address of UI's bank. -/
  uiBase : Nat
  /-- Host bus address of NET's bank. -/
  netBase : Nat
deriving DecidableEq, Repr

/-- The default column of R7, which the test vectors use and which is not normative; the bank bases
have no default in the spec. DESIGN CHOICE (assumption 1, assumption 2). -/
def Config.standard : Config where
  logCount := 4
  minLogAddr := 0x0100
  logAddrStorage := 0x0200
  devSize := 0x8000
  devInit := []
  tSettleMs := 5
  flagPendDepth := 4
  ctlBase := 0x000
  uiBase := 0x400
  netBase := 0x800

/-- The byte the block has no reason to know: contents of BUF, MSG and SCR after a power-up that
follows a power loss (10_state.md R28, R29, R36) and of SCR after a failed read (20_memory.md R65).
Free for every step number and index (assumption 5, assumption 6). -/
opaque Config.freeByte : Nat → Nat → Byte

/-- The event the environment picks when State's script names none: any agent, any draw
(60_exceptions.md R232). Free for every step number (assumption 7). -/
opaque Config.freeEvent : Nat → Machine.Event

end Sys2Proof
end

