-- ==== Sys2Proof/Machine/State.lean ====
section
/-! DEFINITION. The state of the block as plain data (10_state.md R20 to R40), the reasons a step can
stop, and the state after reset. Fields that are the model's own (the hosts' remaining accesses, the
schedule, the last bus answers) are marked so. -/

namespace Sys2Proof.Machine

/-- Device contents: address and byte pairs (10_state.md R38). -/
abbrev Memory := List Host.Cell

/-- The result codes STATUS.RC can hold (60_exceptions.md R220); the reserved codes are never
written, so they have no constructor. -/
inductive ResultCode where
  | ok
  | corrupt
  | bus
  | empty
  | dropped
  | errOpc
  | errArg
  | errPerm
deriving DecidableEq, Repr

/-- The two bits of FLAGS (10_state.md R30). -/
inductive FlagBit where
  | connected
  | reconnect
deriving DecidableEq, Repr

/-- A pending single-bit flag operation (10_state.md R32). -/
inductive FlagOp where
  | set (b : FlagBit)
  | clr (b : FlagBit)
deriving DecidableEq, Repr

/-- A Message image: 128 bytes, the tag first (10_state.md R29, 43_dispatch.md R180). -/
abbrev Image := List Byte

/-- What a current command that is held waits for (00_scope.md R12). -/
inductive Hold where
  /-- Q_SEND: until credit(q) ≥ 1 (43_dispatch.md R183). -/
  | credit (q : QueueId)
  /-- Q_SENDC: until the own flag operations have landed and the gate is closed or credit(q) ≥ 1 (R185). -/
  | gate (q : QueueId)
  /-- Q_RECV: until the queue holds a landed entry (R187). -/
  | entry (q : QueueId)
  /-- FLAG_SET and FLAG_CLEAR: until these operations fit the pending buffer (R188). -/
  | depth (ops : List FlagOp)
  /-- FLAG_GET: until the own flag operations have landed (R192). -/
  | ownFlags
deriving DecidableEq, Repr

/-- The current command of a port, with its hold condition when it is held (10_state.md R20). A store
or log command is current without a hold while the sequencer runs it. -/
structure Current where
  cmd : Instr
  hold : Option Hold
deriving DecidableEq, Repr

/-- The model's own: what the host bus last answered to a port's host (20_memory.md R67, R68).
DESIGN CHOICE (assumption 16). -/
inductive Reply where
  /-- Nothing yet. -/
  | idle
  /-- A write was taken (or ignored, as R66 and R69 say for some offsets). -/
  | written
  /-- A read answered this value, zero-extended to 32 bits. -/
  | data (v : Word)
  /-- The access was misaligned: a bus error, the block is unchanged (R68). -/
  | busError
  /-- The address is in no bank of this port: the port does not answer (R21). -/
  | noBank
deriving DecidableEq, Repr

/-- A port's bank and its current command (10_state.md R20, R23 to R29). STATUS.BUSY is
`current.isSome` (R25), so it is stored once. DEDUCED (assumption 17). -/
structure Bank where
  /-- STATUS.RC. -/
  rc : ResultCode
  /-- RES0[15:0]. -/
  res0 : Half
  /-- CRC[15:0]. -/
  crc : Half
  /-- BUF[0..255]. -/
  buf : List Byte
  /-- MSG[0..127]. -/
  msg : Image
  /-- The current command, if one is current. -/
  current : Option Current
  /-- The model's own: the accesses this port's host has still to make, in program order; the first
  stays first while it is held (R22, R24). -/
  host : List Access
  /-- The model's own: the last answer of the host bus. -/
  reply : Reply
deriving DecidableEq, Repr

/-- The pending buffers of one port (10_state.md R32), oldest entry first. -/
structure Pend where
  queues : PerQueue (List Image)
  flags : List FlagOp
deriving DecidableEq, Repr

/-- What the sequencer does with the bytes of a successful MemRead. -/
inductive AfterRead where
  /-- ST_READ_STATUS: validate the m bytes (41_store.md R142). -/
  | readStatus (m : Nat)
  /-- ST_RAW_READ: hand over the n bytes (R143). -/
  | rawRead (n : Nat)
  /-- LOG_WRITE: test the pointer (42_log.md R164). -/
  | logPointer
  /-- LOG_WRITE: test the first byte of slot i (R162). -/
  | logScan (i : Nat)
  /-- LOG_READ: test and validate the slot (R165). -/
  | logRead
deriving DecidableEq, Repr

/-- What the sequencer does once a MemWrite has succeeded and settled. -/
inductive AfterWrite where
  /-- Complete with OK and this RES0: ST_WRITE_STATUS, ST_RAW_WRITE and LOG_WRITE's pointer. -/
  | done (res0 : Half)
  /-- The wipe has done slot i; `resume` when LOG_WRITE goes on after it (42_log.md R163). -/
  | wipeSlot (i : Nat) (resume : Bool)
  /-- The wipe has done the pointer. -/
  | wipePointer (resume : Bool)
  /-- LOG_WRITE has written its record at address p (R164). -/
  | slotRecord (p : Nat) (scanned wiped : Bool)
deriving DecidableEq, Repr

/-- A MemWrite whose settle has not ended: what a power loss can still tear (70_reset_and_hazards.md
R252), and whether it succeeded. A failed write can be torn again. DEDUCED (assumption 18). -/
structure Outstanding where
  addr : Nat
  old : List Byte
  new : List Byte
  ok : Bool
deriving DecidableEq, Repr

/-- The sequencer's next step, with the local values the command needs (10_state.md R35, R37). -/
inductive SeqStep where
  | memRead (addr n : Nat) (k : AfterRead)
  | memWrite (addr : Nat) (data : List Byte) (k : AfterWrite)
  | settle (w : Outstanding) (k : AfterWrite)
deriving DecidableEq, Repr

/-- SEQ (10_state.md R35). -/
inductive Seq where
  | idle
  | active (cmd : Instr) (todo : SeqStep)
deriving DecidableEq, Repr

/-- The model's own: the last transaction on the device bus, with the bytes sent (20_memory.md R62).
DESIGN CHOICE (assumption 28). -/
inductive Transaction where
  /-- `sent`: the two address bytes and the data; `ok`: the count matched. -/
  | write (sent : List Byte) (ok : Bool)
  /-- `sent`: the two address bytes; `n`: the bytes asked for; `ok`: the count matched. -/
  | read (sent : List Byte) (n : Nat) (ok : Bool)
deriving DecidableEq, Repr

/-- The state of the block (10_state.md R20), the storage device it drives (R38), and what stands in
for the outside. -/
structure State where
  /-- The parameters (00_scope.md R7); no step changes them. -/
  cfg : Config
  /-- The port banks (R20). -/
  ports : PerPort Bank
  /-- FLAGS: bit 0 CONNECTED, bit 1 RECONNECT (R30). -/
  flags : BitVec 2
  /-- Q[0..2], front entry first (R31). -/
  queues : PerQueue (List Image)
  /-- PEND[p][r] (R32). -/
  pend : PerPort Pend
  /-- SEQ, with the settle state (R35, R37). -/
  seq : Seq
  /-- SCR[0..255] (R36). -/
  scr : List Byte
  /-- DEV: address and byte pairs in canonical form; an unlisted address reads 0xFF (R38). -/
  dev : Memory
  /-- The model's own: the last transaction on the device bus. -/
  bus : Option Transaction
  /-- The model's own: the port whose command `exec` runs. DESIGN CHOICE (assumption 23). -/
  issuer : PortId
  /-- The model's own: the schedule, the next event first; when it is empty the next event is free. -/
  script : List Event
  /-- The model's own: the number of steps taken, which the free values are applied to. -/
  tick : Nat
deriving DecidableEq, Repr

/-- The reasons the machine stops with a fault. -/
inductive Fault where
  /-- Raised by a sequencer step whose transaction leaves DEV[0..DEV_SIZE-1]. R61 keeps every range
  inside, so no state that satisfies the invariant raises it. Safe: the model stops (assumption 21). -/
  | noSuchDeviceByte
deriving DecidableEq, Repr

/-- The reasons the machine refuses a step. -/
inductive Refusal where
  /-- Raised by an arm of exec that has no meaning yet; safe. No arm is left so. -/
  | notModelled (mnemonic : String)
  /-- Raised by step in a configuration that 00_scope.md R8 calls illegal: "A model refuses an illegal
  configuration." Safe (assumption 20). -/
  | illegalConfig
deriving DecidableEq, Repr

/-- A bank right after reset (10_state.md R40), with the drawn bytes of BUF and MSG given. -/
def Bank.atReset (buf : List Byte) (msg : Image) (host : List Access) : Bank where
  rc := .ok
  res0 := 0x0000
  crc := 0xFFFF
  buf := buf
  msg := msg
  current := none
  host := host
  reply := .idle

/-- No pending mutation. -/
def Pend.none : Pend := ⟨⟨[], [], []⟩, []⟩

/-- The state right after the first power-up of a block with the given parameters (10_state.md R40,
70_reset_and_hazards.md R250, R251): DEV holds DEV_INIT. BUF, MSG and SCR are unspecified there and
read zero here. DESIGN CHOICE (assumption 3, assumption 4). -/
def State.launch (c : Config) : State where
  cfg := c
  ports :=
    let bank := Bank.atReset (List.replicate 256 0) (List.replicate 128 0) []
    ⟨bank, bank, bank⟩
  flags := 0
  queues := ⟨[], [], []⟩
  pend := ⟨Pend.none, Pend.none, Pend.none⟩
  seq := .idle
  scr := List.replicate 256 0
  dev := c.devInit
  bus := none
  issuer := .ctl
  script := []
  tick := 0

/-- The machine right after reset, with the default parameters of 00_scope.md R7. -/
def State.reset : State := State.launch Config.standard

end Sys2Proof.Machine
end

