-- ==== Sys2Proof/Machine/Ops.lean ====
section
/-! DEFINITION. The named operations over the device memory, the banks, the queues and the pending
buffers, byte order, and completing a command: the block's only form of exception and of return from
one (00_scope.md R12, 60_exceptions.md R226, R227). -/

namespace Sys2Proof.Machine

/-! ### Byte order (20_memory.md R70, R71) -/

/-- h[15:8]. -/
def hiByte (h : Half) : Byte := h.extractLsb' 8 8

/-- h[7:0]. -/
def loByte (h : Half) : Byte := h.extractLsb' 0 8

/-- Two bytes of the device space, the most significant first (R70). -/
def bigEndian (h : Half) : List Byte := [hiByte h, loByte h]

/-- The 16-bit value of two device bytes (R70). -/
def ofBigEndian (hi lo : Byte) : Half := hi ++ lo

/-- The two address bytes a transaction sends, high byte first (R62, R70). -/
def addressBytes (addr : Nat) : List Byte := bigEndian (BitVec.ofNat 16 addr)

/-- The host bus value of bytes at rising offsets: byte i in bits [8i+7:8i] (R71). -/
def littleEndian : List Byte → Word
  | [] => 0
  | b :: bs => (littleEndian bs <<< 8) ||| b.setWidth 32

/-- The n bytes a host write of width 8n carries, lowest offset first (R71). -/
def laneBytes (v : Word) (n : Nat) : List Byte :=
  (List.range n).map fun i => v.extractLsb' (8 * i) 8

/-! ### Byte buffers -/

/-- Overwrite the front of a buffer; bytes past its end are dropped, so the length never changes. -/
def splice : List Byte → List Byte → List Byte
  | _, [] => []
  | [], b :: buf => b :: buf
  | x :: xs, _ :: buf => x :: splice xs buf

/-- Overwrite a buffer from an offset on. -/
def spliceAt (at_ : Nat) (xs buf : List Byte) : List Byte :=
  buf.take at_ ++ splice xs (buf.drop at_)

/-- n free bytes of one step (10_state.md R28, R29, R36). -/
def freeBytes (tick base n : Nat) : List Byte :=
  (List.range n).map fun i => Config.freeByte tick (base + i)

/-! ### The device memory (10_state.md R38) -/

/-- What an unlisted address reads as: the byte of the default DEV_INIT (00_scope.md R7). DESIGN CHOICE
(assumption 24). -/
def Memory.unlisted : Byte := 0xFF

/-- The canonical form: addresses strictly rising, and no entry equal to what an unlisted address
reads as. -/
abbrev Memory.wf (m : Memory) : Prop :=
  m.Pairwise (fun x y => x.1 < y.1) ∧ ∀ c ∈ m, c.2 ≠ Memory.unlisted

/-- Read one byte. -/
def Memory.read : Memory → Nat → Byte
  | [], _ => Memory.unlisted
  | (k, b) :: m, a => if a = k then b else Memory.read m a

/-- Write one byte, keeping the canonical form. -/
def Memory.write : Memory → Nat → Byte → Memory
  | [], a, b => if b = Memory.unlisted then [] else [(a, b)]
  | (k, c) :: m, a, b =>
    if a < k then (if b = Memory.unlisted then (k, c) :: m else (a, b) :: (k, c) :: m)
    else if a = k then (if b = Memory.unlisted then m else (a, b) :: m)
    else (k, c) :: Memory.write m a b

/-- Read n bytes from an address on (20_memory.md R65). -/
def Memory.readBytes (m : Memory) (a n : Nat) : List Byte :=
  (List.range n).map fun i => m.read (a + i)

/-- Write bytes from an address on, linearly (R63). -/
def Memory.writeBytes (m : Memory) (a : Nat) : List Byte → Memory
  | [] => m
  | b :: bs => Memory.writeBytes (m.write a b) (a + 1) bs

/-- Per byte, the new value where `took` has its bit, the old value elsewhere (R64). -/
def mixFrom (took : BitVec 256) (i : Nat) : List Byte → List Byte → List Byte
  | o :: os, n :: ns => (if took.getLsbD i then n else o) :: mixFrom took (i + 1) os ns
  | _, _ => []

/-- The bytes a failed or torn write leaves (R64). -/
def mix (took : BitVec 256) (old new : List Byte) : List Byte := mixFrom took 0 old new

/-! ### Banks, queues and pending buffers (10_state.md R20, R31 to R33) -/

/-- Port p's bank. -/
def State.bank (s : State) (p : PortId) : Bank := s.ports.get p

/-- Change port p's bank and nothing else. -/
def State.updBank (s : State) (p : PortId) (f : Bank → Bank) : State :=
  { s with ports := s.ports.set p (f (s.ports.get p)) }

/-- STATUS.BUSY: a command is current (R25). -/
def State.busy (s : State) (p : PortId) : Bool := (s.bank p).current.isSome

/-- Q[q], front entry first. -/
def State.queue (s : State) (q : QueueId) : List Image := s.queues.get q

def State.setQueue (s : State) (q : QueueId) (l : List Image) : State :=
  { s with queues := s.queues.set q l }

/-- PEND[p][q] of a queue, oldest entry first. -/
def State.pendQueue (s : State) (p : PortId) (q : QueueId) : List Image :=
  (s.pend.get p).queues.get q

def State.setPendQueue (s : State) (p : PortId) (q : QueueId) (l : List Image) : State :=
  { s with pend := s.pend.set p { s.pend.get p with queues := (s.pend.get p).queues.set q l } }

/-- PEND[p][FLAGS], oldest entry first. -/
def State.pendFlags (s : State) (p : PortId) : List FlagOp := (s.pend.get p).flags

def State.setPendFlags (s : State) (p : PortId) (l : List FlagOp) : State :=
  { s with pend := s.pend.set p { s.pend.get p with flags := l } }

/-- QCAP (00_scope.md R6). -/
def queueCapacity : Nat := 10

/-- Landed and pending entries of a queue together. -/
def State.load (s : State) (q : QueueId) : Nat :=
  (s.queue q).length + ((s.pendQueue .ctl q).length + (s.pendQueue .ui q).length
    + (s.pendQueue .net q).length)

/-- credit(q) (10_state.md R33). -/
def State.credit (s : State) (q : QueueId) : Nat := queueCapacity - s.load q

/-- post(p, q, MSG[0..127]): a copy of the port's MSG goes to the back of PEND[p][q] (43_dispatch.md R183). -/
def postMessage (p : PortId) (q : QueueId) (s : State) : State :=
  s.setPendQueue p q (s.pendQueue p q ++ [(s.bank p).msg])

/-- post(p, FLAGS, op) for each operation in order (43_dispatch.md R188). -/
def postFlags (p : PortId) (ops : List FlagOp) (s : State) : State :=
  s.setPendFlags p (s.pendFlags p ++ ops)

/-- The tag of a Message image (43_dispatch.md R180). -/
def tagOf (m : Image) : Byte := m.headD 0

/-! ### Registers of a bank -/

def setRes0 (p : PortId) (v : Half) (s : State) : State := s.updBank p fun b => { b with res0 := v }

def setCrc (p : PortId) (v : Half) (s : State) : State := s.updBank p fun b => { b with crc := v }

/-- Overwrite the front of BUF. -/
def setBuf (p : PortId) (xs : List Byte) (s : State) : State :=
  s.updBank p fun b => { b with buf := splice xs b.buf }

/-- Overwrite all of MSG. -/
def setMsg (p : PortId) (m : Image) (s : State) : State :=
  s.updBank p fun b => { b with msg := splice m b.msg }

/-! ### Completing a command: the block's only exception, and its return -/

/-- finish(R): STATUS.RC ← R and STATUS.BUSY ← 0 in the same step (10_state.md R24). -/
def finish (p : PortId) (r : ResultCode) (s : State) : State :=
  s.updBank p fun b => { b with rc := r, current := none }

/-- raise R: the only form of exception the block has. It saves no state, changes no mode and goes to
no handler: it completes the current command with the code (00_scope.md R12, 60_exceptions.md R220,
R226). The port takes its next command as soon as BUSY = 0, so nothing returns from it (R227). -/
def raise (p : PortId) (r : ResultCode) (s : State) : State := finish p r s

/-- The command stays current until its hold lifts: the port stays BUSY, RC keeps the previous
result (10_state.md R24, R25; 00_scope.md R12). -/
def holdOn (p : PortId) (i : Instr) (h : Hold) (s : State) : State :=
  s.updBank p fun b => { b with current := some ⟨i, some h⟩ }

/-- A checked store or log command sets SEQ to ACTIVE; its port stays BUSY (41_store.md R140(b)). Its first
transaction is a later step. DEDUCED (assumption 12). -/
def startSequencer (p : PortId) (i : Instr) (first : SeqStep) (s : State) : State :=
  { (s.updBank p fun b => { b with current := some ⟨i, none⟩ }) with seq := .active i first }

/-- Remove the front entry of Q[q] into MSG, RES0 taking the tag (43_dispatch.md R186, R187). -/
def receive (p : PortId) (q : QueueId) (s : State) : State :=
  match s.queue q with
  | [] => s
  | m :: rest => finish p .ok (setRes0 p ((tagOf m).setWidth 16) (setMsg p m (s.setQueue q rest)))

end Sys2Proof.Machine
end

