-- ==== Sys2Proof/Machine/Flags.lean ====
section
/-! DEFINITION. The result codes and the STATUS word, and every computation on FLAGS: which operations
a mask names, who may make them, and what a landed operation does (10_state.md R25, R30;
43_dispatch.md R188, R196; 60_exceptions.md R220). -/

namespace Sys2Proof.Machine

/-- The 4-bit code of a result (60_exceptions.md R220). -/
def ResultCode.code : ResultCode → BitVec 4
  | .ok => 0x0
  | .corrupt => 0x1
  | .bus => 0x2
  | .empty => 0x3
  | .dropped => 0x4
  | .errOpc => 0x8
  | .errArg => 0x9
  | .errPerm => 0xA

/-- The class of the code (60_exceptions.md R220): an error is raised before any effect (R221). -/
def ResultCode.isError : ResultCode → Bool
  | .errOpc => true
  | .errArg => true
  | .errPerm => true
  | .ok => false
  | .corrupt => false
  | .bus => false
  | .empty => false
  | .dropped => false

/-- STATUS: RC in bits 7:4, BUSY in bit 0, the rest 0 (10_state.md R25). -/
def statusWord (r : ResultCode) (busy : Bool) : Word :=
  (0#24 ++ r.code ++ 0#3 ++ BitVec.ofBool busy : BitVec 32)

/-- The bit of FLAGS (10_state.md R30). -/
def FlagBit.index : FlagBit → Nat
  | .connected => 0
  | .reconnect => 1

def FlagBit.asBits : FlagBit → BitVec 2
  | .connected => 0b01
  | .reconnect => 0b10

/-- Whether a bit of FLAGS is 1. -/
def State.flag (s : State) (b : FlagBit) : Bool := s.flags.getLsbD b.index

/-- What a landed operation does to FLAGS (43_dispatch.md R196). -/
def FlagOp.apply : FlagOp → BitVec 2 → BitVec 2
  | .set b, f => f ||| b.asBits
  | .clr b, f => f &&& ~~~b.asBits

/-- One operation for each bit the mask names, bit 0 first (43_dispatch.md R188(a), (c)). -/
def namedOps (mk : FlagBit → FlagOp) (mask : BitVec 2) : List FlagOp :=
  (if mask.getLsbD 0 then [mk .connected] else [])
    ++ (if mask.getLsbD 1 then [mk .reconnect] else [])

/-- Set(1) is allowed from every port, every other operation only from NET (43_dispatch.md R188(b)). -/
def allowed (p : PortId) : FlagOp → Bool
  | .set .reconnect => true
  | .set .connected => p = .net
  | .clr _ => p = .net

end Sys2Proof.Machine
end

