-- ==== Sys2Proof/Machine/Operands.lean ====
section
/-! DEFINITION. What the operands mean and which values are in range: queues and their roles, record
lengths, device ranges, the geometry of the log ring, bank addresses, and the legality of a
configuration (00_scope.md R8; 20_memory.md R61, R66, R72; 42_log.md R160, R161; 43_dispatch.md R182). -/

namespace Sys2Proof.Machine

/-! ### Queues (30_encoding.md R106, 43_dispatch.md R180, R182) -/

/-- The queue a queue operand names; 3 is no queue. -/
def queueOf : Nat → Option QueueId
  | 0 => some .ui
  | 1 => some .net
  | 2 => some .ctl
  | _ => none

/-- The queue number a command names a queue by (10_state.md R31). -/
def QueueId.number : QueueId → Nat
  | .ui => 0
  | .net => 1
  | .ctl => 2

/-- maysend(P, q) (43_dispatch.md R182). -/
def maySend (p : PortId) : QueueId → Bool
  | .ui => p = .ctl
  | .net => p = .ctl
  | .ctl => p = .ui || p = .net

/-- receiver(q) (43_dispatch.md R182). -/
def receiver : QueueId → PortId
  | .ui => .ui
  | .net => .net
  | .ctl => .ctl

/-- The tag is one of the three shapes (43_dispatch.md R180). -/
def legalTag (m : Image) : Bool := (tagOf m).toNat ≤ 2

/-! ### Records and device ranges -/

/-- A record length is at least 3: a NUL and a CRC (30_encoding.md R103, 00_scope.md R6). -/
def recordLength (len : Nat) : Bool := 3 ≤ len

/-- The range check addr + n ≤ DEV_SIZE, without wrap (20_memory.md R61). -/
def inDevice (c : Config) (addr n : Nat) : Bool := addr + n ≤ c.devSize

/-! ### The log ring (42_log.md R160, R161) -/

/-- SLOT_BYTES (00_scope.md R6). -/
def slotBytes : Nat := 64

/-- slot(i). -/
def slotAddr (c : Config) (i : Nat) : Nat := c.minLogAddr + slotBytes * i

/-- MAX_LOG_ADDRESS: the address of the last slot. -/
def maxLogAddress (c : Config) : Nat := slotAddr c (c.logCount - 1)

/-- END, the past-the-end pointer. -/
def logEnd (c : Config) : Nat := slotAddr c c.logCount

/-- PTR_EMPTY, the empty-storage sentinel of the log pointer (00_scope.md R6). No rule tests for it: it
is no valid pointer of any legal configuration (42_log.md R161). -/
def pointerEmpty : Nat := 0xFFFF

/-- The validity test of a pointer value (42_log.md R161, 20_memory.md R72). -/
def validPointer (c : Config) (p : Nat) : Bool :=
  c.minLogAddr ≤ p && p ≤ maxLogAddress c && (p - c.minLogAddr) % slotBytes = 0

/-- RES0 of LOG_WRITE: wiped in bit 9, scanned in bit 8, the slot in bits 7:0 (42_log.md R164). -/
def logReport (c : Config) (p : Nat) (scanned wiped : Bool) : Half :=
  (0#6 ++ BitVec.ofBool wiped ++ BitVec.ofBool scanned
    ++ BitVec.ofNat 8 ((p - c.minLogAddr) / slotBytes) : BitVec 16)

/-! ### Bank addresses (20_memory.md R66) -/

/-- The host bus address of a port's bank. -/
def bankBase (c : Config) : PortId → Nat
  | .ctl => c.ctlBase
  | .ui => c.uiBase
  | .net => c.netBase

/-- The size of a bank (20_memory.md R60). -/
def bankSize : Nat := 0x400

/-- The offset of a host bus address in the bank of port p, if it is in it. -/
def bankOffset (c : Config) (p : PortId) (addr : Nat) : Option Nat :=
  if bankBase c p ≤ addr ∧ addr < bankBase c p + bankSize then some (addr - bankBase c p) else none

/-! ### Legal configurations -/

/-- T_SETTLE_MIN, about 5 ms (00_scope.md R6). DESIGN CHOICE (assumption 19). -/
def settleMinMs : Nat := 5

/-- R8's three conditions, R7's constraints on the other parameters, and bank bases that are aligned
and do not overlap (92_eei_decisions.md, OPEN parameters). -/
abbrev ConfigLegal (c : Config) : Prop :=
  (1 ≤ c.logCount ∧ c.logCount ≤ 256)
  ∧ c.minLogAddr + slotBytes * c.logCount ≤ c.logAddrStorage
  ∧ (c.logAddrStorage + 2 ≤ c.devSize ∧ c.devSize ≤ 0x10000)
  ∧ 2 ≤ c.flagPendDepth
  ∧ settleMinMs ≤ c.tSettleMs
  ∧ (c.ctlBase % bankSize = 0 ∧ c.uiBase % bankSize = 0 ∧ c.netBase % bankSize = 0)
  ∧ (c.ctlBase ≠ c.uiBase ∧ c.ctlBase ≠ c.netBase ∧ c.uiBase ≠ c.netBase)
  ∧ (Memory.wf c.devInit ∧ ∀ x ∈ c.devInit, x.1 < c.devSize)

end Sys2Proof.Machine
end

