-- ==== Sys2Proof/Machine/Record.lean ====
section
/-! DEFINITION. The CRC and the record functions every record command uses (40_crc.md R120 to R125). -/

namespace Sys2Proof.Machine

/-- CRC_POLY (00_scope.md R6). -/
def crcPoly : Half := 0x1021

/-- CRC_SEED (00_scope.md R6). -/
def crcSeed : Half := 0xFFFF

/-- One shift of the bitwise definition (40_crc.md R120). -/
def crcShift (c : Half) : Half :=
  if c.getLsbD 15 then (c <<< 1) ^^^ crcPoly else c <<< 1

/-- `crc_step_bitwise`, the definition (40_crc.md R120). -/
def crcStepBitwise (c : Half) (b : Byte) : Half :=
  crcShift (crcShift (crcShift (crcShift (crcShift (crcShift (crcShift (crcShift
    (c ^^^ (b.setWidth 16 <<< 8)))))))))

/-- `crc_step`, the nibble-based rolling form (40_crc.md R121), which the commands run. DEDUCED
(assumption 26). -/
def crcStep (c : Half) (b : Byte) : Half :=
  let x : Byte := c.extractLsb' 8 8 ^^^ b
  let x : Byte := x ^^^ (x >>> 4)
  let x16 : Half := x.setWidth 16
  (c <<< 8) ^^^ (x16 <<< 12) ^^^ (x16 <<< 5) ^^^ x16

/-- `crc_run` (40_crc.md R122). -/
def crcRun (c : Half) : List Byte → Half
  | [] => c
  | b :: bs => crcRun (crcStep c b) bs

/-- `text` (40_crc.md R123): up to the first 0x00, at most m-3 bytes. -/
def text (buf : List Byte) (m : Nat) : List Byte := (buf.take (m - 3)).takeWhile (· ≠ 0)

/-- The CRC a record stores: over the payload and its terminator (40_crc.md R124). -/
def recordCrc (t : List Byte) : Half := crcRun crcSeed (t ++ [0])

/-- `seal` (40_crc.md R124): payload, NUL, CRC high byte, CRC low byte, zero padding up to m bytes. -/
def sealRecord (t : List Byte) (m : Nat) : List Byte :=
  t ++ [0] ++ bigEndian (recordCrc t) ++ List.replicate (m - 3 - t.length) 0

/-- The answer of `validate` (40_crc.md R125). -/
inductive Validity where
  | ok (textLength : Nat)
  | corrupt
deriving DecidableEq, Repr

/-- The index of the first 0x00, or the length if there is none. -/
def nulIndex (record : List Byte) : Nat := record.findIdx (· = 0)

/-- `validate` (40_crc.md R125): the terminator must leave room for the CRC, and the two bytes after
it must be the CRC of the payload and terminator; the padding is not checked. -/
def validate (record : List Byte) (m : Nat) : Validity :=
  let t := nulIndex record
  if t < record.length ∧ t + 3 ≤ m then
    let c := crcRun crcSeed (record.take (t + 1))
    if record[t + 1]? = some (hiByte c) ∧ record[t + 2]? = some (loByte c) then .ok t else .corrupt
  else .corrupt

end Sys2Proof.Machine
end

