-- ==== Sys2Proof/Machine/Holds.lean ====
section
/-! DEFINITION. The check order of a command (60_exceptions.md R222), and the holds: when a hold lifts
and what the command then does in the same step (00_scope.md R12; 43_dispatch.md R183 to R193). -/

namespace Sys2Proof.Machine

/-- The outcome of a step. -/
abbrev Result := Host.Outcome State Fault Refusal

/-- Steps 2 to 4 of the check order (60_exceptions.md R222), for the issuing port: ERR_ARG, then
ERR_PERM, then execution. Step 1, ERR_OPC, is the decoder's. -/
def checked (argOk permOk : Bool) (run : State → State) (s : State) : Result :=
  .next (if argOk = false then raise s.issuer .errArg s
    else if permOk = false then raise s.issuer .errPerm s
    else run s)

/-- The condition of `hold until` (43_dispatch.md R183, R185, R187, R188(d), R192). -/
def Hold.lifted (h : Hold) (p : PortId) (s : State) : Bool :=
  match h with
  | .credit q => 1 ≤ s.credit q
  | .gate q => (s.pendFlags p).isEmpty && (!s.flag .connected || 1 ≤ s.credit q)
  | .entry q => !(s.queue q).isEmpty
  | .depth ops => (s.pendFlags p).length + ops.length ≤ s.cfg.flagPendDepth
  | .ownFlags => (s.pendFlags p).isEmpty

/-- The statements after the `hold until`, run in the step in which its condition is found true. -/
def Hold.resume (h : Hold) (p : PortId) (s : State) : State :=
  match h with
  | .credit q => finish p .ok (postMessage p q s)
  | .gate q =>
    if s.flag .connected = false then finish p .dropped s else finish p .ok (postMessage p q s)
  | .entry q => receive p q s
  | .depth ops => finish p .ok (postFlags p ops s)
  | .ownFlags => finish p .ok (setRes0 p (s.flags.setWidth 16) s)

/-- `hold until` in the issuing step: the command goes on at once if the condition is true, and is
held otherwise. -/
def awaitHold (p : PortId) (i : Instr) (h : Hold) (s : State) : State :=
  if h.lifted p s then h.resume p s else holdOn p i h s

/-- A step of a port whose command is held: the condition is tested again, and the action follows in
the same step (00_scope.md R12; 43_dispatch.md R183 to R193). A port without a held command does nothing. DEDUCED
(assumption 10, assumption 11). -/
def retest (p : PortId) (s : State) : State :=
  match (s.bank p).current with
  | some ⟨_, some h⟩ => if h.lifted p s then h.resume p s else s
  | _ => s

/-! ### The gate of a held Q_SENDC, in every step (43_dispatch.md R185) -/

/-- Port p holds in a Q_SENDC, its own flag operations have landed, and CONNECTED is 0. -/
def gateClosed (p : PortId) (s : State) : Bool :=
  match (s.bank p).current with
  | some ⟨_, some (.gate _)⟩ => (s.pendFlags p).isEmpty && !s.flag .connected
  | _ => false

/-- Retest the gate of port p's held Q_SENDC: when it is closed the hold lifts and the result is DROPPED,
whatever the credit. -/
def retestGate (p : PortId) (s : State) : State := if gateClosed p s then finish p .dropped s else s

/-- Retest every gate, in the step that may have closed one: a held sender is released "the moment it
disconnects" (92_eei_decisions.md D23). -/
def retestGates (s : State) : State :=
  { s with ports := ⟨(retestGate .ctl s).bank .ctl, (retestGate .ui s).bank .ui, (retestGate .net s).bank .net⟩ }

end Sys2Proof.Machine
end

