-- ==== Sys2Proof/Machine/Crc.lean ====
section
/-! DEFINITION. The CRC validator commands (40_crc.md R126 to R130). Every port may issue them; they
complete in the issuing step. -/

namespace Sys2Proof.Machine

/-- P.CRC ← v ; P.RES0 ← v ; finish(OK). -/
def finishCrc (p : PortId) (v : Half) (s : State) : State := finish p .ok (setRes0 p v (setCrc p v s))

/-- CRC_INIT (R126). -/
def execCrcInit (s : State) : Result := .next (finishCrc s.issuer crcSeed s)

/-- CRC_BYTE (R127). -/
def execCrcByte (imm8 : Byte) (s : State) : Result :=
  .next (finishCrc s.issuer (crcStep (s.bank s.issuer).crc imm8) s)

/-- CRC_BUF (R128): continues from the accumulator. -/
def execCrcBuf (len : Nat) (s : State) : Result :=
  .next (finishCrc s.issuer (crcRun (s.bank s.issuer).crc ((s.bank s.issuer).buf.take len)) s)

/-- The text of the port's BUF, sealed in place, its length in RES0 (R129). -/
def sealBuf (p : PortId) (m : Nat) (s : State) : State :=
  let t := text (s.bank p).buf m
  finish p .ok (setRes0 p (BitVec.ofNat 16 t.length) (setBuf p (sealRecord t m) s))

/-- CRC_SEAL (R129). -/
def execCrcSeal (len : Nat) (s : State) : Result :=
  checked (recordLength len) true (sealBuf s.issuer len) s

/-- The record in the port's BUF, validated (R130). -/
def checkBuf (p : PortId) (m : Nat) (s : State) : State :=
  match validate ((s.bank p).buf.take m) m with
  | .ok t => finish p .ok (setRes0 p (BitVec.ofNat 16 t) s)
  | .corrupt => finish p .corrupt s

/-- CRC_CHECK (R130). -/
def execCrcCheck (len : Nat) (s : State) : Result :=
  checked (recordLength len) true (checkBuf s.issuer len) s

end Sys2Proof.Machine
end

