-- ==== Sys2Proof/Machine/FlagCmd.lean ====
section
/-! DEFINITION. The flag commands (43_dispatch.md R188 to R193). -/

namespace Sys2Proof.Machine

/-- The common behaviour of FLAG_SET and FLAG_CLEAR (R188): every named bit must be allowed; no bit
completes at once (R191); else the operations are posted together once they fit. -/
def postOps (i : Instr) (ops : List FlagOp) (s : State) : Result :=
  checked true (ops.all (allowed s.issuer))
    (fun s => if ops.isEmpty then finish s.issuer .ok s
      else awaitHold s.issuer i (.depth ops) s) s

/-- FLAG_SET (R189). -/
def execFlagSet (mask : BitVec 2) (s : State) : Result :=
  postOps (.flagSet mask) (namedOps .set mask) s

/-- FLAG_CLEAR (R190). -/
def execFlagClear (mask : BitVec 2) (s : State) : Result :=
  postOps (.flagClear mask) (namedOps .clr mask) s

/-- FLAG_GET (R192): waits for the port's own flag operations, then samples both bits. -/
def execFlagGet (s : State) : Result :=
  .next (awaitHold s.issuer .flagGet .ownFlags s)

end Sys2Proof.Machine
end

