-- ==== Sys2Proof/Machine/Log.lean ====
section
/-! DEFINITION. The issuing step of the log commands (42_log.md R164 to R166), and the sequencer steps
the ring's procedures begin with. -/

namespace Sys2Proof.Machine

/-- The test of slot i in the scan (R162): one 1-byte MemRead. -/
def scanSlot (c : Config) (i : Nat) : SeqStep := .memRead (slotAddr c i) 1 (.logScan i)

/-- The wipe of slot i (R163): one 1-byte MemWrite of 0x00. -/
def wipeSlot (c : Config) (i : Nat) (resume : Bool) : SeqStep :=
  .memWrite (slotAddr c i) [0] (.wipeSlot i resume)

/-- The last write of the wipe: the pointer becomes MIN_LOG_ADDR (R163). -/
def wipePointer (c : Config) (resume : Bool) : SeqStep :=
  .memWrite c.logAddrStorage (bigEndian (BitVec.ofNat 16 c.minLogAddr)) (.wipePointer resume)

/-- The record write of LOG_WRITE at address p (R164). -/
def writeSlot (buf : List Byte) (p : Nat) (scanned wiped : Bool) : SeqStep :=
  .memWrite p (sealRecord (text buf slotBytes) slotBytes) (.slotRecord p scanned wiped)

/-- The pointer write of LOG_WRITE after the record at p: the pointer becomes p + 64 (R164). -/
def advancePointer (c : Config) (p : Nat) (scanned wiped : Bool) : SeqStep :=
  .memWrite c.logAddrStorage (bigEndian (BitVec.ofNat 16 (p + slotBytes)))
    (.done (logReport c p scanned wiped))

/-- LOG_WRITE (R164): its first transaction reads the pointer. -/
def execLogWrite (s : State) : Result :=
  checked true (s.issuer = .ctl)
    (startSequencer s.issuer .logWrite (.memRead s.cfg.logAddrStorage 2 .logPointer)) s

/-- LOG_READ (R165). -/
def execLogRead (slot : Nat) (s : State) : Result :=
  checked (slot < s.cfg.logCount) (s.issuer = .ctl)
    (startSequencer s.issuer (.logRead slot) (.memRead (slotAddr s.cfg slot) slotBytes .logRead)) s

/-- LOG_DELETE (R166): the wipe. -/
def execLogDelete (s : State) : Result :=
  checked true (s.issuer = .ctl)
    (startSequencer s.issuer .logDelete (wipeSlot s.cfg 0 false)) s

end Sys2Proof.Machine
end

