-- ==== Sys2Proof/Machine/Queue.lean ====
section
/-! DEFINITION. The queue commands (43_dispatch.md R182 to R187). -/

namespace Sys2Proof.Machine

/-- The common checks of a send (R182): queue 3, the tag, the role. -/
def sendChecked (q : Nat) (run : QueueId → State → State) (s : State) : Result :=
  match queueOf q with
  | none => .next (raise s.issuer .errArg s)
  | some qid => checked (legalTag (s.bank s.issuer).msg) (maySend s.issuer qid) (run qid) s

/-- The common checks of a receive (R182): queue 3, the role. -/
def receiveChecked (q : Nat) (run : QueueId → State → State) (s : State) : Result :=
  match queueOf q with
  | none => .next (raise s.issuer .errArg s)
  | some qid => checked true (s.issuer = receiver qid) (run qid) s

/-- Q_SEND (R183): holds until there is credit, then posts. -/
def execQSend (q : Nat) (s : State) : Result :=
  sendChecked q (fun qid s => awaitHold s.issuer (.qSend q) (.credit qid) s) s

/-- Q_SENDC (R185): the gate is tested on the landed flags; DROPPED posts nothing. -/
def execQSendc (q : Nat) (s : State) : Result :=
  sendChecked q (fun qid s => awaitHold s.issuer (.qSendc q) (.gate qid) s) s

/-- Q_TRYRECV (R186): never holds; EMPTY leaves MSG and RES0 unchanged. -/
def execQTryrecv (q : Nat) (s : State) : Result :=
  receiveChecked q (fun qid s =>
    if (s.queue qid).isEmpty then finish s.issuer .empty s else receive s.issuer qid s) s

/-- Q_RECV (R187): holds while the queue has no landed entry. -/
def execQRecv (q : Nat) (s : State) : Result :=
  receiveChecked q (fun qid s => awaitHold s.issuer (.qRecv q) (.entry qid) s) s

end Sys2Proof.Machine
end

