-- ==== Sys2Proof/Machine/Store.lean ====
section
/-! DEFINITION. The issuing step of the status-record and raw store commands (41_store.md R140 to
R144): the checks, and SEQ set to ACTIVE at the command's first transaction. The transactions are
sequencer steps (Machine/Sequencer.lean). -/

namespace Sys2Proof.Machine

/-- ST_WRITE_STATUS (R141): the text of BUF, sealed to `len` bytes, is written at `addr`. -/
def execStWriteStatus (addr : Half) (len : Nat) (s : State) : Result :=
  let t := text (s.bank s.issuer).buf len
  checked (recordLength len && inDevice s.cfg addr.toNat len) (s.issuer = .ctl)
    (startSequencer s.issuer (.stWriteStatus addr len)
      (.memWrite addr.toNat (sealRecord t len) (.done (BitVec.ofNat 16 t.length)))) s

/-- ST_READ_STATUS (R142). -/
def execStReadStatus (addr : Half) (len : Nat) (s : State) : Result :=
  checked (recordLength len && inDevice s.cfg addr.toNat len) (s.issuer = .ctl)
    (startSequencer s.issuer (.stReadStatus addr len)
      (.memRead addr.toNat len (.readStatus len))) s

/-- A raw transfer of no bytes: P.RES0 ← 0 ; finish(OK), and no transaction (R143, R144). -/
def finishEmptyTransfer (p : PortId) (s : State) : State := finish p .ok (setRes0 p 0 s)

/-- ST_RAW_READ (R143). -/
def execStRawRead (addr : Half) (len : Nat) (s : State) : Result :=
  checked (inDevice s.cfg addr.toNat len) (s.issuer = .ctl)
    (fun s => if len = 0 then finishEmptyTransfer s.issuer s
      else startSequencer s.issuer (.stRawRead addr len) (.memRead addr.toNat len (.rawRead len)) s) s

/-- ST_RAW_WRITE (R144): BUF[0..len-1] is written at `addr`. -/
def execStRawWrite (addr : Half) (len : Nat) (s : State) : Result :=
  checked (inDevice s.cfg addr.toNat len) (s.issuer = .ctl)
    (fun s => if len = 0 then finishEmptyTransfer s.issuer s
      else startSequencer s.issuer (.stRawWrite addr len)
        (.memWrite addr.toNat ((s.bank s.issuer).buf.take len) (.done (BitVec.ofNat 16 len))) s) s

end Sys2Proof.Machine
end

