-- ==== Sys2Proof/Machine/Dispatch.lean ====
section
/-! DEFINITION. The issuing step of each command at the port `s.issuer` (10_state.md R24). -/

namespace Sys2Proof.Machine

def exec (i : Instr) (s : State) : Host.Outcome State Fault Refusal :=
  match i with
  | .crcInit => Sys2Proof.Machine.execCrcInit s
  | .crcByte imm8 => Sys2Proof.Machine.execCrcByte imm8 s
  | .crcBuf len => Sys2Proof.Machine.execCrcBuf len s
  | .crcSeal len => Sys2Proof.Machine.execCrcSeal len s
  | .crcCheck len => Sys2Proof.Machine.execCrcCheck len s
  | .stWriteStatus addr len => Sys2Proof.Machine.execStWriteStatus addr len s
  | .stReadStatus addr len => Sys2Proof.Machine.execStReadStatus addr len s
  | .stRawRead addr len => Sys2Proof.Machine.execStRawRead addr len s
  | .stRawWrite addr len => Sys2Proof.Machine.execStRawWrite addr len s
  | .logWrite => Sys2Proof.Machine.execLogWrite s
  | .logRead slot => Sys2Proof.Machine.execLogRead slot s
  | .logDelete => Sys2Proof.Machine.execLogDelete s
  | .qSend q => Sys2Proof.Machine.execQSend q s
  | .qSendc q => Sys2Proof.Machine.execQSendc q s
  | .qTryrecv q => Sys2Proof.Machine.execQTryrecv q s
  | .qRecv q => Sys2Proof.Machine.execQRecv q s
  | .flagSet mask => Sys2Proof.Machine.execFlagSet mask s
  | .flagClear mask => Sys2Proof.Machine.execFlagClear mask s
  | .flagGet => Sys2Proof.Machine.execFlagGet s

end Sys2Proof.Machine
end

