-- ==== Sys2Proof/Machine/HostBus.lean ====
section
/-! DEFINITION. The host bus: the bank map, widths, byte lanes and alignment, accesses held while the
port is BUSY, and issuing a command by a write to CMD (10_state.md R23, R24; 20_memory.md R66 to R71;
60_exceptions.md R235). -/

namespace Sys2Proof.Machine

/-- The byte of a word at lane i (20_memory.md R71). -/
def lane (w : Word) (i : Nat) : Byte := w.extractLsb' (8 * i) 8

/-- The byte a host reads at an offset of a bank (20_memory.md R66, R69, R71): CMD and the reserved
offsets read 0. -/
def bankByte (b : Bank) (off : Nat) : Byte :=
  if off < 0x004 then 0
  else if off < 0x008 then lane (statusWord b.rc b.current.isSome) (off - 0x004)
  else if off < 0x00C then lane (b.res0.setWidth 32) (off - 0x008)
  else if off < 0x010 then lane (b.crc.setWidth 32) (off - 0x00C)
  else if off < 0x100 then 0
  else if off < 0x200 then b.buf.getD (off - 0x100) 0
  else if off < 0x280 then b.msg.getD (off - 0x200) 0
  else 0

/-- The value of a host read of n bytes at an offset (20_memory.md R67, R71). -/
def bankRead (b : Bank) (off n : Nat) : Word :=
  littleEndian ((List.range n).map fun i => bankByte b (off + i))

/-- A read of STATUS, the one access a BUSY port does not hold (10_state.md R24). -/
def isStatusRead (off : Nat) (op : AccessOp) : Bool := 0x004 ≤ off && off < 0x008 && op = .read

/-- The host bus answers the first access of port p's host, which is done. -/
def answer (p : PortId) (r : Reply) (s : State) : State :=
  s.updBank p fun b => { b with host := b.host.tail, reply := r }

/-- A word written to CMD issues the command it encodes, or ERR_OPC (10_state.md R23, 30_encoding.md
R109 to R111). -/
def issue (p : PortId) (w : Word) (s : State) : Result :=
  match decode w with
  | .instr i => exec i { s with issuer := p }
  | .illegal _ => .next (raise p .errOpc { s with issuer := p })

/-- A write of `v` to a bank (20_memory.md R66, R67, R69): a 32-bit write to CMD issues a command; a
narrower one, and a write to a read-only or reserved offset, is ignored; BUF and MSG take the bytes. -/
def bankWrite (p : PortId) (off : Nat) (width : Width) (v : Word) (s : State) : Result :=
  if off < 0x004 then (if width = .w32 then issue p v s else .next s)
  else if off < 0x100 then .next s
  else if off < 0x200 then
    .next (s.updBank p fun b =>
      { b with buf := spliceAt (off - 0x100) (laneBytes v width.bytes) b.buf })
  else if off < 0x280 then
    .next (s.updBank p fun b =>
      { b with msg := spliceAt (off - 0x200) (laneBytes v width.bytes) b.msg })
  else .next s

/-- The access at an offset of port p's own bank, not held: misaligned accesses get a bus error and
change nothing of the block (20_memory.md R68); the fault is the host's, so the machine goes on. DEDUCED
(assumption 14). -/
def bankAccess (p : PortId) (off : Nat) (a : Access) (s : State) : Result :=
  if off % a.width.bytes ≠ 0 then .next (answer p .busError s)
  else
    match a.op with
    | .read => .next (answer p (.data (bankRead (s.bank p) off a.width.bytes)) s)
    | .write v => bankWrite p off a.width v (answer p .written s)

/-- The host of port p makes its next access: held while the port is BUSY (10_state.md R24), unanswered
if the address is in no bank of the port (R21); a host with no access left does nothing. A misaligned
access to a BUSY port is held too. DESIGN CHOICE (assumption 10, assumption 13, assumption 15). -/
def hostStep (p : PortId) (s : State) : Result :=
  match (s.bank p).host with
  | [] => .next s
  | a :: _ =>
    match bankOffset s.cfg p a.addr with
    | none => .next (answer p .noBank s)
    | some off =>
      if s.busy p && !isStatusRead off a.op then .next s else bankAccess p off a s

end Sys2Proof.Machine
end

