-- ==== Sys2Proof/Machine/Lander.lean ====
section
/-! DEFINITION. The lander (43_dispatch.md R196). -/

namespace Sys2Proof.Machine

/-- Move the front Message of PEND[p][q] to the back of Q[q]. -/
def landMessage (p : PortId) (q : QueueId) (s : State) : State :=
  match s.pendQueue p q with
  | [] => s
  | m :: rest => (s.setPendQueue p q rest).setQueue q (s.queue q ++ [m])

/-- Apply the front operation of PEND[p][FLAGS] to FLAGS. Only a lander step changes FLAGS or empties a
held port's flag buffer, so the gates are retested here and in no other step (R185, R196). -/
def landFlag (p : PortId) (s : State) : State :=
  match s.pendFlags p with
  | [] => s
  | op :: rest => retestGates { s.setPendFlags p rest with flags := op.apply s.flags }

/-- One lander step on PEND[p][r]; an empty buffer has nothing to land. -/
def land (p : PortId) (r : Resource) (s : State) : State :=
  match r with
  | .queue q => landMessage p q s
  | .flags => landFlag p s

end Sys2Proof.Machine
end

