-- ==== Sys2Proof/Machine/Power.lean ====
section
/-! DEFINITION. Power loss and the reset of the power-up that follows it (10_state.md R40;
70_reset_and_hazards.md R250 to R252). -/

namespace Sys2Proof.Machine

/-- DEV after a power loss (R252(c) to (e)): a write whose settle has not ended is torn, each of its
bytes holding its old or its new value; every other byte is unchanged. -/
def tornDevice (took : BitVec 256) (s : State) : Memory :=
  match s.seq with
  | .active _ (.settle w _) => s.dev.writeBytes w.addr (mix took w.old w.new)
  | _ => s.dev

/-- The bank of a port after a power-up: the reset values of R40, with BUF and MSG drawn freshly
(assumption 5). The draws of the three ports do not overlap. -/
def freshBank (tick : Nat) (host : List Access) : PortId → Bank
  | .ctl => Bank.atReset (freeBytes tick 0 256) (freeBytes tick 768 128) host
  | .ui => Bank.atReset (freeBytes tick 256 256) (freeBytes tick 896 128) host
  | .net => Bank.atReset (freeBytes tick 512 256) (freeBytes tick 1024 128) host

/-- Power is lost and comes back: everything volatile takes its reset value in one step (R250), DEV
survives but for the torn write (R251, R252), and the hosts start over with the accesses of `boot`. DESIGN
CHOICE (assumption 25), DEDUCED (assumption 31). -/
def powerCycle (took : BitVec 256) (boot : PerPort (List Access)) (s : State) : State :=
  { State.launch s.cfg with
    ports := ⟨freshBank s.tick boot.ctl .ctl, freshBank s.tick boot.ui .ui,
      freshBank s.tick boot.net .net⟩
    scr := freeBytes s.tick 1152 256
    dev := tornDevice took s
    script := s.script
    tick := s.tick }

end Sys2Proof.Machine
end

