-- ==== Sys2Proof/Machine/Sequencer.lean ====
section
/-! DEFINITION. The store sequencer: the two device transactions, the settle step, and what each
command does after each of them (20_memory.md R62 to R65, R76; 41_store.md R140 to R144; 42_log.md
R162 to R166). It works for CTL (10_state.md R34). -/

namespace Sys2Proof.Machine

/-- The command completes: SEQ becomes IDLE and CTL's STATUS takes the code. -/
def seqFinish (r : ResultCode) (s : State) : State := { finish .ctl r s with seq := .idle }

/-- The sequencer's next step of the same command. -/
def seqGo (cmd : Instr) (next : SeqStep) (s : State) : State := { s with seq := .active cmd next }

/-! ### Device transactions -/

/-- MemRead(addr, n) (20_memory.md R62, R65): on success the bytes go to SCR; a failed read leaves SCR
unspecified, which is a free value (assumption 6). -/
def memRead (ok : Bool) (addr n : Nat) (s : State) : State :=
  { s with
    scr := if ok then splice (s.dev.readBytes addr n) s.scr else freeBytes s.tick 0 s.scr.length
    bus := some (.read (addressBytes addr) n ok) }

/-- The bytes a MemWrite leaves: all of them when it succeeds, a per-byte mix when it fails (R63, R64). -/
def landedBytes (ok : Bool) (took : BitVec 256) (old new : List Byte) : List Byte :=
  if ok then new else mix took old new

/-- MemWrite(addr, n, v) (20_memory.md R62 to R64). -/
def memWrite (ok : Bool) (took : BitVec 256) (addr : Nat) (data : List Byte) (s : State) : State :=
  { s with
    dev := s.dev.writeBytes addr (landedBytes ok took (s.dev.readBytes addr data.length) data)
    bus := some (.write (addressBytes addr ++ data) ok) }

/-- The settle that follows a MemWrite (R76), which keeps what a power loss can still tear. -/
def settleOf (ok : Bool) (addr : Nat) (data : List Byte) (dev : Memory) (k : AfterWrite) : SeqStep :=
  .settle ⟨addr, dev.readBytes addr data.length, data, ok⟩ k

/-! ### What follows a transaction -/

/-- Hand the first n bytes of SCR to CTL's BUF and complete with OK and this RES0 (41_store.md R142,
R143; 42_log.md R165). -/
def deliver (n : Nat) (res0 : Half) (s : State) : State :=
  seqFinish .ok (setRes0 .ctl res0 (setBuf .ctl (s.scr.take n) s))

/-- Validate the first m bytes of SCR: the text and its NUL go to BUF, or CORRUPT (41_store.md R142,
42_log.md R165). -/
def deliverRecord (m : Nat) (s : State) : State :=
  match validate (s.scr.take m) m with
  | .ok t => deliver (t + 1) (BitVec.ofNat 16 t) s
  | .corrupt => seqFinish .corrupt s

/-- The log pointer in SCR[0..1] (42_log.md R160). -/
def pointerRead (s : State) : Nat := (ofBigEndian (s.scr.headD 0) (s.scr.tail.headD 0)).toNat

/-- LOG_WRITE goes on to its record write at address p (42_log.md R164). -/
def writeAt (cmd : Instr) (p : Nat) (scanned wiped : Bool) (s : State) : State :=
  seqGo cmd (writeSlot (s.bank .ctl).buf p scanned wiped) s

/-- After a successful MemRead, in the same step. -/
def afterRead (cmd : Instr) (k : AfterRead) (s : State) : State :=
  match k with
  | .readStatus m => deliverRecord m s
  | .rawRead n => deliver n (BitVec.ofNat 16 n) s
  | .logPointer =>
    if validPointer s.cfg (pointerRead s) then writeAt cmd (pointerRead s) false false s
    else seqGo cmd (scanSlot s.cfg 0) s
  | .logScan i =>
    if s.scr.headD 0 = 0 then writeAt cmd (slotAddr s.cfg i) true false s
    else if i + 1 < s.cfg.logCount then seqGo cmd (scanSlot s.cfg (i + 1)) s
    else seqGo cmd (wipeSlot s.cfg 0 true) s
  | .logRead => if s.scr.headD 0 = 0 then seqFinish .empty s else deliverRecord slotBytes s

/-- After the settle of a successful MemWrite, in the same step. -/
def afterWrite (cmd : Instr) (k : AfterWrite) (s : State) : State :=
  match k with
  | .done res0 => seqFinish .ok (setRes0 .ctl res0 s)
  | .wipeSlot i resume =>
    if i + 1 < s.cfg.logCount then seqGo cmd (wipeSlot s.cfg (i + 1) resume) s
    else seqGo cmd (wipePointer s.cfg resume) s
  | .wipePointer resume =>
    if resume then writeAt cmd s.cfg.minLogAddr true true s else seqFinish .ok s
  | .slotRecord p scanned wiped => seqGo cmd (advancePointer s.cfg p scanned wiped) s

/-! ### One step of the sequencer (10_state.md R35) -/

/-- A failed MemRead ends the command with BUS at once, a failed MemWrite after its settle
(41_store.md R140(c)). An idle sequencer does nothing (assumption 10). -/
def seqStep (ok : Bool) (took : BitVec 256) (s : State) : Result :=
  match s.seq with
  | .idle => .next s
  | .active cmd (.memRead addr n k) =>
    if inDevice s.cfg addr n then
      .next (if ok then afterRead cmd k (memRead ok addr n s) else seqFinish .bus (memRead ok addr n s))
    else .fault .noSuchDeviceByte
  | .active cmd (.memWrite addr data k) =>
    if inDevice s.cfg addr data.length then
      .next (seqGo cmd (settleOf ok addr data s.dev k) (memWrite ok took addr data s))
    else .fault .noSuchDeviceByte
  | .active cmd (.settle w k) => .next (if w.ok then afterWrite cmd k s else seqFinish .bus s)

end Sys2Proof.Machine
end

