-- ==== Sys2Proof/Machine/Schedule.lean ====
section
/-! DEFINITION. Which agent moves next and what its step is (20_memory.md R78; 60_exceptions.md R223,
R232). -/

namespace Sys2Proof.Machine

/-- The next event: the script's first, or a free one when the script is empty (assumption 7). -/
def nextEvent (s : State) : Event :=
  match s.script with
  | [] => Config.freeEvent s.tick
  | e :: _ => e

/-- The state as the event finds it: the script without the event, one more step taken. -/
def advance (s : State) : State := { s with script := s.script.tail, tick := s.tick + 1 }

/-- One step of the agent the event names. -/
def runEvent (e : Event) (s : State) : Result :=
  match e with
  | .host p => hostStep p s
  | .port p => .next (retest p s)
  | .sequencer ok took => seqStep ok took s
  | .land p r => .next (land p r s)
  | .powerLoss took boot => .next (powerCycle took boot s)

/-- The host access that issues the command w at port p (10_state.md R23). -/
def cmdWrite (c : Config) (p : PortId) (w : Word) : Access := ⟨bankBase c p, .w32, .write w⟩

/-- The state in which the next step is CTL's host writing w to CMD: CTL is not BUSY, so the write is
not held, and SEQ runs nothing for it. -/
def presentCommand (w : Word) (s : State) : State :=
  { (s.updBank .ctl fun b => { b with current := none, host := cmdWrite s.cfg .ctl w :: b.host }) with
    seq := .idle
    script := .host .ctl :: s.script }

end Sys2Proof.Machine
end

