-- ==== Sys2Proof/Machine/Step.lean ====
section
/-! DEFINITION. One step of the machine. -/

namespace Sys2Proof.Machine

/-- One step of one agent. An illegal configuration is refused (00_scope.md R8). -/
def step (s : State) : Host.Outcome State Fault Refusal :=
  if ConfigLegal s.cfg then runEvent (nextEvent s) (advance s) else .refused .illegalConfig

/-- The state whose next step is CTL's host issuing the command of `nbits` bits `w`: the block fetches
nothing (10_state.md R22), so the command is put where a host's next access stands, and the schedule
names that host (assumption 8). -/
def State.withFetchWord (s : State) (nbits w : Nat) : State :=
  presentCommand (BitVec.ofNat 32 (w % 2 ^ nbits)) s

end Sys2Proof.Machine
end

