-- ==== Sys2Proof/Safety.lean ====
section
/-! DEFINITION. The terms claims are stated in: the invariant of the block, what a step leaves
unchanged, runs of the sequencer alone, and fair runs of the whole block. -/

namespace Sys2Proof.Machine

/-! ### The invariant -/

/-- A Message image: 128 bytes with one of the three tags (43_dispatch.md R180, R199(c)). -/
abbrev LegalImage (m : Image) : Prop := m.length = 128 ∧ legalTag m = true

/-- The command a wipe belongs to: LOG_WRITE goes on after it, LOG_DELETE ends (42_log.md R163). -/
def wiper (resume : Bool) : Instr := if resume then .logWrite else .logDelete

/-- A pending MemRead is one its command's rule lists (41_store.md R142, R143; 42_log.md R162 to R165). -/
def AfterRead.Fits (c : Config) (cmd : Instr) (addr n : Nat) : AfterRead → Prop
  | .readStatus m => n = m ∧ 3 ≤ m ∧ m ≤ 255 ∧ ∃ a : Half, cmd = .stReadStatus a m ∧ addr = a.toNat
  | .rawRead m => n = m ∧ m ≤ 255 ∧ ∃ a : Half, cmd = .stRawRead a m ∧ addr = a.toNat
  | .logPointer => n = 2 ∧ addr = c.logAddrStorage ∧ cmd = .logWrite
  | .logScan i => n = 1 ∧ i < c.logCount ∧ addr = slotAddr c i ∧ cmd = .logWrite
  | .logRead => n = slotBytes ∧ ∃ i, i < c.logCount ∧ addr = slotAddr c i ∧ cmd = .logRead i

/-- A pending or unsettled MemWrite is one its command's rule lists (41_store.md R141, R144; 42_log.md
R163, R164). -/
def AfterWrite.Fits (c : Config) (cmd : Instr) (addr n : Nat) : AfterWrite → Prop
  | .done _ =>
    (∃ (a : Half) (m : Nat), (cmd = .stWriteStatus a m ∨ cmd = .stRawWrite a m) ∧ addr = a.toNat
        ∧ n = m ∧ m ≤ 255)
      ∨ (cmd = .logWrite ∧ addr = c.logAddrStorage ∧ n = 2)
  | .wipeSlot i resume => n = 1 ∧ i < c.logCount ∧ addr = slotAddr c i ∧ cmd = wiper resume
  | .wipePointer resume => n = 2 ∧ addr = c.logAddrStorage ∧ cmd = wiper resume
  | .slotRecord p _ _ => n = slotBytes ∧ addr = p ∧ validPointer c p = true ∧ cmd = .logWrite

/-- The sequencer's next step is one of its command's, inside the device (20_memory.md R61, R73). -/
def SeqStep.Fits (c : Config) (cmd : Instr) : SeqStep → Prop
  | .memRead addr n k => inDevice c addr n = true ∧ k.Fits c cmd addr n
  | .memWrite addr data k => inDevice c addr data.length = true ∧ k.Fits c cmd addr data.length
  | .settle w k =>
    inDevice c w.addr w.new.length = true ∧ w.old.length = w.new.length
      ∧ k.Fits c cmd w.addr w.new.length

/-- SEQ runs CTL's current command, which is then not held (10_state.md R34, R35). -/
def Seq.Fits (c : Config) (ctl : Option Current) : Seq → Prop
  | .idle => True
  | .active cmd todo => ctl = some ⟨cmd, none⟩ ∧ todo.Fits c cmd

/-- A held command passed its checks and holds on its own rule's condition (43_dispatch.md R183 to
R192). -/
def Hold.Fits (p : PortId) (msg : Image) (cmd : Instr) : Hold → Prop
  | .credit q => cmd = .qSend q.number ∧ maySend p q = true ∧ legalTag msg = true
  | .gate q => cmd = .qSendc q.number ∧ maySend p q = true ∧ legalTag msg = true
  | .entry q => cmd = .qRecv q.number ∧ p = receiver q
  | .depth ops =>
    (∃ mask, (cmd = .flagSet mask ∧ ops = namedOps .set mask)
        ∨ (cmd = .flagClear mask ∧ ops = namedOps .clr mask))
      ∧ ops ≠ [] ∧ ops.all (allowed p) = true
  | .ownFlags => cmd = .flagGet

/-- A current command is held on its own condition, or the sequencer runs it for CTL (10_state.md R20,
R24, R35). -/
def Current.Fits (p : PortId) (msg : Image) (seq : Seq) (cur : Current) : Prop :=
  match cur.hold with
  | some h => h.Fits p msg cur.cmd
  | none => p = .ctl ∧ ∃ todo, seq = .active cur.cmd todo

/-- What holds after every step: the shape of the state and the dispatcher invariants of 43_dispatch.md
R199(a) to (e), and the gate of a held Q_SENDC (R185). -/
structure State.Inv (s : State) : Prop where
  /-- 00_scope.md R8. -/
  legal : ConfigLegal s.cfg
  /-- 10_state.md R28. -/
  bufLength : ∀ p, (s.bank p).buf.length = 256
  /-- 10_state.md R29. -/
  msgLength : ∀ p, (s.bank p).msg.length = 128
  /-- 10_state.md R36. -/
  scrLength : s.scr.length = 256
  /-- The memory's canonical form. -/
  devForm : Memory.wf s.dev
  /-- 10_state.md R38: no byte outside the device. -/
  devRange : ∀ c ∈ s.dev, c.1 < s.cfg.devSize
  /-- R199(a). -/
  capacity : ∀ q, s.load q ≤ queueCapacity
  /-- R199(b). -/
  depth : ∀ p, (s.pendFlags p).length ≤ s.cfg.flagPendDepth
  /-- R199(c), landed entries. -/
  landed : ∀ q, ∀ m ∈ s.queue q, LegalImage m
  /-- R199(c), pending entries. -/
  pending : ∀ p q, ∀ m ∈ s.pendQueue p q, LegalImage m
  /-- R199(d). -/
  senders : ∀ p q, s.pendQueue p q ≠ [] → maySend p q = true
  /-- R199(e). -/
  flagOwner : ∀ p, ∀ op ∈ s.pendFlags p, allowed p op = true
  /-- 10_state.md R34, R35. -/
  sequencer : s.seq.Fits s.cfg (s.bank .ctl).current
  /-- 10_state.md R20, R24. -/
  current : ∀ p cur, (s.bank p).current = some cur → cur.Fits p (s.bank p).msg s.seq
  /-- 43_dispatch.md R185: no Q_SENDC is held while disconnected, once its port's own flag operations have
  landed. DEDUCED (assumption 11). -/
  gates : ∀ p i q, (s.bank p).current = some ⟨i, some (.gate q)⟩ →
    s.pendFlags p ≠ [] ∨ s.flag .connected = true

/-! ### Frames -/

/-- FLAGS, the queues and the pending buffers are unchanged. -/
structure SameDispatcher (s t : State) : Prop where
  flags : t.flags = s.flags
  queues : ∀ q, t.queue q = s.queue q
  pendQueues : ∀ p q, t.pendQueue p q = s.pendQueue p q
  pendFlags : ∀ p, t.pendFlags p = s.pendFlags p

/-- Every byte of the device reads as before. -/
def SameDevice (s t : State) : Prop := ∀ a, t.dev.read a = s.dev.read a

/-- SEQ, SCR, the device and the device bus are unchanged. -/
structure SameStore (s t : State) : Prop where
  seq : t.seq = s.seq
  scr : t.scr = s.scr
  device : SameDevice s t
  bus : t.bus = s.bus

/-- The banks of the other ports are unchanged. -/
def SameOthers (p : PortId) (s t : State) : Prop := ∀ r, r ≠ p → t.bank r = s.bank r

/-- The parameters and the model's own schedule are unchanged. -/
structure SameOutside (s t : State) : Prop where
  cfg : t.cfg = s.cfg
  issuer : t.issuer = s.issuer
  script : t.script = s.script
  tick : t.tick = s.tick

/-- Nothing but port p's bank has changed. -/
structure OnlyBank (p : PortId) (s t : State) : Prop where
  dispatcher : SameDispatcher s t
  store : SameStore s t
  others : SameOthers p s t
  outside : SameOutside s t

/-- Of port p's bank, nothing but STATUS and the current command has changed. -/
structure OnlyStatus (p : PortId) (s t : State) : Prop where
  res0 : (t.bank p).res0 = (s.bank p).res0
  crc : (t.bank p).crc = (s.bank p).crc
  buf : (t.bank p).buf = (s.bank p).buf
  msg : (t.bank p).msg = (s.bank p).msg
  host : (t.bank p).host = (s.bank p).host
  reply : (t.bank p).reply = (s.bank p).reply

/-- Port p has completed its command with this code (10_state.md R24). -/
def Completed (p : PortId) (r : ResultCode) (t : State) : Prop :=
  (t.bank p).rc = r ∧ t.busy p = false

/-- The device after bytes have been written at an address: those bytes, every other byte as before. -/
def DeviceWritten (addr : Nat) (data : List Byte) (s t : State) : Prop :=
  (∀ i (h : i < data.length), t.dev.read (addr + i) = data[i])
    ∧ ∀ a, a < addr ∨ addr + data.length ≤ a → t.dev.read a = s.dev.read a

/-! ### How a command ends its issuing step -/

/-- The command is turned away with an error: STATUS takes the code and nothing else changes
(60_exceptions.md R221). -/
def RejectedWith (p : PortId) (r : ResultCode) (s : State) (o : Result) : Prop :=
  ∃ t, o = .next t ∧ Completed p r t ∧ OnlyStatus p s t ∧ OnlyBank p s t

/-- The command is held: its port stays BUSY on this condition, RC keeps its value, nothing else
changes (10_state.md R24, R25). -/
def HeldOn (p : PortId) (i : Instr) (h : Hold) (s : State) (o : Result) : Prop :=
  ∃ t, o = .next t ∧ (t.bank p).current = some ⟨i, some h⟩ ∧ (t.bank p).rc = (s.bank p).rc
    ∧ OnlyStatus p s t ∧ OnlyBank p s t

/-- The accumulator and RES0 take a value and the command completes with OK; BUF, MSG and everything
outside the port's bank are unchanged (40_crc.md R126 to R128). -/
def AccumulatorSet (v : Half) (s : State) (o : Result) : Prop :=
  ∃ t, o = .next t ∧ Completed s.issuer .ok t
    ∧ (t.bank s.issuer).crc = v ∧ (t.bank s.issuer).res0 = v
    ∧ (t.bank s.issuer).buf = (s.bank s.issuer).buf ∧ (t.bank s.issuer).msg = (s.bank s.issuer).msg
    ∧ OnlyBank s.issuer s t

/-- A copy of the port's MSG is at the back of PEND[p][q]; the rest of the dispatcher, the port's
registers but STATUS, and everything else are unchanged (43_dispatch.md R183). -/
structure Posted (p : PortId) (q : QueueId) (s t : State) : Prop where
  posted : t.pendQueue p q = s.pendQueue p q ++ [(s.bank p).msg]
  otherPending : ∀ r x, r ≠ p ∨ x ≠ q → t.pendQueue r x = s.pendQueue r x
  pendFlags : ∀ r, t.pendFlags r = s.pendFlags r
  queues : ∀ x, t.queue x = s.queue x
  flags : t.flags = s.flags
  status : OnlyStatus p s t
  store : SameStore s t
  others : SameOthers p s t
  outside : SameOutside s t

/-- The front entry m of Q[q] is in the port's MSG and gone from the queue, RES0 holds its tag; the
rest is unchanged (43_dispatch.md R186). -/
structure Received (p : PortId) (q : QueueId) (m : Image) (rest : List Image) (s t : State) : Prop where
  msg : (t.bank p).msg = m
  res0 : (t.bank p).res0 = (tagOf m).setWidth 16
  queue : t.queue q = rest
  otherQueues : ∀ x, x ≠ q → t.queue x = s.queue x
  pendQueues : ∀ r x, t.pendQueue r x = s.pendQueue r x
  pendFlags : ∀ r, t.pendFlags r = s.pendFlags r
  flags : t.flags = s.flags
  crc : (t.bank p).crc = (s.bank p).crc
  buf : (t.bank p).buf = (s.bank p).buf
  store : SameStore s t
  others : SameOthers p s t
  outside : SameOutside s t

/-- The flag operations are at the back of PEND[p][FLAGS], in order; the rest is unchanged
(43_dispatch.md R188). -/
structure FlagsPosted (p : PortId) (ops : List FlagOp) (s t : State) : Prop where
  posted : t.pendFlags p = s.pendFlags p ++ ops
  otherPending : ∀ r, r ≠ p → t.pendFlags r = s.pendFlags r
  pendQueues : ∀ r x, t.pendQueue r x = s.pendQueue r x
  queues : ∀ x, t.queue x = s.queue x
  flags : t.flags = s.flags
  status : OnlyStatus p s t
  store : SameStore s t
  others : SameOthers p s t
  outside : SameOutside s t

/-- The sequencer has taken up CTL's command: CTL is BUSY with it, RC keeps its value, and no byte of
the device, no other register and nothing of the dispatcher has changed (41_store.md R140(b)). -/
structure Started (i : Instr) (s t : State) : Prop where
  current : (t.bank .ctl).current = some ⟨i, none⟩
  sequencer : ∃ todo, t.seq = .active i todo
  rc : (t.bank .ctl).rc = (s.bank .ctl).rc
  status : OnlyStatus .ctl s t
  device : SameDevice s t
  dispatcher : SameDispatcher s t
  others : SameOthers .ctl s t
  outside : SameOutside s t

/-- What a store or log command leaves alone whatever it does: the accumulator, MSG, the dispatcher and
the other ports (43_dispatch.md R201; 10_state.md R20, R27). -/
structure StoreFrame (s u : State) : Prop where
  crc : (u.bank .ctl).crc = (s.bank .ctl).crc
  msg : (u.bank .ctl).msg = (s.bank .ctl).msg
  dispatcher : SameDispatcher s u
  others : SameOthers .ctl s u
  outside : SameOutside s u

/-- BUF and RES0 are unchanged too (41_store.md R140(e)). -/
structure StoreFrameNoData (s u : State) : Prop extends StoreFrame s u where
  buf : (u.bank .ctl).buf = (s.bank .ctl).buf
  res0 : (u.bank .ctl).res0 = (s.bank .ctl).res0

/-! ### The tables of 60_exceptions.md R222 and R224 -/

/-- The operand and tag checks of R222 step 2, by command. -/
def argsLegal (i : Instr) (s : State) : Bool :=
  match i with
  | .crcSeal len | .crcCheck len => 3 ≤ len
  | .stWriteStatus addr len | .stReadStatus addr len => 3 ≤ len && addr.toNat + len ≤ s.cfg.devSize
  | .stRawRead addr len | .stRawWrite addr len => addr.toNat + len ≤ s.cfg.devSize
  | .logRead slot => slot < s.cfg.logCount
  | .qSend q | .qSendc q => q < 3 && (tagOf (s.bank s.issuer).msg).toNat ≤ 2
  | .qTryrecv q | .qRecv q => q < 3
  | .crcInit | .crcByte _ | .crcBuf _ | .logWrite | .logDelete | .flagSet _ | .flagClear _
  | .flagGet => true

/-- The permission table (R224). -/
def mayIssue (i : Instr) (p : PortId) : Bool :=
  match i with
  | .crcInit | .crcByte _ | .crcBuf _ | .crcSeal _ | .crcCheck _ | .flagGet => true
  | .stWriteStatus _ _ | .stReadStatus _ _ | .stRawRead _ _ | .stRawWrite _ _ | .logWrite
  | .logRead _ | .logDelete => p = .ctl
  | .qSend q | .qSendc q => if q < 2 then p = .ctl else p = .ui || p = .net
  | .qTryrecv q | .qRecv q => if q = 0 then p = .ui else if q = 1 then p = .net else p = .ctl
  | .flagSet mask => !mask.getLsbD 0 || p = .net
  | .flagClear mask => mask = 0 || p = .net

/-- The device after LOG_WRITE at slot address p (42_log.md R164): the sealed message in the slot, p + 64
in the pointer, every other byte as before. -/
structure LogWritten (p : Nat) (s u : State) : Prop where
  record : ∀ i (h : i < (sealRecord (text (s.bank .ctl).buf 64) 64).length),
    u.dev.read (p + i) = (sealRecord (text (s.bank .ctl).buf 64) 64)[i]
  pointer : (ofBigEndian (u.dev.read s.cfg.logAddrStorage)
    (u.dev.read (s.cfg.logAddrStorage + 1))).toNat = p + 64
  rest : ∀ a, (a < p ∨ p + 64 ≤ a) → a ≠ s.cfg.logAddrStorage → a ≠ s.cfg.logAddrStorage + 1 →
    u.dev.read a = s.dev.read a

/-! ### Runs of the sequencer alone -/

/-- Sequencer steps with the given draws, one after another. -/
def seqRun : List (Bool × BitVec 256) → State → Result
  | [], s => .next s
  | (ok, took) :: ds, s =>
    match seqStep ok took s with
    | .next t => seqRun ds t
    | .fault f => .fault f
    | .refused r => .refused r

/-- n steps whose transactions all succeed. -/
def allSucceed (n : Nat) : List (Bool × BitVec 256) := List.replicate n (true, 0)

/-- The most steps a command can take in the sequencer: LOG_WRITE that scans and wipes (42_log.md R172,
70_reset_and_hazards.md R263). -/
def sequencerBound (c : Config) : Nat := 1 + c.logCount + 2 * (c.logCount + 1) + 4

/-! ### Runs of the block, and fairness (assumption 22) -/

/-- An unending run under an unending schedule: state n + 1 is what event n makes of state n, as `step`
runs it. -/
def Run (e : Nat → Event) (σ : Nat → State) : Prop :=
  ∀ n, runEvent (e n) (advance (σ n)) = .next (σ (n + 1))

/-- PEND[p][r] is non-empty. -/
def State.hasPending (s : State) (p : PortId) : Resource → Prop
  | .queue q => s.pendQueue p q ≠ []
  | .flags => s.pendFlags p ≠ []

/-- The lander is weakly fair for every buffer (20_memory.md R83). -/
def LanderFair (e : Nat → Event) (σ : Nat → State) : Prop :=
  ∀ p r n, (∀ m, n ≤ m → (σ m).hasPending p r) → ∃ m, n ≤ m ∧ e m = .land p r

/-- The sequencer is weakly fair (20_memory.md R83). -/
def SequencerFair (e : Nat → Event) (σ : Nat → State) : Prop :=
  ∀ n, (∀ m, n ≤ m → (σ m).seq ≠ .idle) → ∃ m, n ≤ m ∧ ∃ ok took, e m = .sequencer ok took

/-- Port p's held command would go on in a step of the port. -/
def State.canGoOn (s : State) (p : PortId) : Prop :=
  ∃ i h, (s.bank p).current = some ⟨i, some h⟩ ∧ h.lifted p s = true

/-- The ports are weakly fair (92_eei_decisions.md D41: "weakly fair per agent"): a port whose held command
could go on from some moment on takes a step. -/
def PortFair (e : Nat → Event) (σ : Nat → State) : Prop :=
  ∀ p n, (∀ m, n ≤ m → (σ m).canGoOn p) → ∃ m, n ≤ m ∧ e m = .port p

/-- No power is lost. -/
def Powered (e : Nat → Event) : Prop := ∀ n took boot, e n ≠ .powerLoss took boot

end Sys2Proof.Machine
end

