-- ==== Sys2Proof/Certificates/Slice0/Obligations.lean ====
section
/-! DEFINITION. The statements for the provers: what the numbered rules of spec/ say the block does. -/

open Sys2Proof Sys2Proof.Machine

/-! ### Encoding (30_encoding.md) -/

/-- R101, R108, R111: decoding the word of a well-formed command gives the command back. -/
def Obligations.DecodeOfEncode : Prop :=
  ∀ i : Instr, i.wellFormed = true → decode (encode i) = .instr i

/-- R108 to R111: a word decodes exactly when it matches a row of the opcode table, and then to a
well-formed command of a row it matches, whose word it is: no bit of it is dropped. -/
def Obligations.DecodableIffTableRow : Prop :=
  ∀ w : Word,
    ((∃ i, decode w = .instr i) ↔ ∃ i : Instr, w &&& i.row.mask = i.row.pattern)
      ∧ ∀ i, decode w = .instr i →
          w &&& i.row.mask = i.row.pattern ∧ i.wellFormed = true ∧ encode i = w

/-- R113's examples, and one word of every format, read bit by bit from R101 and R108. -/
def Obligations.SampleWordsDecode : Prop :=
  decode 0x01000000 = .instr .crcInit ∧ decode 0x02000041 = .instr (.crcByte 0x41)
    ∧ decode 0x03090000 = .instr (.crcBuf 9) ∧ decode 0x10080010 = .instr (.stWriteStatus 0x0010 8)
    ∧ decode 0x21000002 = .instr (.logRead 2) ∧ decode 0x30000001 = .instr (.qSend 1)
    ∧ decode 0x38000002 = .instr (.flagSet 2)
    ∧ decode 0x00000000 = .illegal .unassignedOpc ∧ decode 0x01000001 = .illegal .mustBeZeroBitSet

/-- 10_state.md R22 to R24: when the schedule names the host of a port that is not BUSY and its next
access is a 32-bit write of a command word to CMD, the step is the command's issuing step at that port;
around it the step takes the event off the schedule and the access off the host's list (the schedule and
the list are the model's own, assumption 7 and assumption 8). -/
def Obligations.StepRunsDecodedCommand : Prop :=
  ∀ (s : State) (p : PortId) (w : Word) (i : Instr) (es : List Event) (rest : List Access),
    ConfigLegal s.cfg → s.script = .host p :: es → (s.bank p).host = cmdWrite s.cfg p w :: rest →
    s.busy p = false → decode w = .instr i →
      step s = exec i
        { (s.updBank p fun b => { b with host := rest, reply := .written }) with
          issuer := p, script := es, tick := s.tick + 1 }

/-- R109, R110: a word that decodes to no command completes with ERR_OPC and changes nothing but
STATUS, at whatever port it is written (the host's access and its answer apart). -/
def Obligations.IllegalWordRaisesErrOpc : Prop :=
  ∀ (s : State) (p : PortId) (w : Word) (why : Illegal) (es : List Event) (rest : List Access),
    ConfigLegal s.cfg → s.script = .host p :: es → (s.bank p).host = cmdWrite s.cfg p w :: rest →
    s.busy p = false → decode w = .illegal why →
      ∃ t, step s = .next t ∧ Completed p .errOpc t
        ∧ (t.bank p).res0 = (s.bank p).res0 ∧ (t.bank p).crc = (s.bank p).crc
        ∧ (t.bank p).buf = (s.bank p).buf ∧ (t.bank p).msg = (s.bank p).msg
        ∧ SameDispatcher s t ∧ SameStore s t ∧ SameOthers p s t

/-! ### The CRC and the records (40_crc.md) -/

/-- R121: the nibble-based form equals the bitwise definition of R120 for every pair (c, b). -/
def Obligations.NibbleStepIsBitwiseStep : Prop :=
  ∀ (c : Half) (b : Byte), crcStep c b = crcStepBitwise c b

/-- R122: the empty run, chaining, and the reference values. -/
def Obligations.CrcRunChains : Prop :=
  (∀ c : Half, crcRun c [] = c)
    ∧ (∀ (c : Half) (s t : List Byte), crcRun c (s ++ t) = crcRun (crcRun c s) t)
    ∧ crcRun 0xFFFF [0x00] = 0xE1F0 ∧ crcRun 0xFFFF [0x41] = 0xB915
    ∧ crcRun 0xFFFF [0x31, 0x32, 0x33, 0x34, 0x35, 0x36, 0x37, 0x38, 0x39] = 0x29B1

/-- R131: a sealed text of at most m-3 bytes without a 0x00 validates with its length, and the image
begins with it; the image has m bytes (R124). -/
def Obligations.SealedRecordValidates : Prop :=
  ∀ (t : List Byte) (m : Nat), (∀ b ∈ t, b ≠ 0) → t.length + 3 ≤ m →
    (sealRecord t m).length = m ∧ validate (sealRecord t m) m = .ok t.length
      ∧ (sealRecord t m).take t.length = t

/-- R133: the CRC of a sequence followed by its CRC, high byte first, is zero; so is that of a valid
record up to its two CRC bytes. -/
def Obligations.RecordResidueIsZero : Prop :=
  (∀ s : List Byte,
    crcRun 0xFFFF (s ++ [hiByte (crcRun 0xFFFF s), loByte (crcRun 0xFFFF s)]) = 0x0000)
    ∧ ∀ (r : List Byte) (m t : Nat), validate r m = .ok t → crcRun 0xFFFF (r.take (t + 3)) = 0x0000

/-- R132: of a sealed record, changing one payload byte to another non-zero byte, or one CRC byte, is
detected; changing a payload byte to 0x00 can go undetected, as the rule's example shows. -/
def Obligations.SingleByteCorruptionDetected : Prop :=
  (∀ (t : List Byte) (m j : Nat) (b : Byte), (∀ x ∈ t, x ≠ 0) → t.length + 3 ≤ m →
    (sealRecord t m)[j]? ≠ some b →
    ((j < t.length ∧ b ≠ 0) ∨ j = t.length + 1 ∨ j = t.length + 2) →
      validate ((sealRecord t m).set j b) m = .corrupt)
    ∧ sealRecord [0x41, 0x4B, 0x58, 0x37, 0x37] 8 = [0x41, 0x4B, 0x58, 0x37, 0x37, 0x00, 0xF0, 0xF8]
    ∧ validate [0x41, 0x4B, 0x00, 0x37, 0x37, 0x00, 0xF0, 0xF8] 8 = .ok 2

/-- R126 to R128: the three accumulator commands, from every port and every state. -/
def Obligations.AccumulatorCommandsResult : Prop :=
  ∀ s : State,
    AccumulatorSet 0xFFFF s (exec .crcInit s)
      ∧ (∀ b : Byte, AccumulatorSet (crcStep (s.bank s.issuer).crc b) s (exec (.crcByte b) s))
      ∧ ∀ len : Nat, AccumulatorSet
          (crcRun (s.bank s.issuer).crc ((s.bank s.issuer).buf.take len)) s (exec (.crcBuf len) s)

/-- 10_state.md R23, R27: a step changes a port's accumulator only when the port is not BUSY and its host
issues CRC_INIT, CRC_BYTE or CRC_BUF, by a 32-bit write to CMD, or when power is lost. -/
def Obligations.AccumulatorWrittenOnlyByCrcCommands : Prop :=
  ∀ (e : Event) (s t : State) (p : PortId), runEvent e s = .next t →
    (t.bank p).crc ≠ (s.bank p).crc →
      (∃ took boot, e = .powerLoss took boot)
        ∨ (e = .host p ∧ s.busy p = false
            ∧ ∃ w i, (s.bank p).host.head? = some (cmdWrite s.cfg p w) ∧ decode w = .instr i
              ∧ (i = .crcInit ∨ (∃ b, i = .crcByte b) ∨ ∃ n, i = .crcBuf n))

/-- R129: CRC_SEAL puts the sealed text into the first m bytes of BUF and its length into RES0. -/
def Obligations.CrcSealResult : Prop :=
  ∀ (s : State) (m : Nat), 3 ≤ m → m ≤ 255 → (s.bank s.issuer).buf.length = 256 →
    ∃ t, exec (.crcSeal m) s = .next t ∧ Completed s.issuer .ok t
      ∧ (t.bank s.issuer).buf
          = sealRecord (text (s.bank s.issuer).buf m) m ++ (s.bank s.issuer).buf.drop m
      ∧ (t.bank s.issuer).res0 = BitVec.ofNat 16 (text (s.bank s.issuer).buf m).length
      ∧ (t.bank s.issuer).crc = (s.bank s.issuer).crc ∧ (t.bank s.issuer).msg = (s.bank s.issuer).msg
      ∧ OnlyBank s.issuer s t

/-- R130: CRC_CHECK answers OK with the text length in RES0, or CORRUPT with RES0 unchanged; BUF, the
accumulator and everything outside the bank are unchanged in every case. -/
def Obligations.CrcCheckResult : Prop :=
  ∀ (s : State) (m : Nat), 3 ≤ m →
    ∃ t, exec (.crcCheck m) s = .next t
      ∧ (∀ k, validate ((s.bank s.issuer).buf.take m) m = .ok k →
          Completed s.issuer .ok t ∧ (t.bank s.issuer).res0 = BitVec.ofNat 16 k)
      ∧ (validate ((s.bank s.issuer).buf.take m) m = .corrupt →
          Completed s.issuer .corrupt t ∧ (t.bank s.issuer).res0 = (s.bank s.issuer).res0)
      ∧ (t.bank s.issuer).buf = (s.bank s.issuer).buf ∧ (t.bank s.issuer).crc = (s.bank s.issuer).crc
      ∧ (t.bank s.issuer).msg = (s.bank s.issuer).msg ∧ OnlyBank s.issuer s t

/-! ### Status records and raw access (41_store.md) -/

/-- R141: ST_WRITE_STATUS starts the sequencer; a successful MemWrite and its settle then leave the
sealed text of BUF at addr, its length in RES0, and every other byte and register as before. -/
def Obligations.StatusWriteCompletes : Prop :=
  ∀ (s : State) (addr : Half) (m : Nat), s.issuer = .ctl → 3 ≤ m → m ≤ 255 →
    addr.toNat + m ≤ s.cfg.devSize → Memory.wf s.dev →
    ∃ t u, exec (.stWriteStatus addr m) s = .next t ∧ Started (.stWriteStatus addr m) s t
      ∧ seqRun (allSucceed 2) t = .next u ∧ Completed .ctl .ok u ∧ u.seq = .idle
      ∧ DeviceWritten addr.toNat (sealRecord (text (s.bank .ctl).buf m) m) s u
      ∧ (u.bank .ctl).res0 = BitVec.ofNat 16 (text (s.bank .ctl).buf m).length
      ∧ (u.bank .ctl).buf = (s.bank .ctl).buf ∧ StoreFrame s u

/-- R142: ST_READ_STATUS starts the sequencer; a successful MemRead then answers OK with the text and
its NUL in BUF and its length in RES0, or CORRUPT with BUF and RES0 unchanged. -/
def Obligations.StatusReadCompletes : Prop :=
  ∀ (s : State) (addr : Half) (m : Nat), s.issuer = .ctl → 3 ≤ m → m ≤ 255 →
    addr.toNat + m ≤ s.cfg.devSize → s.scr.length = 256 → (s.bank .ctl).buf.length = 256 →
    ∃ t u, exec (.stReadStatus addr m) s = .next t ∧ Started (.stReadStatus addr m) s t
      ∧ seqRun (allSucceed 1) t = .next u ∧ u.seq = .idle ∧ SameDevice s u ∧ StoreFrame s u
      ∧ (∀ k, validate (s.dev.readBytes addr.toNat m) m = .ok k →
          Completed .ctl .ok u ∧ (u.bank .ctl).res0 = BitVec.ofNat 16 k
            ∧ (u.bank .ctl).buf = (s.dev.readBytes addr.toNat m).take (k + 1)
                ++ (s.bank .ctl).buf.drop (k + 1))
      ∧ (validate (s.dev.readBytes addr.toNat m) m = .corrupt →
          Completed .ctl .corrupt u ∧ StoreFrameNoData s u)

/-- R143: ST_RAW_READ of n bytes: n = 0 completes at once without a transaction; otherwise a
successful MemRead puts the bytes into BUF and n into RES0. -/
def Obligations.RawReadCompletes : Prop :=
  ∀ (s : State) (addr : Half) (n : Nat), s.issuer = .ctl → n ≤ 255 →
    addr.toNat + n ≤ s.cfg.devSize → s.scr.length = 256 → (s.bank .ctl).buf.length = 256 →
    (n = 0 → ∃ t, exec (.stRawRead addr n) s = .next t ∧ Completed .ctl .ok t
        ∧ (t.bank .ctl).res0 = 0 ∧ (t.bank .ctl).buf = (s.bank .ctl).buf ∧ SameStore s t
        ∧ StoreFrame s t)
      ∧ (n ≠ 0 → ∃ t u, exec (.stRawRead addr n) s = .next t ∧ Started (.stRawRead addr n) s t
        ∧ seqRun (allSucceed 1) t = .next u ∧ Completed .ctl .ok u ∧ u.seq = .idle
        ∧ (u.bank .ctl).buf = s.dev.readBytes addr.toNat n ++ (s.bank .ctl).buf.drop n
        ∧ (u.bank .ctl).res0 = BitVec.ofNat 16 n ∧ SameDevice s u ∧ StoreFrame s u)

/-- R144: ST_RAW_WRITE of n bytes: n = 0 completes at once without a transaction; otherwise a
successful MemWrite and its settle leave BUF[0..n-1] at addr and n in RES0. -/
def Obligations.RawWriteCompletes : Prop :=
  ∀ (s : State) (addr : Half) (n : Nat), s.issuer = .ctl → n ≤ 255 →
    addr.toNat + n ≤ s.cfg.devSize → Memory.wf s.dev → (s.bank .ctl).buf.length = 256 →
    (n = 0 → ∃ t, exec (.stRawWrite addr n) s = .next t ∧ Completed .ctl .ok t
        ∧ (t.bank .ctl).res0 = 0 ∧ (t.bank .ctl).buf = (s.bank .ctl).buf ∧ SameStore s t
        ∧ StoreFrame s t)
      ∧ (n ≠ 0 → ∃ t u, exec (.stRawWrite addr n) s = .next t ∧ Started (.stRawWrite addr n) s t
        ∧ seqRun (allSucceed 2) t = .next u ∧ Completed .ctl .ok u ∧ u.seq = .idle
        ∧ DeviceWritten addr.toNat ((s.bank .ctl).buf.take n) s u
        ∧ (u.bank .ctl).res0 = BitVec.ofNat 16 n
        ∧ (u.bank .ctl).buf = (s.bank .ctl).buf ∧ StoreFrame s u)

/-- R145: what ST_WRITE_STATUS wrote, a later ST_READ_STATUS of the same record reads back, if nothing
wrote its bytes in between. -/
def Obligations.StatusRecordRoundTrip : Prop :=
  ∀ (s t u v : State) (addr : Half) (m : Nat), s.issuer = .ctl → 3 ≤ m → m ≤ 255 →
    addr.toNat + m ≤ s.cfg.devSize → Memory.wf s.dev →
    exec (.stWriteStatus addr m) s = .next t → seqRun (allSucceed 2) t = .next u →
    v.issuer = .ctl → v.cfg = s.cfg → v.scr.length = 256 → (v.bank .ctl).buf.length = 256 →
    (∀ i, i < m → v.dev.read (addr.toNat + i) = u.dev.read (addr.toNat + i)) →
    ∃ x y, exec (.stReadStatus addr m) v = .next x ∧ seqRun (allSucceed 1) x = .next y
      ∧ Completed .ctl .ok y
      ∧ (y.bank .ctl).res0 = BitVec.ofNat 16 (text (s.bank .ctl).buf m).length
      ∧ (y.bank .ctl).buf.take ((text (s.bank .ctl).buf m).length + 1)
          = text (s.bank .ctl).buf m ++ [0]

/-- 20_memory.md R64, 41_store.md R140(c): a failed MemWrite leaves each byte of its range old or new,
as the draw says, and no other byte changed; after its settle the command ends with BUS, BUF and RES0
unchanged. -/
def Obligations.FailedWriteEndsInBus : Prop :=
  ∀ (s : State) (cmd : Instr) (addr : Nat) (data : List Byte) (k : AfterWrite)
    (took took' : BitVec 256) (ok' : Bool),
    s.seq = .active cmd (.memWrite addr data k) → addr + data.length ≤ s.cfg.devSize →
    Memory.wf s.dev →
    ∃ t u, seqStep false took s = .next t ∧ t.busy .ctl = s.busy .ctl
      ∧ seqStep ok' took' t = .next u ∧ Completed .ctl .bus u ∧ u.seq = .idle
      ∧ (∀ i (h : i < data.length), u.dev.read (addr + i)
          = if took.getLsbD i then data[i] else s.dev.read (addr + i))
      ∧ (∀ a, a < addr ∨ addr + data.length ≤ a → u.dev.read a = s.dev.read a)
      ∧ StoreFrameNoData s u

/-- 20_memory.md R65, 41_store.md R140(c), (e): a failed MemRead ends the command with BUS at once;
DEV, BUF and RES0 are unchanged. -/
def Obligations.FailedReadEndsInBus : Prop :=
  ∀ (s : State) (cmd : Instr) (addr n : Nat) (k : AfterRead) (took : BitVec 256),
    s.seq = .active cmd (.memRead addr n k) → addr + n ≤ s.cfg.devSize →
    ∃ u, seqStep false took s = .next u ∧ Completed .ctl .bus u ∧ u.seq = .idle ∧ SameDevice s u
      ∧ StoreFrameNoData s u

/-- 20_memory.md R76: after every MemWrite, succeeded or failed, the sequencer's next step is the
settle of that write, and the command has not completed. -/
def Obligations.EveryWriteIsSettled : Prop :=
  ∀ (s t : State) (cmd : Instr) (addr : Nat) (data : List Byte) (k : AfterWrite) (ok : Bool)
    (took : BitVec 256),
    s.seq = .active cmd (.memWrite addr data k) → seqStep ok took s = .next t →
      (∃ w, t.seq = .active cmd (.settle w k) ∧ w.addr = addr ∧ w.new = data ∧ w.ok = ok)
        ∧ t.bank .ctl = s.bank .ctl

/-- 20_memory.md R62: a transaction sends the two address bytes, high byte first, and a write then its
data bytes. -/
def Obligations.TransactionsSendAddressHighByteFirst : Prop :=
  ∀ (s t : State) (cmd : Instr) (hi lo : Byte) (ok : Bool) (took : BitVec 256),
    seqStep ok took s = .next t →
      (∀ data k, s.seq = .active cmd (.memWrite (hi.toNat * 256 + lo.toNat) data k) →
          t.bus = some (.write (hi :: lo :: data) ok))
        ∧ ∀ n k, s.seq = .active cmd (.memRead (hi.toNat * 256 + lo.toNat) n k) →
          t.bus = some (.read [hi, lo] n ok)

/-! ### The log ring (42_log.md) -/

/-- R161, 20_memory.md R72, 00_scope.md R8: a pointer is valid when it is between MIN_LOG_ADDR and
MAX_LOG_ADDRESS and on a slot boundary; so the valid pointers are exactly the slot addresses; neither the
empty sentinel nor the past-the-end pointer is one, and these two differ. -/
def Obligations.ValidPointersAreSlots : Prop :=
  ∀ c : Config, ConfigLegal c →
    (∀ p, validPointer c p = true ↔ c.minLogAddr ≤ p ∧ p ≤ c.minLogAddr + 64 * (c.logCount - 1)
        ∧ (p - c.minLogAddr) % 64 = 0)
      ∧ (∀ p, validPointer c p = true ↔ ∃ i, i < c.logCount ∧ p = c.minLogAddr + 64 * i)
      ∧ validPointer c pointerEmpty = false ∧ validPointer c (c.minLogAddr + 64 * c.logCount) = false
      ∧ c.minLogAddr + 64 * c.logCount ≠ pointerEmpty

/-- R164: with a valid pointer, LOG_WRITE writes the sealed message at the pointer and advances it by
64; RES0 holds the slot, and every other byte of the device is unchanged. -/
def Obligations.LogWriteAtValidPointer : Prop :=
  ∀ (s : State) (p : Nat), s.issuer = .ctl → ConfigLegal s.cfg → Memory.wf s.dev →
    s.scr.length = 256 →
    p = (ofBigEndian (s.dev.read s.cfg.logAddrStorage) (s.dev.read (s.cfg.logAddrStorage + 1))).toNat →
    validPointer s.cfg p = true →
    ∃ t u, exec .logWrite s = .next t ∧ Started .logWrite s t
      ∧ seqRun (allSucceed 5) t = .next u ∧ Completed .ctl .ok u ∧ u.seq = .idle
      ∧ LogWritten p s u
      ∧ (u.bank .ctl).res0 = BitVec.ofNat 16 ((p - s.cfg.minLogAddr) / 64)
      ∧ (u.bank .ctl).buf = (s.bank .ctl).buf ∧ StoreFrame s u

/-- R162, R164: with an invalid pointer, LOG_WRITE scans from slot 0 and writes at the first slot whose
first byte is 0x00; RES0 holds the slot with bit 8 set. -/
def Obligations.LogWriteAtScannedSlot : Prop :=
  ∀ (s : State) (i : Nat), s.issuer = .ctl → ConfigLegal s.cfg → Memory.wf s.dev →
    s.scr.length = 256 →
    validPointer s.cfg (ofBigEndian (s.dev.read s.cfg.logAddrStorage)
      (s.dev.read (s.cfg.logAddrStorage + 1))).toNat = false →
    i < s.cfg.logCount → s.dev.read (slotAddr s.cfg i) = 0 →
    (∀ j, j < i → s.dev.read (slotAddr s.cfg j) ≠ 0) →
    ∃ t u, exec .logWrite s = .next t ∧ Started .logWrite s t
      ∧ seqRun (allSucceed (1 + (i + 1) + 4)) t = .next u ∧ Completed .ctl .ok u ∧ u.seq = .idle
      ∧ LogWritten (slotAddr s.cfg i) s u
      ∧ (u.bank .ctl).res0 = BitVec.ofNat 16 (0x100 + i)
      ∧ (u.bank .ctl).buf = (s.bank .ctl).buf ∧ StoreFrame s u

/-- R162 to R164: with an invalid pointer and no empty slot, LOG_WRITE wipes the whole ring (the first
byte of every slot), writes at slot 0 and leaves the pointer at slot 1; RES0 is 0x0300. -/
def Obligations.LogWriteWipesFullRing : Prop :=
  ∀ s : State, s.issuer = .ctl → ConfigLegal s.cfg → Memory.wf s.dev → s.scr.length = 256 →
    validPointer s.cfg (ofBigEndian (s.dev.read s.cfg.logAddrStorage)
      (s.dev.read (s.cfg.logAddrStorage + 1))).toNat = false →
    (∀ j, j < s.cfg.logCount → s.dev.read (slotAddr s.cfg j) ≠ 0) →
    ∃ t u, exec .logWrite s = .next t ∧ Started .logWrite s t
      ∧ seqRun (allSucceed (1 + s.cfg.logCount + 2 * (s.cfg.logCount + 1) + 4)) t = .next u
      ∧ Completed .ctl .ok u ∧ u.seq = .idle
      ∧ (∀ i (h : i < (sealRecord (text (s.bank .ctl).buf 64) 64).length),
          u.dev.read (s.cfg.minLogAddr + i) = (sealRecord (text (s.bank .ctl).buf 64) 64)[i])
      ∧ (∀ j, 0 < j → j < s.cfg.logCount → u.dev.read (slotAddr s.cfg j) = 0)
      ∧ (ofBigEndian (u.dev.read s.cfg.logAddrStorage)
          (u.dev.read (s.cfg.logAddrStorage + 1))).toNat = slotAddr s.cfg 1
      ∧ (∀ a, (a < s.cfg.minLogAddr ∨ s.cfg.minLogAddr + 64 ≤ a) →
          (∀ j, j < s.cfg.logCount → a ≠ slotAddr s.cfg j) → a ≠ s.cfg.logAddrStorage →
          a ≠ s.cfg.logAddrStorage + 1 → u.dev.read a = s.dev.read a)
      ∧ (u.bank .ctl).res0 = 0x0300
      ∧ (u.bank .ctl).buf = (s.bank .ctl).buf ∧ StoreFrame s u

/-- R163, R166: LOG_DELETE zeroes the first byte of every slot and resets the pointer to MIN_LOG_ADDR,
and writes nothing else; RES0 is unchanged. -/
def Obligations.LogDeleteWipesRing : Prop :=
  ∀ s : State, s.issuer = .ctl → ConfigLegal s.cfg → Memory.wf s.dev →
    ∃ t u, exec .logDelete s = .next t ∧ Started .logDelete s t
      ∧ seqRun (allSucceed (2 * (s.cfg.logCount + 1))) t = .next u
      ∧ Completed .ctl .ok u ∧ u.seq = .idle
      ∧ (∀ j, j < s.cfg.logCount → u.dev.read (slotAddr s.cfg j) = 0)
      ∧ (ofBigEndian (u.dev.read s.cfg.logAddrStorage)
          (u.dev.read (s.cfg.logAddrStorage + 1))).toNat = s.cfg.minLogAddr
      ∧ (∀ a, (∀ j, j < s.cfg.logCount → a ≠ slotAddr s.cfg j) → a ≠ s.cfg.logAddrStorage →
          a ≠ s.cfg.logAddrStorage + 1 → u.dev.read a = s.dev.read a)
      ∧ StoreFrameNoData s u

/-- R165: LOG_READ of a slot reads its 64 bytes and answers EMPTY when the first is 0x00, else OK with
the text in BUF or CORRUPT; it never writes DEV. -/
def Obligations.LogReadCompletes : Prop :=
  ∀ (s : State) (i : Nat), s.issuer = .ctl → ConfigLegal s.cfg → i < s.cfg.logCount →
    s.scr.length = 256 → (s.bank .ctl).buf.length = 256 →
    ∃ t u, exec (.logRead i) s = .next t ∧ Started (.logRead i) s t
      ∧ seqRun (allSucceed 1) t = .next u ∧ u.seq = .idle ∧ SameDevice s u ∧ StoreFrame s u
      ∧ (s.dev.read (slotAddr s.cfg i) = 0 → Completed .ctl .empty u ∧ StoreFrameNoData s u)
      ∧ (s.dev.read (slotAddr s.cfg i) ≠ 0 →
          (∀ k, validate (s.dev.readBytes (slotAddr s.cfg i) 64) 64 = .ok k →
            Completed .ctl .ok u ∧ (u.bank .ctl).res0 = BitVec.ofNat 16 k
              ∧ (u.bank .ctl).buf = (s.dev.readBytes (slotAddr s.cfg i) 64).take (k + 1)
                  ++ (s.bank .ctl).buf.drop (k + 1))
          ∧ (validate (s.dev.readBytes (slotAddr s.cfg i) 64) 64 = .corrupt →
            Completed .ctl .corrupt u ∧ StoreFrameNoData s u))

/-- R169, R170: whatever draws the transactions get, a sequencer step of a log command changes no byte
outside the ring and the pointer. -/
def Obligations.LogCommandsStayInRing : Prop :=
  ∀ (s t : State) (cmd : Instr) (todo : SeqStep) (ok : Bool) (took : BitVec 256) (a : Nat),
    s.Inv → s.seq = .active cmd todo → (cmd = .logWrite ∨ cmd = .logDelete ∨ ∃ i, cmd = .logRead i) →
    seqStep ok took s = .next t → (a < s.cfg.minLogAddr ∨ logEnd s.cfg ≤ a) →
    a ≠ s.cfg.logAddrStorage → a ≠ s.cfg.logAddrStorage + 1 → t.dev.read a = s.dev.read a

/-- 41_store.md R140(f), 42_log.md R172: whatever the draws, a store or log command has ended after
3·LOG_COUNT + 7 sequencer steps: its only waits are its transactions and settles. -/
def Obligations.SequencerEndsWithinBound : Prop :=
  ∀ (s : State) (draws : List (Bool × BitVec 256)), s.Inv →
    draws.length = 3 * s.cfg.logCount + 7 → ∃ u, seqRun draws s = .next u ∧ u.seq = .idle

/-! ### Queues (43_dispatch.md) -/

/-- R183, R184: Q_SEND by a port with the role and a legal tag posts a copy of MSG when there is
credit, and is held when there is none. -/
def Obligations.QSendPostsOrHolds : Prop :=
  ∀ (s : State) (k : Nat) (q : QueueId), queueOf k = some q →
    (tagOf (s.bank s.issuer).msg).toNat ≤ 2 → maySend s.issuer q = true →
    (s.load q < 10 →
      ∃ t, exec (.qSend k) s = .next t ∧ Completed s.issuer .ok t ∧ Posted s.issuer q s t)
    ∧ (10 ≤ s.load q → HeldOn s.issuer (.qSend k) (.credit q) s (exec (.qSend k) s))

/-- R185, R193: Q_SENDC waits for the port's own flag operations, is dropped while CONNECTED is 0,
posts when connected with credit, and is held when connected without credit. -/
def Obligations.QSendcGates : Prop :=
  ∀ (s : State) (k : Nat) (q : QueueId), queueOf k = some q →
    (tagOf (s.bank s.issuer).msg).toNat ≤ 2 → maySend s.issuer q = true →
    (s.pendFlags s.issuer = [] → s.flags.getLsbD 0 = false →
      ∃ t, exec (.qSendc k) s = .next t ∧ Completed s.issuer .dropped t
        ∧ OnlyStatus s.issuer s t ∧ OnlyBank s.issuer s t)
    ∧ (s.pendFlags s.issuer = [] → s.flags.getLsbD 0 = true → s.load q < 10 →
      ∃ t, exec (.qSendc k) s = .next t ∧ Completed s.issuer .ok t ∧ Posted s.issuer q s t)
    ∧ ((s.pendFlags s.issuer ≠ [] ∨ (s.flags.getLsbD 0 = true ∧ 10 ≤ s.load q)) →
      HeldOn s.issuer (.qSendc k) (.gate q) s (exec (.qSendc k) s))

/-- R186: Q_TRYRECV by the queue's receiver takes the front landed entry, or answers EMPTY and changes
nothing but STATUS; it never holds. -/
def Obligations.QTryrecvTakesFrontOrEmpty : Prop :=
  ∀ (s : State) (k : Nat) (q : QueueId), queueOf k = some q → s.issuer = receiver q →
    (s.queue q = [] → ∃ t, exec (.qTryrecv k) s = .next t ∧ Completed s.issuer .empty t
      ∧ OnlyStatus s.issuer s t ∧ OnlyBank s.issuer s t)
    ∧ ∀ m rest, s.queue q = m :: rest → m.length = (s.bank s.issuer).msg.length →
      ∃ t, exec (.qTryrecv k) s = .next t ∧ Completed s.issuer .ok t
        ∧ Received s.issuer q m rest s t

/-- R187: Q_RECV by the queue's receiver takes the front landed entry, or is held while there is none,
pending entries or not. -/
def Obligations.QRecvTakesFrontOrHolds : Prop :=
  ∀ (s : State) (k : Nat) (q : QueueId), queueOf k = some q → s.issuer = receiver q →
    (s.queue q = [] → HeldOn s.issuer (.qRecv k) (.entry q) s (exec (.qRecv k) s))
    ∧ ∀ m rest, s.queue q = m :: rest → m.length = (s.bank s.issuer).msg.length →
      ∃ t, exec (.qRecv k) s = .next t ∧ Completed s.issuer .ok t
        ∧ Received s.issuer q m rest s t

/-- The model's reading of `hold until` (00_scope.md R12; 43_dispatch.md R183 to R192): a port step of a
held command does what issuing the command now would do: it tests the condition again, acts in the same
step if it is true (assumption 11) and changes nothing if it is not (assumption 10). -/
def Obligations.RetestIsIssuingAgain : Prop :=
  ∀ (s : State) (p : PortId) (i : Instr) (h : Hold), (s.bank p).current = some ⟨i, some h⟩ →
    h.Fits p (s.bank p).msg i →
    exec i { (s.updBank p fun b => { b with current := none }) with issuer := p }
      = .next { retest p s with issuer := p }

/-! ### Flags (43_dispatch.md) -/

/-- R188 to R190: FLAG_SET and FLAG_CLEAR post one operation for each named bit, bit 0 first, all in
one step, when they fit the pending buffer, and are held when they do not. -/
def Obligations.FlagOperationsPostTogether : Prop :=
  ∀ (s : State) (mask : BitVec 2) (mk : FlagBit → FlagOp) (i : Instr) (ops : List FlagOp),
    ((i = .flagSet mask ∧ mk = .set) ∨ (i = .flagClear mask ∧ mk = .clr)) →
    ((mask = 1 ∧ ops = [mk .connected]) ∨ (mask = 2 ∧ ops = [mk .reconnect])
      ∨ (mask = 3 ∧ ops = [mk .connected, mk .reconnect])) →
    mayIssue i s.issuer = true →
    ((s.pendFlags s.issuer).length + ops.length ≤ s.cfg.flagPendDepth →
      ∃ t, exec i s = .next t ∧ Completed s.issuer .ok t ∧ FlagsPosted s.issuer ops s t)
    ∧ (s.cfg.flagPendDepth < (s.pendFlags s.issuer).length + ops.length →
      HeldOn s.issuer i (.depth ops) s (exec i s))

/-- R191: mask 0 completes with OK in the issuing step from every port, posts nothing and waits for
nothing. -/
def Obligations.MaskZeroCompletesAtOnce : Prop :=
  ∀ (s : State) (i : Instr), i = .flagSet 0 ∨ i = .flagClear 0 →
    ∃ t, exec i s = .next t ∧ Completed s.issuer .ok t ∧ OnlyStatus s.issuer s t
      ∧ OnlyBank s.issuer s t

/-- R192, R193: FLAG_GET samples both landed bits into RES0 once the port's own flag operations have
landed, and is held until then; another port's pending operations do not hold it. -/
def Obligations.FlagGetSamplesOrHolds : Prop :=
  ∀ s : State,
    (s.pendFlags s.issuer = [] → ∃ t, exec .flagGet s = .next t ∧ Completed s.issuer .ok t
      ∧ (t.bank s.issuer).res0.toNat = s.flags.toNat
      ∧ (t.bank s.issuer).crc = (s.bank s.issuer).crc ∧ (t.bank s.issuer).buf = (s.bank s.issuer).buf
      ∧ (t.bank s.issuer).msg = (s.bank s.issuer).msg ∧ OnlyBank s.issuer s t)
    ∧ (s.pendFlags s.issuer ≠ [] → HeldOn s.issuer .flagGet .ownFlags s (exec .flagGet s))

/-- R196, 20_memory.md R78: a lander step removes the front entry of PEND[p][r] and applies it to r in
the same step: a Message goes to the back of its queue, an operation sets or clears its one bit. If
CONNECTED then is 0, every Q_SENDC held at a port whose own operations have landed completes with DROPPED
in that step (R185; 92_eei_decisions.md D23; assumption 11). Nothing else changes. -/
def Obligations.LanderAppliesFrontEntry : Prop :=
  ∀ (s : State) (p : PortId),
    (∀ q m rest, s.pendQueue p q = m :: rest →
      ∃ t, runEvent (.land p (.queue q)) s = .next t ∧ t.pendQueue p q = rest
        ∧ t.queue q = s.queue q ++ [m] ∧ (∀ x, x ≠ q → t.queue x = s.queue x)
        ∧ (∀ r x, r ≠ p ∨ x ≠ q → t.pendQueue r x = s.pendQueue r x)
        ∧ (∀ r, t.pendFlags r = s.pendFlags r) ∧ t.flags = s.flags ∧ (∀ r, t.bank r = s.bank r)
        ∧ SameStore s t ∧ SameOutside s t)
    ∧ (∀ op rest, s.pendFlags p = op :: rest →
      ∃ t, runEvent (.land p .flags) s = .next t ∧ t.pendFlags p = rest
        ∧ (∀ r, r ≠ p → t.pendFlags r = s.pendFlags r)
        ∧ (op = .set .connected → t.flags.getLsbD 0 = true ∧ t.flags.getLsbD 1 = s.flags.getLsbD 1)
        ∧ (op = .set .reconnect → t.flags.getLsbD 1 = true ∧ t.flags.getLsbD 0 = s.flags.getLsbD 0)
        ∧ (op = .clr .connected → t.flags.getLsbD 0 = false ∧ t.flags.getLsbD 1 = s.flags.getLsbD 1)
        ∧ (op = .clr .reconnect → t.flags.getLsbD 1 = false ∧ t.flags.getLsbD 0 = s.flags.getLsbD 0)
        ∧ (∀ x, t.queue x = s.queue x) ∧ (∀ r x, t.pendQueue r x = s.pendQueue r x)
        ∧ (∀ r i q, (s.bank r).current = some ⟨i, some (.gate q)⟩ → t.pendFlags r = [] →
            t.flags.getLsbD 0 = false → Completed r .dropped t ∧ OnlyStatus r s t)
        ∧ (∀ r, (∀ i q, (s.bank r).current ≠ some ⟨i, some (.gate q)⟩) ∨ t.pendFlags r ≠ []
            ∨ t.flags.getLsbD 0 = true → t.bank r = s.bank r)
        ∧ SameStore s t ∧ SameOutside s t)

/-- 20_memory.md R78(a), R79: of a queue with one sender, the landed entries followed by the pending
ones are one sequence that a step changes only at its ends: a receive takes its first entry, a post
adds one at its back, landing moves nothing. -/
def Obligations.SingleSenderOrderIsKept : Prop :=
  ∀ (s t : State) (q : QueueId), s.Inv → q ≠ .ctl → step s = .next t →
    (∀ took boot, nextEvent s ≠ .powerLoss took boot) →
    ∃ gone kept added, s.queue q ++ s.pendQueue .ctl q = gone ++ kept
      ∧ t.queue q ++ t.pendQueue .ctl q = kept ++ added
      ∧ gone.length + added.length ≤ 1

/-- R188(b), R195, 10_state.md R30: a step changes CONNECTED, or clears RECONNECT, only when one of
NET's operations lands, or when power is lost (70_reset_and_hazards.md R250, R252(b)). -/
def Obligations.OnlyNetChangesConnected : Prop :=
  ∀ s t : State, s.Inv → step s = .next t →
    (t.flags.getLsbD 0 ≠ s.flags.getLsbD 0
      ∨ (s.flags.getLsbD 1 = true ∧ t.flags.getLsbD 1 = false)) →
    nextEvent s = .land .net .flags ∨ ∃ took boot, nextEvent s = .powerLoss took boot

/-! ### Checks and permissions (60_exceptions.md) -/

/-- R222, R224: a bad operand or tag gives ERR_ARG whatever the port; with legal operands a port
without the permission of the table gets ERR_PERM; with both, the command is accepted, and no error
code results. -/
def Obligations.ChecksRunInOrder : Prop :=
  ∀ (i : Instr) (s : State),
    (argsLegal i s = false → RejectedWith s.issuer .errArg s (exec i s))
    ∧ (argsLegal i s = true → mayIssue i s.issuer = false →
        RejectedWith s.issuer .errPerm s (exec i s))
    ∧ (argsLegal i s = true → mayIssue i s.issuer = true →
        ∃ t, exec i s = .next t ∧ (t.busy s.issuer = false → (t.bank s.issuer).rc.isError = false))

/-- R221: a command that its issuing step completes with an error code has changed nothing but
STATUS. -/
def Obligations.ErrorsHaveNoEffect : Prop :=
  ∀ (i : Instr) (s t : State), exec i s = .next t → t.busy s.issuer = false →
    (t.bank s.issuer).rc.isError = true → OnlyStatus s.issuer s t ∧ OnlyBank s.issuer s t

/-! ### The host bus (10_state.md R23, R24; 20_memory.md R66 to R71) -/

/-- R24: while a port is BUSY, every access to its bank but a read of STATUS is held: the step changes
nothing of the block and the access stays the host's next. For a misaligned access this is the model's
choice (assumption 13). -/
def Obligations.BusyPortHoldsAccesses : Prop :=
  ∀ (s : State) (p : PortId) (a : Access) (off : Nat) (rest : List Access),
    s.busy p = true → (s.bank p).host = a :: rest → bankOffset s.cfg p a.addr = some off →
    (a.op ≠ .read ∨ off < 4 ∨ 8 ≤ off) → runEvent (.host p) s = .next s

/-- R24, R25: STATUS can be read at any time, also while the port is BUSY; it shows RC in bits 7:4,
BUSY in bit 0 and zeros elsewhere. -/
def Obligations.StatusReadAnswersAlways : Prop :=
  ∀ (s : State) (p : PortId) (rest : List Access),
    (s.bank p).host = ⟨bankBase s.cfg p + 4, .w32, .read⟩ :: rest →
    ∃ t v, runEvent (.host p) s = .next t ∧ (t.bank p).reply = .data v
      ∧ v.toNat = 16 * (s.bank p).rc.code.toNat + (if s.busy p then 1 else 0)
      ∧ (t.bank p).host = rest ∧ (t.bank p).rc = (s.bank p).rc
      ∧ (t.bank p).current = (s.bank p).current ∧ (t.bank p).res0 = (s.bank p).res0
      ∧ (t.bank p).crc = (s.bank p).crc ∧ (t.bank p).buf = (s.bank p).buf
      ∧ (t.bank p).msg = (s.bank p).msg ∧ OnlyBank p s t

/-- 20_memory.md R66, R67, R69, R71, R75, 10_state.md R24: an aligned host read at an offset of its bank
is answered, by a port that is not BUSY at every offset and by a BUSY port in STATUS; it changes nothing but
the host's list and its answer. The answer: CMD and the reserved offsets 0, RC in bits 7:4 and BUSY in bit 0
of STATUS, RES0 and CRC in bits 15:0, CRC's lanes at 0x00C and 0x00D, BUF and MSG byte by byte, wider reads
little-endian. -/
def Obligations.BankReadsFollowTheMap : Prop :=
  (∀ (s : State) (p : PortId) (off : Nat) (w : Width) (rest : List Access),
    off < 0x400 → off % w.bytes = 0 → (s.busy p = false ∨ (4 ≤ off ∧ off < 8)) →
    (s.bank p).host = ⟨bankBase s.cfg p + off, w, .read⟩ :: rest →
    ∃ t, runEvent (.host p) s = .next t ∧ (t.bank p).reply = .data (bankRead (s.bank p) off w.bytes)
      ∧ (t.bank p).host = rest ∧ (t.bank p).rc = (s.bank p).rc
      ∧ (t.bank p).current = (s.bank p).current ∧ (t.bank p).res0 = (s.bank p).res0
      ∧ (t.bank p).crc = (s.bank p).crc ∧ (t.bank p).buf = (s.bank p).buf
      ∧ (t.bank p).msg = (s.bank p).msg ∧ OnlyBank p s t)
  ∧ ∀ b : Bank, b.buf.length = 256 → b.msg.length = 128 →
    bankRead b 0x000 4 = 0
    ∧ (bankRead b 0x004 4).toNat = 16 * b.rc.code.toNat + (if b.current.isSome then 1 else 0)
    ∧ (bankRead b 0x008 4).toNat = b.res0.toNat ∧ (bankRead b 0x00C 4).toNat = b.crc.toNat
    ∧ (bankRead b 0x00C 1).toNat = b.crc.toNat % 256 ∧ (bankRead b 0x00D 1).toNat = b.crc.toNat / 256
    ∧ (∀ off, (0x010 ≤ off ∧ off < 0x100) ∨ (0x280 ≤ off ∧ off < 0x400) → bankRead b off 1 = 0)
    ∧ (∀ i (h : i < b.buf.length), (bankRead b (0x100 + i) 1).toNat = b.buf[i].toNat)
    ∧ (∀ i (h : i < b.msg.length), (bankRead b (0x200 + i) 1).toNat = b.msg[i].toNat)
    ∧ (∀ off, (bankRead b off 2).toNat
        = (bankRead b off 1).toNat + 2 ^ 8 * (bankRead b (off + 1) 1).toNat)
    ∧ ∀ off, (bankRead b off 4).toNat = (bankRead b off 1).toNat + 2 ^ 8 * (bankRead b (off + 1) 1).toNat
        + 2 ^ 16 * (bankRead b (off + 2) 1).toNat + 2 ^ 24 * (bankRead b (off + 3) 1).toNat

/-- R23, R66, R67, R69: an aligned write by the host of a port that is not BUSY: to BUF and MSG it
stores its bytes little-endian and nothing else; narrower than 32 bits to CMD, or to a read-only or
reserved offset, it is ignored. -/
def Obligations.HostWritesFollowTheMap : Prop :=
  ∀ (s : State) (p : PortId) (off : Nat) (w : Width) (v : Word) (rest : List Access),
    s.busy p = false → (s.bank p).buf.length = 256 → (s.bank p).msg.length = 128 →
    off < 0x400 → off % w.bytes = 0 → (off < 4 → w ≠ .w32) →
    (s.bank p).host = ⟨bankBase s.cfg p + off, w, .write v⟩ :: rest →
    ∃ t, runEvent (.host p) s = .next t ∧ OnlyBank p s t
      ∧ (t.bank p).host = rest ∧ (t.bank p).reply = .written
      ∧ (t.bank p).rc = (s.bank p).rc ∧ (t.bank p).current = (s.bank p).current
      ∧ (t.bank p).res0 = (s.bank p).res0 ∧ (t.bank p).crc = (s.bank p).crc
      ∧ (t.bank p).buf.length = 256 ∧ (t.bank p).msg.length = 128
      ∧ (∀ i, i < 256 → (t.bank p).buf[i]? =
          if off ≤ 0x100 + i ∧ 0x100 + i < off + w.bytes
          then some (lane v (0x100 + i - off)) else (s.bank p).buf[i]?)
      ∧ (∀ i, i < 128 → (t.bank p).msg[i]? =
          if off ≤ 0x200 + i ∧ 0x200 + i < off + w.bytes
          then some (lane v (0x200 + i - off)) else (s.bank p).msg[i]?)

/-- R68, 60_exceptions.md R235: a misaligned access of a port that is not BUSY is answered with a bus
error and changes nothing of the block; that the host then goes on is the model's reading
(assumption 14). -/
def Obligations.MisalignedAccessIsBusError : Prop :=
  ∀ (s : State) (p : PortId) (a : Access) (off : Nat) (rest : List Access),
    s.busy p = false → (s.bank p).host = a :: rest → bankOffset s.cfg p a.addr = some off →
    off % a.width.bytes ≠ 0 →
    ∃ t, runEvent (.host p) s = .next t ∧ (t.bank p).reply = .busError ∧ (t.bank p).host = rest
      ∧ (t.bank p).rc = (s.bank p).rc ∧ (t.bank p).current = (s.bank p).current
      ∧ (t.bank p).res0 = (s.bank p).res0 ∧ (t.bank p).crc = (s.bank p).crc
      ∧ (t.bank p).buf = (s.bank p).buf ∧ (t.bank p).msg = (s.bank p).msg ∧ OnlyBank p s t

/-! ### Reset and power loss (10_state.md R40; 70_reset_and_hazards.md) -/

/-- R40, R250, R251: the state right after the first power-up, for every configuration; the contents
of BUF, MSG and SCR are not stated, since the spec leaves them open. That State.reset has the default
parameters is the model's choice (assumption 1). -/
def Obligations.ResetValues : Prop :=
  State.reset = State.launch Config.standard
    ∧ ∀ c : Config,
      (∀ p, ((State.launch c).bank p).rc = .ok ∧ (State.launch c).busy p = false
        ∧ ((State.launch c).bank p).res0 = 0x0000 ∧ ((State.launch c).bank p).crc = 0xFFFF
        ∧ ((State.launch c).bank p).current = none ∧ (State.launch c).pendFlags p = []
        ∧ ∀ q, (State.launch c).pendQueue p q = [])
      ∧ (State.launch c).flags = 0b00 ∧ (∀ q, (State.launch c).queue q = [])
      ∧ (State.launch c).seq = .idle ∧ (State.launch c).dev = c.devInit ∧ (State.launch c).cfg = c

/-- R250, R252(a), (b): after a power loss and the power-up that follows, every volatile part has its
reset value, whatever was going on; BUF and MSG are drawn. -/
def Obligations.PowerLossResetsVolatileState : Prop :=
  ∀ (s : State) (took : BitVec 256) (boot : PerPort (List Access)),
    ∃ t, runEvent (.powerLoss took boot) s = .next t
      ∧ (∀ p, (t.bank p).rc = .ok ∧ t.busy p = false ∧ (t.bank p).res0 = 0x0000
        ∧ (t.bank p).crc = 0xFFFF ∧ (t.bank p).buf.length = 256 ∧ (t.bank p).msg.length = 128
        ∧ t.pendFlags p = [] ∧ ∀ q, t.pendQueue p q = [])
      ∧ t.flags = 0b00 ∧ (∀ q, t.queue q = []) ∧ t.seq = .idle ∧ t.cfg = s.cfg

/-- R252(c) to (e), 20_memory.md R64: power lost after a MemWrite and before its settle has ended
leaves each byte of that write old or new, as the draw says, and no other byte changed; power lost at
any other moment changes no byte of DEV. That a failed write can be torn again is the model's reading of
R252(c) (assumption 18). -/
def Obligations.PowerLossTearsOnlyUnsettledWrite : Prop :=
  ∀ (s t u : State) (took took' : BitVec 256) (boot : PerPort (List Access)),
    Memory.wf s.dev →
    (∀ (cmd : Instr) (addr : Nat) (data : List Byte) (k : AfterWrite) (ok : Bool),
      s.seq = .active cmd (.memWrite addr data k) → seqStep ok took s = .next t →
      runEvent (.powerLoss took' boot) t = .next u →
        (∀ i (h : i < data.length), u.dev.read (addr + i)
          = if took'.getLsbD i then data[i] else s.dev.read (addr + i))
        ∧ ∀ a, a < addr ∨ addr + data.length ≤ a → u.dev.read a = s.dev.read a)
    ∧ ((∀ cmd w k, s.seq ≠ .active cmd (.settle w k)) →
        runEvent (.powerLoss took' boot) s = .next u → SameDevice s u)

/-! ### The whole block -/

/-- The invariant holds right after reset, in every legal configuration; its clause `gates` is the model's
reading of 43_dispatch.md R185 (assumption 11). -/
def Obligations.InvariantAtReset : Prop :=
  ∀ c : Config, ConfigLegal c → (State.launch c).Inv

/-- 43_dispatch.md R199: from every state that meets the invariant, every step gives a state that
meets it, whatever the schedule and the draws. The invariant's clause `gates`, that no Q_SENDC is held while
CONNECTED is 0 once its port's own operations have landed, is the model's reading of R185 and
92_eei_decisions.md D23 (assumption 11). -/
def Obligations.StepKeepsInvariant : Prop :=
  ∀ s t : State, s.Inv → step s = .next t → t.Inv

/-- 60_exceptions.md R228: a state that meets the invariant is never stuck in a fault or a refusal:
every step answers a next state. That a step with nothing to do answers the same state, and that the one
fault is raised only outside the device, is the model's reading (assumption 10, assumption 21). -/
def Obligations.StepAlwaysAnswers : Prop :=
  ∀ s : State, s.Inv → ∃ t, step s = .next t

/-- 10_state.md R20, R21, 43_dispatch.md R185, R200: a step changes a port's bank only when that port's
host or its held command moves, when the sequencer works for CTL, when a landing flag operation drops the
port's held Q_SENDC (STATUS alone changes), or when power is lost. -/
def Obligations.BanksArePrivate : Prop :=
  ∀ (e : Event) (s t : State) (p : PortId), runEvent e s = .next t → t.bank p ≠ s.bank p →
    e = .host p ∨ e = .port p ∨ (p = .ctl ∧ ∃ ok took, e = .sequencer ok took)
      ∨ ((∃ r, e = .land r .flags) ∧ (∃ i q, (s.bank p).current = some ⟨i, some (.gate q)⟩)
          ∧ Completed p .dropped t ∧ OnlyStatus p s t)
      ∨ ∃ took boot, e = .powerLoss took boot

/-- 43_dispatch.md R201: no queue or flag command, retest or landing touches the store, BUF or CRC; no
CRC, store or log command and no sequencer step touches the dispatcher. -/
def Obligations.DispatcherAndStoreAreIndependent : Prop :=
  (∀ (i : Instr) (s t : State), exec i s = .next t →
    ((∃ q, i = .qSend q ∨ i = .qSendc q ∨ i = .qTryrecv q ∨ i = .qRecv q)
        ∨ (∃ m, i = .flagSet m ∨ i = .flagClear m) ∨ i = .flagGet →
      SameStore s t ∧ ∀ p, (t.bank p).buf = (s.bank p).buf ∧ (t.bank p).crc = (s.bank p).crc)
    ∧ ((∀ q, i ≠ .qSend q ∧ i ≠ .qSendc q ∧ i ≠ .qTryrecv q ∧ i ≠ .qRecv q) →
        (∀ m, i ≠ .flagSet m ∧ i ≠ .flagClear m) → SameDispatcher s t))
    ∧ (∀ (s : State) (p : PortId), SameStore s (retest p s)
        ∧ ∀ r, ((retest p s).bank r).buf = (s.bank r).buf ∧ ((retest p s).bank r).crc = (s.bank r).crc)
    ∧ (∀ (s : State) (p : PortId) (r : Resource), SameStore s (land p r s)
        ∧ ∀ x, ((land p r s).bank x).buf = (s.bank x).buf ∧ ((land p r s).bank x).crc = (s.bank x).crc)
    ∧ ∀ (s t : State) (ok : Bool) (took : BitVec 256), seqStep ok took s = .next t →
        SameDispatcher s t

/-- 43_dispatch.md R198: CTL held in a send to a full Q_UI while UI is held in a send to a full Q_CTL
stay so after every step but a power loss: nothing lifts the hold. -/
def Obligations.MutualFullSendsNeverResume : Prop :=
  ∀ s t : State, s.Inv → step s = .next t →
    (s.bank .ctl).current = some ⟨.qSend 0, some (.credit .ui)⟩ →
    (s.bank .ui).current = some ⟨.qSend 2, some (.credit .ctl)⟩ →
    s.load .ui = 10 → s.load .ctl = 10 →
    (∀ took boot, nextEvent s ≠ .powerLoss took boot) →
    (t.bank .ctl).current = some ⟨.qSend 0, some (.credit .ui)⟩
      ∧ (t.bank .ui).current = some ⟨.qSend 2, some (.credit .ctl)⟩
      ∧ t.load .ui = 10 ∧ t.load .ctl = 10

/-- 20_memory.md R83, 43_dispatch.md R187, R188(d), R193, 92_eei_decisions.md D41: in an unending run that
is fair to the lander and loses no power, every pending mutation lands: a Message then stands at the back of
its queue, a flag operation is applied to FLAGS. If the run is fair to the ports too and starts in a state of
the invariant, the holds end: a held Q_RECV completes if an entry stands in its queue or is pending for it, a
held FLAG_GET, FLAG_SET or FLAG_CLEAR completes, and the own-flag wait of a held Q_SENDC ends. -/
def Obligations.PendingMutationsLand : Prop :=
  (∀ (e : Nat → Event) (σ : Nat → State), Run e σ → LanderFair e σ → Powered e →
    ∀ (n : Nat) (p : PortId),
      (∀ (q : QueueId) (before after : List Image) (m : Image),
        (σ n).pendQueue p q = before ++ m :: after →
        ∃ k l, n ≤ k ∧ e k = .land p (.queue q) ∧ (σ (k + 1)).queue q = l ++ [m])
      ∧ (∀ (before after : List FlagOp) (op : FlagOp),
        (σ n).pendFlags p = before ++ op :: after →
        ∃ k, n ≤ k ∧ e k = .land p .flags ∧ (σ (k + 1)).flags = op.apply (σ k).flags))
  ∧ ∀ (e : Nat → Event) (σ : Nat → State), (σ 0).Inv → Run e σ → LanderFair e σ → PortFair e σ → Powered e →
    ∀ (n : Nat) (p : PortId) (i : Instr),
      (∀ q, ((σ n).bank p).current = some ⟨i, some (.entry q)⟩ →
        ((σ n).queue q ≠ [] ∨ ∃ r, (σ n).pendQueue r q ≠ []) → ∃ k, n ≤ k ∧ Completed p .ok (σ k))
      ∧ (((σ n).bank p).current = some ⟨i, some .ownFlags⟩ → ∃ k, n ≤ k ∧ Completed p .ok (σ k))
      ∧ (∀ ops, ((σ n).bank p).current = some ⟨i, some (.depth ops)⟩ → ∃ k, n ≤ k ∧ Completed p .ok (σ k))
      ∧ ∀ q, ((σ n).bank p).current = some ⟨i, some (.gate q)⟩ → ∃ k, n ≤ k ∧ (σ k).pendFlags p = []

/-- 20_memory.md R83, 41_store.md R140(f): in an unending run that starts in a state of the invariant,
is fair to the sequencer and loses no power, the sequencer is idle again after every moment: no store or
log command runs for ever, whatever the transactions' draws and the other agents do. -/
def Obligations.StoreCommandsEnd : Prop :=
  ∀ (e : Nat → Event) (σ : Nat → State), (σ 0).Inv → Run e σ → SequencerFair e σ → Powered e →
    ∀ n, ∃ k, n ≤ k ∧ (σ k).seq = .idle
end

