-- ==== Sys2Proof/Laws/Memory.lean ====
section
/-! SUPPORT. The laws of the device memory and of byte buffers: reading back what was written, leaving
every other address alone, and keeping the canonical form. -/

namespace Sys2Proof.Machine

/-! ### One byte -/

theorem Memory.wf_tail {x : Host.Cell} {m : Memory} (h : Memory.wf (x :: m)) : Memory.wf m :=
  ⟨(List.pairwise_cons.1 h.1).2, fun c hc => h.2 c (List.mem_cons_of_mem _ hc)⟩

theorem Memory.head_lt {x : Host.Cell} {m : Memory} (h : Memory.wf (x :: m)) {c : Host.Cell}
    (hc : c ∈ m) : x.1 < c.1 := (List.pairwise_cons.1 h.1).1 c hc

/-- An address that no entry has reads as unlisted. -/
theorem Memory.read_of_not_mem {m : Memory} {a : Nat} (h : ∀ c ∈ m, c.1 ≠ a) :
    m.read a = Memory.unlisted := by
  induction m with
  | nil => rfl
  | cons x m ih =>
    obtain ⟨k, b⟩ := x
    have hk : a ≠ k := fun e => h _ List.mem_cons_self e.symm
    simp [Memory.read, hk, ih fun c hc => h c (List.mem_cons_of_mem _ hc)]

theorem Memory.read_below {x : Host.Cell} {m : Memory} (h : Memory.wf (x :: m)) {a : Nat}
    (ha : a < x.1) : Memory.read (x :: m) a = Memory.unlisted := by
  apply Memory.read_of_not_mem
  intro c hc e
  rcases List.mem_cons.1 hc with rfl | hc
  · omega
  · have := Memory.head_lt h hc; omega

/-- Read after write, at the same address. -/
theorem Memory.read_write_same {m : Memory} (h : Memory.wf m) (a : Nat) (b : Byte) :
    (m.write a b).read a = b := by
  induction m with
  | nil => by_cases hb : b = Memory.unlisted <;> simp [Memory.write, Memory.read, hb]
  | cons x m ih =>
    obtain ⟨k, c⟩ := x
    rcases Nat.lt_trichotomy a k with hlt | heq | hgt
    · by_cases hb : b = Memory.unlisted
      · simp only [Memory.write, hlt, hb, if_true]
        exact Memory.read_below h hlt
      · simp [Memory.write, Memory.read, hlt, hb]
    · subst heq
      by_cases hb : b = Memory.unlisted
      · simp only [Memory.write, Nat.lt_irrefl, hb, if_true, if_false]
        exact Memory.read_of_not_mem fun c hc e => by have := Memory.head_lt h hc; simp at this; omega
      · simp [Memory.write, Memory.read, hb]
    · have h1 : ¬ a < k := by omega
      have h2 : a ≠ k := by omega
      simp [Memory.write, Memory.read, h1, h2, ih (Memory.wf_tail h)]

/-- A write leaves every other address alone. -/
theorem Memory.read_write_other (m : Memory) {a x : Nat} (b : Byte) (h : x ≠ a) :
    (m.write a b).read x = m.read x := by
  induction m with
  | nil => by_cases hb : b = Memory.unlisted <;> simp [Memory.write, Memory.read, hb, h]
  | cons y m ih =>
    obtain ⟨k, c⟩ := y
    rcases Nat.lt_trichotomy a k with hlt | heq | hgt
    · by_cases hb : b = Memory.unlisted <;> simp [Memory.write, Memory.read, hlt, hb, h]
    · subst heq
      by_cases hb : b = Memory.unlisted <;> simp [Memory.write, Memory.read, hb, h]
    · have h1 : ¬ a < k := by omega
      have h2 : a ≠ k := by omega
      simp [Memory.write, Memory.read, h1, h2, ih]

/-- What the addresses of a written memory are. -/
theorem Memory.mem_write {m : Memory} {a : Nat} {b : Byte} {c : Host.Cell} (h : c ∈ m.write a b) :
    c ∈ m ∨ (c = (a, b) ∧ b ≠ Memory.unlisted) := by
  induction m with
  | nil => by_cases hb : b = Memory.unlisted <;> simp_all [Memory.write]
  | cons y m ih =>
    obtain ⟨k, d⟩ := y
    rcases Nat.lt_trichotomy a k with hlt | heq | hgt
    · by_cases hb : b = Memory.unlisted
      · simp_all [Memory.write]
      · simp only [Memory.write, hlt, hb, if_true, if_false] at h
        rcases List.mem_cons.1 h with h | h
        · exact .inr ⟨h, hb⟩
        · exact .inl h
    · subst heq
      by_cases hb : b = Memory.unlisted
      · simp only [Memory.write, Nat.lt_irrefl, hb, if_true, if_false] at h
        exact .inl (List.mem_cons_of_mem _ h)
      · simp only [Memory.write, Nat.lt_irrefl, hb, if_true, if_false] at h
        rcases List.mem_cons.1 h with h | h
        · exact .inr ⟨h, hb⟩
        · exact .inl (List.mem_cons_of_mem _ h)
    · have h1 : ¬ a < k := by omega
      have h2 : a ≠ k := by omega
      simp only [Memory.write, h1, h2, if_false] at h
      rcases List.mem_cons.1 h with h | h
      · exact .inl (h ▸ List.mem_cons_self)
      · exact (ih h).imp_left (List.mem_cons_of_mem _)

/-- A write keeps the canonical form. -/
theorem Memory.wf_write {m : Memory} (h : Memory.wf m) (a : Nat) (b : Byte) :
    Memory.wf (m.write a b) := by
  refine ⟨?_, fun c hc => ?_⟩
  · induction m with
    | nil => by_cases hb : b = Memory.unlisted <;> simp [Memory.write, hb]
    | cons y m ih =>
      obtain ⟨k, d⟩ := y
      have hp := List.pairwise_cons.1 h.1
      rcases Nat.lt_trichotomy a k with hlt | heq | hgt
      · by_cases hb : b = Memory.unlisted
        · simpa [Memory.write, hlt, hb] using h.1
        · simp only [Memory.write, hlt, hb, if_true, if_false]
          refine List.pairwise_cons.2 ⟨fun c hc => ?_, h.1⟩
          rcases List.mem_cons.1 hc with rfl | hc
          · exact hlt
          · exact Nat.lt_trans hlt (hp.1 c hc)
      · subst heq
        by_cases hb : b = Memory.unlisted
        · simpa [Memory.write, hb] using hp.2
        · simpa [Memory.write, hb] using h.1
      · have h1 : ¬ a < k := by omega
        have h2 : a ≠ k := by omega
        simp only [Memory.write, h1, h2, if_false]
        refine List.pairwise_cons.2 ⟨fun c hc => ?_, ih (Memory.wf_tail h)⟩
        rcases Memory.mem_write hc with hc | ⟨rfl, _⟩
        · exact hp.1 c hc
        · exact hgt
  · rcases Memory.mem_write hc with hc | ⟨rfl, hb⟩
    · exact h.2 c hc
    · exact hb

/-! ### Several bytes -/

@[simp] theorem Memory.length_readBytes (m : Memory) (a n : Nat) : (m.readBytes a n).length = n := by
  simp [Memory.readBytes]

theorem Memory.wf_writeBytes {m : Memory} (h : Memory.wf m) (a : Nat) (bs : List Byte) :
    Memory.wf (m.writeBytes a bs) := by
  induction bs generalizing m a with
  | nil => exact h
  | cons b bs ih => exact ih (Memory.wf_write h a b) (a + 1)

/-- Where the addresses of a memory written at [a, a+n) can lie. -/
theorem Memory.mem_writeBytes {m : Memory} {a : Nat} {bs : List Byte} {c : Host.Cell}
    (h : c ∈ m.writeBytes a bs) : c ∈ m ∨ (a ≤ c.1 ∧ c.1 < a + bs.length) := by
  induction bs generalizing m a with
  | nil => exact .inl h
  | cons b bs ih =>
    rcases ih (m := m.write a b) h with h | h
    · rcases Memory.mem_write h with h | ⟨rfl, _⟩
      · exact .inl h
      · exact .inr ⟨Nat.le_refl _, by simp⟩
    · exact .inr ⟨by omega, by simp; omega⟩

/-- Bytes outside the written range are unchanged. -/
theorem Memory.read_writeBytes_outside {m : Memory} {a x : Nat} {bs : List Byte}
    (h : x < a ∨ a + bs.length ≤ x) : (m.writeBytes a bs).read x = m.read x := by
  induction bs generalizing m a with
  | nil => rfl
  | cons b bs ih =>
    simp only [List.length_cons] at h
    rw [Memory.writeBytes, ih (by omega), Memory.read_write_other _ _ (by omega)]

/-- Bytes inside the written range are the written ones. -/
theorem Memory.read_writeBytes_inside {m : Memory} (hm : Memory.wf m) (a : Nat) (bs : List Byte)
    {i : Nat} (h : i < bs.length) : (m.writeBytes a bs).read (a + i) = bs[i] := by
  induction bs generalizing m a i with
  | nil => simp at h
  | cons b bs ih =>
    cases i with
    | zero =>
      rw [Memory.writeBytes, Memory.read_writeBytes_outside (by omega)]
      simpa using Memory.read_write_same hm a b
    | succ i =>
      rw [Memory.writeBytes, show a + (i + 1) = (a + 1) + i by omega,
        ih (Memory.wf_write hm a b) (a + 1) (by simpa using h)]
      simp

/-- Reading a written range gives the written bytes. -/
theorem Memory.readBytes_writeBytes {m : Memory} (hm : Memory.wf m) (a : Nat) (bs : List Byte) :
    (m.writeBytes a bs).readBytes a bs.length = bs := by
  apply List.ext_getElem (by simp)
  intro i h1 h2
  simp only [Memory.readBytes, List.getElem_map, List.getElem_range]
  exact Memory.read_writeBytes_inside hm a bs h2

/-- Two canonical memories that read alike are the same list. -/
theorem Memory.eq_of_read {m n : Memory} (hm : Memory.wf m) (hn : Memory.wf n)
    (h : ∀ a, m.read a = n.read a) : m = n := by
  induction m generalizing n with
  | nil =>
    cases n with
    | nil => rfl
    | cons y n =>
      have := h y.1
      simp [Memory.read] at this
      exact absurd this.symm (hn.2 y List.mem_cons_self)
  | cons x m ih =>
    cases n with
    | nil =>
      have := h x.1
      simp [Memory.read] at this
      exact absurd this (hm.2 x List.mem_cons_self)
    | cons y n =>
      obtain ⟨k, b⟩ := x
      obtain ⟨l, c⟩ := y
      have hk : k = l := by
        rcases Nat.lt_trichotomy k l with hlt | heq | hgt
        · have h1 := h k
          rw [Memory.read_below hn hlt] at h1
          simp [Memory.read] at h1
          exact absurd h1 (hm.2 _ List.mem_cons_self)
        · exact heq
        · have h1 := h l
          rw [Memory.read_below hm hgt] at h1
          simp [Memory.read] at h1
          exact absurd h1.symm (hn.2 _ List.mem_cons_self)
      subst hk
      have hb : b = c := by simpa [Memory.read] using h k
      subst hb
      congr 1
      refine ih (Memory.wf_tail hm) (Memory.wf_tail hn) fun a => ?_
      by_cases ha : a = k
      · subst ha
        rw [Memory.read_of_not_mem fun c hc e => by have := Memory.head_lt hm hc; simp at this; omega,
          Memory.read_of_not_mem fun c hc e => by have := Memory.head_lt hn hc; simp at this; omega]
      · simpa [Memory.read, ha] using h a

/-! ### Buffers -/

@[simp] theorem length_splice (xs buf : List Byte) : (splice xs buf).length = buf.length := by
  induction buf generalizing xs with
  | nil => cases xs <;> rfl
  | cons b buf ih => cases xs <;> simp [splice, ih]

theorem splice_of_le {xs buf : List Byte} (h : xs.length ≤ buf.length) :
    splice xs buf = xs ++ buf.drop xs.length := by
  induction xs generalizing buf with
  | nil => cases buf <;> rfl
  | cons x xs ih =>
    cases buf with
    | nil => simp at h
    | cons b buf => simp [splice, ih (buf := buf) (by simpa using h)]

@[simp] theorem length_spliceAt (k : Nat) (xs buf : List Byte) :
    (spliceAt k xs buf).length = buf.length := by
  simp [spliceAt]; omega

@[simp] theorem length_freeBytes (t a n : Nat) : (freeBytes t a n).length = n := by simp [freeBytes]

theorem length_mixFrom (took : BitVec 256) (i : Nat) (old new : List Byte) :
    (mixFrom took i old new).length = min old.length new.length := by
  induction old generalizing new i with
  | nil => simp [mixFrom]
  | cons o old ih =>
    cases new with
    | nil => simp [mixFrom]
    | cons n new => simp [mixFrom, ih]

@[simp] theorem length_mix (took : BitVec 256) (old new : List Byte) :
    (mix took old new).length = min old.length new.length := length_mixFrom ..

/-- Every byte of a mix is the old or the new one, as `took` says. -/
theorem getElem_mix (took : BitVec 256) (old new : List Byte) {i : Nat} (h : i < (mix took old new).length)
    (ho : i < old.length) (hn : i < new.length) :
    (mix took old new)[i] = if took.getLsbD i then new[i] else old[i] := by
  have aux : ∀ (old new : List Byte) (j i : Nat) (h : i < (mixFrom took j old new).length)
      (ho : i < old.length) (hn : i < new.length),
      (mixFrom took j old new)[i] = if took.getLsbD (j + i) then new[i] else old[i] := by
    intro old
    induction old with
    | nil => intro new j i h ho; simp at ho
    | cons o old ih =>
      intro new j i h ho hn
      cases new with
      | nil => simp at hn
      | cons n new =>
        cases i with
        | zero => simp [mixFrom]
        | succ i =>
          simp only [mixFrom, List.getElem_cons_succ]
          rw [ih new (j + 1) i (by simpa [mixFrom] using h) (by simpa using ho) (by simpa using hn)]
          simp [show j + 1 + i = j + (i + 1) by omega]
  have := aux old new 0 i h ho hn
  rw [Nat.zero_add] at this
  exact this

@[simp] theorem length_bigEndian (h : Half) : (bigEndian h).length = 2 := rfl

end Sys2Proof.Machine
end

