-- ==== Sys2Proof/Laws/State.lean ====
section
/-! SUPPORT. What each update of the state changes, one lemma per field and update; every change of a
bank is brought to the one form `updBank`. -/

namespace Sys2Proof.Machine

/-! ### One thing per port, per queue -/

@[simp] theorem PerPort.get_set_same {α : Type} (t : PerPort α) (p : PortId) (x : α) :
    (t.set p x).get p = x := by cases p <;> rfl

theorem PerPort.get_set_other {α : Type} (t : PerPort α) {p q : PortId} (x : α) (h : q ≠ p) :
    (t.set p x).get q = t.get q := by cases p <;> cases q <;> first | rfl | exact absurd rfl h

@[simp] theorem PerPort.set_set {α : Type} (t : PerPort α) (p : PortId) (x y : α) :
    (t.set p x).set p y = t.set p y := by cases p <;> rfl

@[simp] theorem PerPort.set_get {α : Type} (t : PerPort α) (p : PortId) : t.set p (t.get p) = t := by
  cases p <;> rfl

theorem PerPort.ext_get {α : Type} {t u : PerPort α} (h : ∀ p, t.get p = u.get p) : t = u := by
  cases t; cases u
  have h1 := h .ctl; have h2 := h .ui; have h3 := h .net
  simp only [PerPort.get] at h1 h2 h3
  simp [h1, h2, h3]

@[simp] theorem PerQueue.get_set_same {α : Type} (t : PerQueue α) (q : QueueId) (x : α) :
    (t.set q x).get q = x := by cases q <;> rfl

theorem PerQueue.get_set_other {α : Type} (t : PerQueue α) {q r : QueueId} (x : α) (h : r ≠ q) :
    (t.set q x).get r = t.get r := by cases q <;> cases r <;> first | rfl | exact absurd rfl h

/-! ### updBank -/

section UpdBank
variable (s : State) (p : PortId) (f g : Bank → Bank)

@[simp] theorem updBank_cfg : (s.updBank p f).cfg = s.cfg := rfl
@[simp] theorem updBank_flags : (s.updBank p f).flags = s.flags := rfl
@[simp] theorem updBank_queues : (s.updBank p f).queues = s.queues := rfl
@[simp] theorem updBank_pend : (s.updBank p f).pend = s.pend := rfl
@[simp] theorem updBank_seq : (s.updBank p f).seq = s.seq := rfl
@[simp] theorem updBank_scr : (s.updBank p f).scr = s.scr := rfl
@[simp] theorem updBank_dev : (s.updBank p f).dev = s.dev := rfl
@[simp] theorem updBank_bus : (s.updBank p f).bus = s.bus := rfl
@[simp] theorem updBank_issuer : (s.updBank p f).issuer = s.issuer := rfl
@[simp] theorem updBank_script : (s.updBank p f).script = s.script := rfl
@[simp] theorem updBank_tick : (s.updBank p f).tick = s.tick := rfl

@[simp] theorem bank_updBank : (s.updBank p f).bank p = f (s.bank p) := by
  simp [State.bank, State.updBank]

theorem bank_updBank_other {q : PortId} (h : q ≠ p) : (s.updBank p f).bank q = s.bank q := by
  simp [State.bank, State.updBank, PerPort.get_set_other _ _ h]

@[simp] theorem updBank_updBank : (s.updBank p f).updBank p g = s.updBank p fun b => g (f b) := by
  simp [State.updBank]

@[simp] theorem queue_updBank (q : QueueId) : (s.updBank p f).queue q = s.queue q := rfl
@[simp] theorem pendQueue_updBank (r : PortId) (q : QueueId) :
    (s.updBank p f).pendQueue r q = s.pendQueue r q := rfl
@[simp] theorem pendFlags_updBank (r : PortId) : (s.updBank p f).pendFlags r = s.pendFlags r := rfl
@[simp] theorem flag_updBank (b : FlagBit) : (s.updBank p f).flag b = s.flag b := rfl
@[simp] theorem load_updBank (q : QueueId) : (s.updBank p f).load q = s.load q := rfl
@[simp] theorem credit_updBank (q : QueueId) : (s.updBank p f).credit q = s.credit q := rfl

end UpdBank

/-! ### The bank operations are updBank -/

@[simp] theorem finish_eq (p : PortId) (r : ResultCode) (s : State) :
    finish p r s = s.updBank p fun b => { b with rc := r, current := none } := rfl

@[simp] theorem raise_eq (p : PortId) (r : ResultCode) (s : State) :
    raise p r s = s.updBank p fun b => { b with rc := r, current := none } := rfl

@[simp] theorem holdOn_eq (p : PortId) (i : Instr) (h : Hold) (s : State) :
    holdOn p i h s = s.updBank p fun b => { b with current := some ⟨i, some h⟩ } := rfl

@[simp] theorem setRes0_eq (p : PortId) (v : Half) (s : State) :
    setRes0 p v s = s.updBank p fun b => { b with res0 := v } := rfl

@[simp] theorem setCrc_eq (p : PortId) (v : Half) (s : State) :
    setCrc p v s = s.updBank p fun b => { b with crc := v } := rfl

@[simp] theorem setBuf_eq (p : PortId) (xs : List Byte) (s : State) :
    setBuf p xs s = s.updBank p fun b => { b with buf := splice xs b.buf } := rfl

@[simp] theorem setMsg_eq (p : PortId) (m : Image) (s : State) :
    setMsg p m s = s.updBank p fun b => { b with msg := splice m b.msg } := rfl

/-! ### setQueue -/

section SetQueue
variable (s : State) (q : QueueId) (l : List Image)

@[simp] theorem setQueue_cfg : (s.setQueue q l).cfg = s.cfg := rfl
@[simp] theorem setQueue_ports : (s.setQueue q l).ports = s.ports := rfl
@[simp] theorem setQueue_flags : (s.setQueue q l).flags = s.flags := rfl
@[simp] theorem setQueue_pend : (s.setQueue q l).pend = s.pend := rfl
@[simp] theorem setQueue_seq : (s.setQueue q l).seq = s.seq := rfl
@[simp] theorem setQueue_scr : (s.setQueue q l).scr = s.scr := rfl
@[simp] theorem setQueue_dev : (s.setQueue q l).dev = s.dev := rfl
@[simp] theorem setQueue_bus : (s.setQueue q l).bus = s.bus := rfl
@[simp] theorem setQueue_issuer : (s.setQueue q l).issuer = s.issuer := rfl
@[simp] theorem setQueue_script : (s.setQueue q l).script = s.script := rfl
@[simp] theorem setQueue_tick : (s.setQueue q l).tick = s.tick := rfl
@[simp] theorem bank_setQueue (p : PortId) : (s.setQueue q l).bank p = s.bank p := rfl
@[simp] theorem pendQueue_setQueue (p : PortId) (r : QueueId) :
    (s.setQueue q l).pendQueue p r = s.pendQueue p r := rfl
@[simp] theorem pendFlags_setQueue (p : PortId) : (s.setQueue q l).pendFlags p = s.pendFlags p := rfl

@[simp] theorem queue_setQueue : (s.setQueue q l).queue q = l := by
  simp [State.queue, State.setQueue]

theorem queue_setQueue_other {r : QueueId} (h : r ≠ q) : (s.setQueue q l).queue r = s.queue r := by
  simp [State.queue, State.setQueue, PerQueue.get_set_other _ _ h]

end SetQueue

/-! ### setPendQueue and setPendFlags -/

section SetPend
variable (s : State) (p : PortId) (q : QueueId) (l : List Image) (ops : List FlagOp)

@[simp] theorem setPendQueue_cfg : (s.setPendQueue p q l).cfg = s.cfg := rfl
@[simp] theorem setPendQueue_ports : (s.setPendQueue p q l).ports = s.ports := rfl
@[simp] theorem setPendQueue_flags : (s.setPendQueue p q l).flags = s.flags := rfl
@[simp] theorem setPendQueue_queues : (s.setPendQueue p q l).queues = s.queues := rfl
@[simp] theorem setPendQueue_seq : (s.setPendQueue p q l).seq = s.seq := rfl
@[simp] theorem setPendQueue_scr : (s.setPendQueue p q l).scr = s.scr := rfl
@[simp] theorem setPendQueue_dev : (s.setPendQueue p q l).dev = s.dev := rfl
@[simp] theorem setPendQueue_bus : (s.setPendQueue p q l).bus = s.bus := rfl
@[simp] theorem setPendQueue_issuer : (s.setPendQueue p q l).issuer = s.issuer := rfl
@[simp] theorem setPendQueue_script : (s.setPendQueue p q l).script = s.script := rfl
@[simp] theorem setPendQueue_tick : (s.setPendQueue p q l).tick = s.tick := rfl
@[simp] theorem bank_setPendQueue (r : PortId) : (s.setPendQueue p q l).bank r = s.bank r := rfl
@[simp] theorem queue_setPendQueue (r : QueueId) : (s.setPendQueue p q l).queue r = s.queue r := rfl

@[simp] theorem pendQueue_setPendQueue : (s.setPendQueue p q l).pendQueue p q = l := by
  simp [State.pendQueue, State.setPendQueue]

theorem pendQueue_setPendQueue_port {r : PortId} (h : r ≠ p) (x : QueueId) :
    (s.setPendQueue p q l).pendQueue r x = s.pendQueue r x := by
  simp [State.pendQueue, State.setPendQueue, PerPort.get_set_other _ _ h]

theorem pendQueue_setPendQueue_queue {x : QueueId} (h : x ≠ q) (r : PortId) :
    (s.setPendQueue p q l).pendQueue r x = s.pendQueue r x := by
  by_cases hr : r = p
  · subst hr; simp [State.pendQueue, State.setPendQueue, PerQueue.get_set_other _ _ h]
  · exact pendQueue_setPendQueue_port s p q l hr x

@[simp] theorem pendFlags_setPendQueue (r : PortId) :
    (s.setPendQueue p q l).pendFlags r = s.pendFlags r := by
  by_cases hr : r = p
  · subst hr; simp [State.pendFlags, State.setPendQueue]
  · simp [State.pendFlags, State.setPendQueue, PerPort.get_set_other _ _ hr]

@[simp] theorem setPendFlags_cfg : (s.setPendFlags p ops).cfg = s.cfg := rfl
@[simp] theorem setPendFlags_ports : (s.setPendFlags p ops).ports = s.ports := rfl
@[simp] theorem setPendFlags_flags : (s.setPendFlags p ops).flags = s.flags := rfl
@[simp] theorem setPendFlags_queues : (s.setPendFlags p ops).queues = s.queues := rfl
@[simp] theorem setPendFlags_seq : (s.setPendFlags p ops).seq = s.seq := rfl
@[simp] theorem setPendFlags_scr : (s.setPendFlags p ops).scr = s.scr := rfl
@[simp] theorem setPendFlags_dev : (s.setPendFlags p ops).dev = s.dev := rfl
@[simp] theorem setPendFlags_bus : (s.setPendFlags p ops).bus = s.bus := rfl
@[simp] theorem setPendFlags_issuer : (s.setPendFlags p ops).issuer = s.issuer := rfl
@[simp] theorem setPendFlags_script : (s.setPendFlags p ops).script = s.script := rfl
@[simp] theorem setPendFlags_tick : (s.setPendFlags p ops).tick = s.tick := rfl
@[simp] theorem bank_setPendFlags (r : PortId) : (s.setPendFlags p ops).bank r = s.bank r := rfl
@[simp] theorem queue_setPendFlags (r : QueueId) : (s.setPendFlags p ops).queue r = s.queue r := rfl

@[simp] theorem pendFlags_setPendFlags : (s.setPendFlags p ops).pendFlags p = ops := by
  simp [State.pendFlags, State.setPendFlags]

theorem pendFlags_setPendFlags_other {r : PortId} (h : r ≠ p) :
    (s.setPendFlags p ops).pendFlags r = s.pendFlags r := by
  simp [State.pendFlags, State.setPendFlags, PerPort.get_set_other _ _ h]

@[simp] theorem pendQueue_setPendFlags (r : PortId) (x : QueueId) :
    (s.setPendFlags p ops).pendQueue r x = s.pendQueue r x := by
  by_cases hr : r = p
  · subst hr; simp [State.pendQueue, State.setPendFlags]
  · simp [State.pendQueue, State.setPendFlags, PerPort.get_set_other _ _ hr]

end SetPend

/-! ### Posting, and starting the sequencer -/

@[simp] theorem bank_postMessage (p r : PortId) (q : QueueId) (s : State) :
    (postMessage p q s).bank r = s.bank r := rfl

@[simp] theorem bank_postFlags (p r : PortId) (ops : List FlagOp) (s : State) :
    (postFlags p ops s).bank r = s.bank r := rfl

@[simp] theorem bank_startSequencer (p r : PortId) (i : Instr) (x : SeqStep) (s : State) :
    (startSequencer p i x s).bank r
      = (s.updBank p fun b => { b with current := some ⟨i, none⟩ }).bank r := rfl

/-! ### Queries of a state that differs in fields they do not read -/

@[simp] theorem bank_mk (c : Config) (b : PerPort Bank) (f : BitVec 2) (q : PerQueue (List Image))
    (d : PerPort Pend) (x : Seq) (r : List Byte) (m : Memory) (u : Option Transaction) (i : PortId)
    (e : List Event) (n : Nat) (p : PortId) :
    (State.mk c b f q d x r m u i e n).bank p = b.get p := rfl

@[simp] theorem queue_mk (c : Config) (b : PerPort Bank) (f : BitVec 2) (q : PerQueue (List Image))
    (d : PerPort Pend) (x : Seq) (r : List Byte) (m : Memory) (u : Option Transaction) (i : PortId)
    (e : List Event) (n : Nat) (k : QueueId) :
    (State.mk c b f q d x r m u i e n).queue k = q.get k := rfl

@[simp] theorem pendQueue_mk (c : Config) (b : PerPort Bank) (f : BitVec 2)
    (q : PerQueue (List Image)) (d : PerPort Pend) (x : Seq) (r : List Byte) (m : Memory)
    (u : Option Transaction) (i : PortId) (e : List Event) (n : Nat) (p : PortId) (k : QueueId) :
    (State.mk c b f q d x r m u i e n).pendQueue p k = (d.get p).queues.get k := rfl

@[simp] theorem pendFlags_mk (c : Config) (b : PerPort Bank) (f : BitVec 2)
    (q : PerQueue (List Image)) (d : PerPort Pend) (x : Seq) (r : List Byte) (m : Memory)
    (u : Option Transaction) (i : PortId) (e : List Event) (n : Nat) (p : PortId) :
    (State.mk c b f q d x r m u i e n).pendFlags p = (d.get p).flags := rfl

/-! ### One spelling for reading a port's or a queue's part -/

@[simp] theorem ports_get (s : State) (p : PortId) : s.ports.get p = s.bank p := rfl

@[simp] theorem queues_get (s : State) (q : QueueId) : s.queues.get q = s.queue q := rfl

@[simp] theorem pend_get_queues (s : State) (p : PortId) (q : QueueId) :
    (s.pend.get p).queues.get q = s.pendQueue p q := rfl

@[simp] theorem pend_get_flags (s : State) (p : PortId) : (s.pend.get p).flags = s.pendFlags p := rfl

end Sys2Proof.Machine
end

