-- ==== Sys2Proof/Laws/Ops.lean ====
section
/-! SUPPORT. What each shared operation can do, said once: later proofs cite these lemmas and do not
unfold the operations. -/

namespace Sys2Proof.Machine

/-! ### Checks and holds -/

/-- The three ends of the check order. -/
theorem checked_cases {argOk permOk : Bool} {run : State → State} {s t : State}
    (h : checked argOk permOk run s = .next t) :
    (argOk = false ∧ t = raise s.issuer .errArg s)
      ∨ (argOk = true ∧ permOk = false ∧ t = raise s.issuer .errPerm s)
      ∨ (argOk = true ∧ permOk = true ∧ t = run s) := by
  cases argOk <;> cases permOk <;> simp_all [checked]

theorem checked_run {run : State → State} {s : State} : checked true true run s = .next (run s) := rfl

theorem sendChecked_cases {q : Nat} {run : QueueId → State → State} {s t : State}
    (h : sendChecked q run s = .next t) :
    t = raise s.issuer .errArg s ∨ t = raise s.issuer .errPerm s
      ∨ ∃ qid, queueOf q = some qid ∧ legalTag (s.bank s.issuer).msg = true
        ∧ maySend s.issuer qid = true ∧ t = run qid s := by
  unfold sendChecked at h
  split at h
  · exact .inl (by simpa using h.symm)
  · rename_i qid hq
    rcases checked_cases h with ⟨_, h⟩ | ⟨_, _, h⟩ | ⟨ha, hp, h⟩
    · exact .inl h
    · exact .inr (.inl h)
    · exact .inr (.inr ⟨qid, hq, ha, hp, h⟩)

theorem receiveChecked_cases {q : Nat} {run : QueueId → State → State} {s t : State}
    (h : receiveChecked q run s = .next t) :
    t = raise s.issuer .errArg s ∨ t = raise s.issuer .errPerm s
      ∨ ∃ qid, queueOf q = some qid ∧ s.issuer = receiver qid ∧ t = run qid s := by
  unfold receiveChecked at h
  split at h
  · exact .inl (by simpa using h.symm)
  · rename_i qid hq
    rcases checked_cases h with ⟨ha, _⟩ | ⟨_, _, h⟩ | ⟨_, hp, h⟩
    · simp at ha
    · exact .inr (.inl h)
    · exact .inr (.inr ⟨qid, hq, by simpa using hp, h⟩)

/-- The number of a queue names it, and nothing else does. -/
theorem queueOf_eq_some {k : Nat} {q : QueueId} : queueOf k = some q ↔ k = q.number := by
  constructor
  · intro h
    match k, h with
    | 0, h => cases h; rfl
    | 1, h => cases h; rfl
    | 2, h => cases h; rfl
    | k + 3, h => simp [queueOf] at h
  · rintro rfl; cases q <;> rfl

/-- A held command resumes exactly when its condition is true; every other port step does nothing. -/
theorem retest_cases (p : PortId) (s : State) :
    retest p s = s ∨ ∃ i h, (s.bank p).current = some ⟨i, some h⟩ ∧ h.lifted p s = true
      ∧ retest p s = h.resume p s := by
  unfold retest
  split
  · rename_i i h heq
    by_cases hl : h.lifted p s = true
    · exact .inr ⟨i, h, heq, hl, by simp [hl]⟩
    · exact .inl (by simp [hl])
  · exact .inl rfl

theorem lifted_credit {q : QueueId} {p : PortId} {s : State} :
    (Hold.credit q).lifted p s = true ↔ s.load q < queueCapacity := by
  unfold Hold.lifted State.credit queueCapacity
  rw [decide_eq_true_eq]; omega

theorem lifted_gate {q : QueueId} {p : PortId} {s : State} :
    (Hold.gate q).lifted p s = true
      ↔ s.pendFlags p = [] ∧ (s.flag .connected = false ∨ s.load q < queueCapacity) := by
  unfold Hold.lifted State.credit queueCapacity
  rw [Bool.and_eq_true, Bool.or_eq_true, decide_eq_true_eq, List.isEmpty_iff, Bool.not_eq_true']
  constructor <;> rintro ⟨h, hc⟩ <;> refine ⟨h, hc.imp_right fun hc => ?_⟩ <;> omega

theorem lifted_entry {q : QueueId} {p : PortId} {s : State} :
    (Hold.entry q).lifted p s = true ↔ s.queue q ≠ [] := by
  simp [Hold.lifted]

theorem lifted_ownFlags {p : PortId} {s : State} :
    Hold.ownFlags.lifted p s = true ↔ s.pendFlags p = [] := by
  simp [Hold.lifted]

theorem lifted_depth {ops : List FlagOp} {p : PortId} {s : State} :
    (Hold.depth ops).lifted p s = true
      ↔ (s.pendFlags p).length + ops.length ≤ s.cfg.flagPendDepth := by
  simp [Hold.lifted]

/-- The ends of a resumed hold: a post, a drop, a receive, a flag post, a flag sample. -/
theorem resume_cases (h : Hold) (p : PortId) (s : State) :
    (∃ q, (h = .credit q ∨ (h = .gate q ∧ s.flag .connected = true))
        ∧ h.resume p s = finish p .ok (postMessage p q s))
      ∨ (∃ q, h = .gate q ∧ s.flag .connected = false ∧ h.resume p s = finish p .dropped s)
      ∨ (∃ q, h = .entry q ∧ h.resume p s = receive p q s)
      ∨ (∃ ops, h = .depth ops ∧ h.resume p s = finish p .ok (postFlags p ops s))
      ∨ (h = .ownFlags ∧ h.resume p s = finish p .ok (setRes0 p (s.flags.setWidth 16) s)) := by
  cases h with
  | credit q => exact .inl ⟨q, .inl rfl, rfl⟩
  | gate q =>
    cases hc : s.flag .connected
    · exact .inr (.inl ⟨q, rfl, rfl, by simp [Hold.resume, hc]⟩)
    · exact .inl ⟨q, .inr ⟨rfl, rfl⟩, by simp [Hold.resume, hc]⟩
  | entry q => exact .inr (.inr (.inl ⟨q, rfl, rfl⟩))
  | depth ops => exact .inr (.inr (.inr (.inl ⟨ops, rfl, rfl⟩)))
  | ownFlags => exact .inr (.inr (.inr (.inr ⟨rfl, rfl⟩)))

theorem receive_cons {p : PortId} {q : QueueId} {s : State} {m : Image} {rest : List Image}
    (h : s.queue q = m :: rest) :
    receive p q s = (s.setQueue q rest).updBank p fun b =>
      { b with rc := .ok, current := none, res0 := (tagOf m).setWidth 16, msg := splice m b.msg } := by
  simp [receive, h]

theorem receive_nil {p : PortId} {q : QueueId} {s : State} (h : s.queue q = []) :
    receive p q s = s := by simp [receive, h]

/-! ### The gates -/

/-- What it is for a gate to be closed. -/
theorem gateClosed_eq_true {p : PortId} {s : State} :
    gateClosed p s = true ↔ (∃ i q, (s.bank p).current = some ⟨i, some (.gate q)⟩)
      ∧ s.pendFlags p = [] ∧ s.flag .connected = false := by
  unfold gateClosed
  split
  · rename_i i q heq
    rw [Bool.and_eq_true, List.isEmpty_iff, Bool.not_eq_true']
    exact ⟨fun h => ⟨⟨i, q, heq⟩, h⟩, fun h => h.2⟩
  · rename_i hne
    exact ⟨fun h => Bool.noConfusion h, fun ⟨⟨i, q, h⟩, _⟩ => (hne i q h).elim⟩

/-- Retesting a closed gate is a step of its port. -/
theorem retest_of_gateClosed {p : PortId} {s : State} (h : gateClosed p s = true) :
    retest p s = retestGate p s := by
  have hg := h
  rw [gateClosed_eq_true] at h
  obtain ⟨⟨i, q, hc⟩, hp, hf⟩ := h
  rw [retestGate, if_pos hg]
  simp only [retest, hc, Hold.resume, hf, if_true]
  rw [if_pos (lifted_gate.2 ⟨hp, .inl hf⟩)]

/-- Everything a retest of the gates does: a port whose gate is closed completes with DROPPED. -/
theorem bank_retestGates (s : State) (p : PortId) :
    (retestGates s).bank p
      = if gateClosed p s then { s.bank p with rc := .dropped, current := none } else s.bank p := by
  have h : (retestGates s).bank p = (retestGate p s).bank p := by cases p <;> rfl
  rw [h, retestGate]
  split
  · simp
  · rfl

@[simp] theorem retestGates_cfg (s : State) : (retestGates s).cfg = s.cfg := rfl
@[simp] theorem retestGates_flags (s : State) : (retestGates s).flags = s.flags := rfl
@[simp] theorem retestGates_queues (s : State) : (retestGates s).queues = s.queues := rfl
@[simp] theorem retestGates_pend (s : State) : (retestGates s).pend = s.pend := rfl
@[simp] theorem retestGates_seq (s : State) : (retestGates s).seq = s.seq := rfl
@[simp] theorem retestGates_scr (s : State) : (retestGates s).scr = s.scr := rfl
@[simp] theorem retestGates_dev (s : State) : (retestGates s).dev = s.dev := rfl
@[simp] theorem retestGates_bus (s : State) : (retestGates s).bus = s.bus := rfl
@[simp] theorem retestGates_issuer (s : State) : (retestGates s).issuer = s.issuer := rfl
@[simp] theorem retestGates_script (s : State) : (retestGates s).script = s.script := rfl
@[simp] theorem retestGates_tick (s : State) : (retestGates s).tick = s.tick := rfl
@[simp] theorem queue_retestGates (s : State) (q : QueueId) : (retestGates s).queue q = s.queue q := rfl
@[simp] theorem pendQueue_retestGates (s : State) (p : PortId) (q : QueueId) :
    (retestGates s).pendQueue p q = s.pendQueue p q := rfl
@[simp] theorem pendFlags_retestGates (s : State) (p : PortId) :
    (retestGates s).pendFlags p = s.pendFlags p := rfl
@[simp] theorem flag_retestGates (s : State) (b : FlagBit) : (retestGates s).flag b = s.flag b := rfl
@[simp] theorem load_retestGates (s : State) (q : QueueId) : (retestGates s).load q = s.load q := rfl

/-! ### Posting and landing -/

theorem load_setPendQueue (s : State) (p : PortId) (q : QueueId) (l : List Image) :
    (s.setPendQueue p q l).load q + (s.pendQueue p q).length = s.load q + l.length := by
  cases p <;> simp [State.load, pendQueue_setPendQueue_port] <;> omega

theorem load_setPendQueue_other (s : State) (p : PortId) {q x : QueueId} (l : List Image)
    (h : x ≠ q) : (s.setPendQueue p q l).load x = s.load x := by
  simp [State.load, pendQueue_setPendQueue_queue s p q l h]

theorem load_setQueue (s : State) (q : QueueId) (l : List Image) :
    (s.setQueue q l).load q + (s.queue q).length = s.load q + l.length := by
  simp [State.load]; omega

theorem load_setQueue_other (s : State) {q x : QueueId} (l : List Image) (h : x ≠ q) :
    (s.setQueue q l).load x = s.load x := by
  simp [State.load, queue_setQueue_other s q l h]

@[simp] theorem load_setPendFlags (s : State) (p : PortId) (ops : List FlagOp) (q : QueueId) :
    (s.setPendFlags p ops).load q = s.load q := by simp [State.load]

theorem landMessage_nil {p : PortId} {q : QueueId} {s : State} (h : s.pendQueue p q = []) :
    landMessage p q s = s := by simp [landMessage, h]

theorem landMessage_cons {p : PortId} {q : QueueId} {s : State} {m : Image} {rest : List Image}
    (h : s.pendQueue p q = m :: rest) :
    landMessage p q s = (s.setPendQueue p q rest).setQueue q (s.queue q ++ [m]) := by
  simp [landMessage, h]

theorem landFlag_nil {p : PortId} {s : State} (h : s.pendFlags p = []) : landFlag p s = s := by
  simp [landFlag, h]

theorem landFlag_cons {p : PortId} {s : State} {op : FlagOp} {rest : List FlagOp}
    (h : s.pendFlags p = op :: rest) :
    landFlag p s = retestGates { s.setPendFlags p rest with flags := op.apply s.flags } := by
  simp [landFlag, h]

/-- Landing a Message does not change the load of any queue. -/
theorem load_landMessage (p : PortId) (q x : QueueId) (s : State) :
    (landMessage p q s).load x = s.load x := by
  cases h : s.pendQueue p q with
  | nil => rw [landMessage_nil h]
  | cons m rest =>
    rw [landMessage_cons h]
    by_cases hx : x = q
    · subst hx
      have h1 := load_setPendQueue s p x rest
      have h2 := load_setQueue (s.setPendQueue p x rest) x (s.queue x ++ [m])
      simp [h] at h1 h2
      omega
    · rw [load_setQueue_other _ _ hx, load_setPendQueue_other _ _ _ hx]

/-! ### The sequencer -/

/-- Everything a sequencer step can do. -/
theorem seqStep_cases {ok : Bool} {took : BitVec 256} {s t : State} (h : seqStep ok took s = .next t) :
    (s.seq = .idle ∧ t = s)
      ∨ (∃ cmd addr n k, s.seq = .active cmd (.memRead addr n k) ∧ inDevice s.cfg addr n = true
          ∧ ((ok = true ∧ t = afterRead cmd k (memRead true addr n s))
            ∨ (ok = false ∧ t = seqFinish .bus (memRead false addr n s))))
      ∨ (∃ cmd addr data k, s.seq = .active cmd (.memWrite addr data k)
          ∧ inDevice s.cfg addr data.length = true
          ∧ t = seqGo cmd (settleOf ok addr data s.dev k) (memWrite ok took addr data s))
      ∨ (∃ cmd w k, s.seq = .active cmd (.settle w k)
          ∧ ((w.ok = true ∧ t = afterWrite cmd k s) ∨ (w.ok = false ∧ t = seqFinish .bus s))) := by
  unfold seqStep at h
  split at h
  · exact .inl ⟨‹_›, by simpa using h.symm⟩
  · rename_i cmd addr n k heq
    split at h
    · refine .inr (.inl ⟨cmd, addr, n, k, heq, ‹_›, ?_⟩)
      cases ok
      · exact .inr ⟨rfl, by simpa using h.symm⟩
      · exact .inl ⟨rfl, by simpa using h.symm⟩
    · cases h
  · rename_i cmd addr data k heq
    split at h
    · exact .inr (.inr (.inl ⟨cmd, addr, data, k, heq, ‹_›, by simpa using h.symm⟩))
    · cases h
  · rename_i cmd w k heq
    refine .inr (.inr (.inr ⟨cmd, w, k, heq, ?_⟩))
    cases hw : w.ok
    · exact .inr ⟨rfl, by simpa [hw] using h.symm⟩
    · exact .inl ⟨rfl, by simpa [hw] using h.symm⟩

@[simp] theorem seqFinish_seq (r : ResultCode) (s : State) : (seqFinish r s).seq = .idle := rfl
@[simp] theorem seqFinish_dev (r : ResultCode) (s : State) : (seqFinish r s).dev = s.dev := rfl
@[simp] theorem seqFinish_scr (r : ResultCode) (s : State) : (seqFinish r s).scr = s.scr := rfl
@[simp] theorem seqFinish_cfg (r : ResultCode) (s : State) : (seqFinish r s).cfg = s.cfg := rfl
@[simp] theorem seqGo_seq (cmd : Instr) (x : SeqStep) (s : State) :
    (seqGo cmd x s).seq = .active cmd x := rfl
@[simp] theorem seqGo_dev (cmd : Instr) (x : SeqStep) (s : State) : (seqGo cmd x s).dev = s.dev := rfl
@[simp] theorem seqGo_scr (cmd : Instr) (x : SeqStep) (s : State) : (seqGo cmd x s).scr = s.scr := rfl
@[simp] theorem seqGo_cfg (cmd : Instr) (x : SeqStep) (s : State) : (seqGo cmd x s).cfg = s.cfg := rfl
@[simp] theorem seqGo_bank (cmd : Instr) (x : SeqStep) (s : State) (p : PortId) :
    (seqGo cmd x s).bank p = s.bank p := rfl

@[simp] theorem memRead_dev (ok : Bool) (a n : Nat) (s : State) : (memRead ok a n s).dev = s.dev := rfl
@[simp] theorem memRead_cfg (ok : Bool) (a n : Nat) (s : State) : (memRead ok a n s).cfg = s.cfg := rfl
@[simp] theorem memRead_seq (ok : Bool) (a n : Nat) (s : State) : (memRead ok a n s).seq = s.seq := rfl
@[simp] theorem memRead_bank (ok : Bool) (a n : Nat) (s : State) (p : PortId) :
    (memRead ok a n s).bank p = s.bank p := rfl

theorem length_memRead_scr (ok : Bool) (a n : Nat) (s : State) :
    (memRead ok a n s).scr.length = s.scr.length := by
  cases ok <;> simp [memRead]

/-- After a successful read of n bytes, SCR begins with them. -/
theorem take_memRead_scr {a n : Nat} {s : State} (h : n ≤ s.scr.length) :
    (memRead true a n s).scr.take n = s.dev.readBytes a n := by
  simp [memRead, splice_of_le (xs := s.dev.readBytes a n) (buf := s.scr) (by simpa using h)]

theorem length_landedBytes (ok : Bool) (took : BitVec 256) {old new : List Byte}
    (h : old.length = new.length) : (landedBytes ok took old new).length = new.length := by
  cases ok <;> simp [landedBytes, h]

end Sys2Proof.Machine
end

