-- ==== Sys2Proof/Laws/Frames.lean ====
section
/-! SUPPORT. The frames of Safety.lean for the shared operations: what changing one bank, starting the
sequencer, posting and taking a Message leave unchanged. -/

namespace Sys2Proof.Machine

theorem onlyBank_updBank (s : State) (p : PortId) (f : Bank → Bank) : OnlyBank p s (s.updBank p f) where
  dispatcher := ⟨rfl, fun _ => rfl, fun _ _ => rfl, fun _ => rfl⟩
  store := ⟨rfl, rfl, fun _ => rfl, rfl⟩
  others _ hr := bank_updBank_other s p f hr
  outside := ⟨rfl, rfl, rfl, rfl⟩

/-- A change of STATUS and the current command alone. -/
theorem onlyStatus_updBank (s : State) (p : PortId) (r : Bank → ResultCode)
    (c : Bank → Option Current) :
    OnlyStatus p s (s.updBank p fun b => { b with rc := r b, current := c b }) := by
  constructor <;> simp

@[simp] theorem bank_seqFinish (r : ResultCode) (s : State) (p : PortId) :
    (seqFinish r s).bank p = (finish .ctl r s).bank p := rfl

theorem completed_seqFinish (r : ResultCode) (s : State) : Completed .ctl r (seqFinish r s) := by
  constructor
  · simp
  · show ((seqFinish r s).bank .ctl).current.isSome = false
    simp

theorem completed_finish (p : PortId) (r : ResultCode) (s : State) : Completed p r (finish p r s) := by
  simp [Completed, State.busy]

theorem rejected_raise (p : PortId) (r : ResultCode) (s : State) :
    RejectedWith p r s (.next (raise p r s)) := by
  rw [raise_eq]
  exact ⟨_, rfl, completed_finish p r s, onlyStatus_updBank s p (fun _ => r) (fun _ => none),
    onlyBank_updBank s p _⟩

theorem heldOn_holdOn (p : PortId) (i : Instr) (h : Hold) (s : State) :
    HeldOn p i h s (.next (holdOn p i h s)) :=
  ⟨_, rfl, by simp, by simp, onlyStatus_updBank s p (·.rc) _, onlyBank_updBank s p _⟩

theorem started_startSequencer (i : Instr) (x : SeqStep) (s : State) :
    Started i s (startSequencer .ctl i x s) where
  current := by simp
  sequencer := ⟨x, rfl⟩
  rc := by simp
  status := by constructor <;> simp
  device _ := rfl
  dispatcher := ⟨rfl, fun _ => rfl, fun _ _ => rfl, fun _ => rfl⟩
  others _ hr := by rw [bank_startSequencer, bank_updBank_other _ _ _ hr]
  outside := ⟨rfl, rfl, rfl, rfl⟩

theorem posted_postMessage (p : PortId) (q : QueueId) (s : State) :
    Posted p q s (finish p .ok (postMessage p q s)) where
  posted := by simp [postMessage]
  otherPending r x h := by
    show (s.setPendQueue p q _).pendQueue r x = _
    rcases h with h | h
    · exact pendQueue_setPendQueue_port s p q _ h x
    · exact pendQueue_setPendQueue_queue s p q _ h r
  pendFlags r := by simp [postMessage]
  queues _ := rfl
  flags := rfl
  status := by constructor <;> simp
  store := ⟨rfl, rfl, fun _ => rfl, rfl⟩
  others r hr := by rw [finish_eq, bank_updBank_other _ _ _ hr, bank_postMessage]
  outside := ⟨rfl, rfl, rfl, rfl⟩

theorem flagsPosted_postFlags (p : PortId) (ops : List FlagOp) (s : State) :
    FlagsPosted p ops s (finish p .ok (postFlags p ops s)) where
  posted := by simp [postFlags]
  otherPending r h := pendFlags_setPendFlags_other s p _ h
  pendQueues r x := by simp [postFlags]
  queues _ := rfl
  flags := rfl
  status := by constructor <;> simp
  store := ⟨rfl, rfl, fun _ => rfl, rfl⟩
  others r hr := by rw [finish_eq, bank_updBank_other _ _ _ hr, bank_postFlags]
  outside := ⟨rfl, rfl, rfl, rfl⟩

theorem received_receive {p : PortId} {q : QueueId} {s : State} {m : Image} {rest : List Image}
    (h : s.queue q = m :: rest) (hl : m.length = (s.bank p).msg.length) :
    Completed p .ok (receive p q s) ∧ Received p q m rest s (receive p q s) := by
  rw [receive_cons h]
  have hm : splice m (s.bank p).msg = m := by
    rw [splice_of_le (Nat.le_of_eq hl), hl, List.drop_length, List.append_nil]
  refine ⟨by simp [Completed, State.busy], ?_⟩
  constructor
  · simpa using hm
  · simp
  · simp
  · intro x hx; simpa using queue_setQueue_other s q rest hx
  · intro r x; simp
  · intro r; simp
  · simp
  · simp
  · simp
  · exact ⟨rfl, rfl, fun _ => rfl, rfl⟩
  · intro r hr; rw [bank_updBank_other _ _ _ hr, bank_setQueue]
  · exact ⟨rfl, rfl, rfl, rfl⟩

/-! ### Transitivity -/

protected theorem SameDispatcher.trans {s t u : State} (h : SameDispatcher s t)
    (h' : SameDispatcher t u) : SameDispatcher s u :=
  ⟨h'.flags.trans h.flags, fun q => (h'.queues q).trans (h.queues q),
    fun p q => (h'.pendQueues p q).trans (h.pendQueues p q),
    fun p => (h'.pendFlags p).trans (h.pendFlags p)⟩

protected theorem StoreFrame.trans {s t u : State} (h : StoreFrame s t) (h' : StoreFrame t u) :
    StoreFrame s u where
  crc := h'.crc.trans h.crc
  msg := h'.msg.trans h.msg
  dispatcher := h.dispatcher.trans h'.dispatcher
  others r hr := (h'.others r hr).trans (h.others r hr)
  outside := ⟨h'.outside.cfg.trans h.outside.cfg, h'.outside.issuer.trans h.outside.issuer,
    h'.outside.script.trans h.outside.script, h'.outside.tick.trans h.outside.tick⟩

protected theorem StoreFrameNoData.trans {s t u : State} (h : StoreFrameNoData s t)
    (h' : StoreFrameNoData t u) : StoreFrameNoData s u where
  toStoreFrame := h.toStoreFrame.trans h'.toStoreFrame
  buf := h'.buf.trans h.buf
  res0 := h'.res0.trans h.res0

/-! ### What every sequencer step leaves alone -/

theorem storeFrameNoData_seqGo (cmd : Instr) (x : SeqStep) {s t : State} (h : StoreFrameNoData s t) :
    StoreFrameNoData s (seqGo cmd x t) :=
  ⟨⟨h.crc, h.msg, ⟨h.dispatcher.flags, h.dispatcher.queues, h.dispatcher.pendQueues,
    h.dispatcher.pendFlags⟩, h.others,
    ⟨h.outside.cfg, h.outside.issuer, h.outside.script, h.outside.tick⟩⟩, h.buf, h.res0⟩

theorem storeFrameNoData_seqFinish (r : ResultCode) {s t : State} (h : StoreFrameNoData s t) :
    StoreFrameNoData s (seqFinish r t) := by
  have e : ∀ x, (seqFinish r t).bank x = (finish .ctl r t).bank x := fun _ => rfl
  refine ⟨⟨?_, ?_, ⟨h.dispatcher.flags, h.dispatcher.queues, h.dispatcher.pendQueues,
    h.dispatcher.pendFlags⟩, fun x hx => ?_,
    ⟨h.outside.cfg, h.outside.issuer, h.outside.script, h.outside.tick⟩⟩, ?_, ?_⟩
  · rw [e]; simpa using h.crc
  · rw [e]; simpa using h.msg
  · rw [e, finish_eq, bank_updBank_other _ _ _ hx]; exact h.others x hx
  · rw [e]; simpa using h.buf
  · rw [e]; simpa using h.res0

end Sys2Proof.Machine
end

