-- ==== Sys2Proof/Laws/HostBus.lean ====
section
/-! SUPPORT. What a host access does: the bank an address is in, which accesses are held, byte lanes,
and the ends of a host step. -/

namespace Sys2Proof.Machine

/-! ### An event is the step of its agent -/

@[simp] theorem runEvent_host (p : PortId) (s : State) : runEvent (.host p) s = hostStep p s := rfl
@[simp] theorem runEvent_port (p : PortId) (s : State) :
    runEvent (.port p) s = .next (retest p s) := rfl
@[simp] theorem runEvent_sequencer (ok : Bool) (took : BitVec 256) (s : State) :
    runEvent (.sequencer ok took) s = seqStep ok took s := rfl
@[simp] theorem runEvent_land (p : PortId) (r : Resource) (s : State) :
    runEvent (.land p r) s = .next (land p r s) := rfl
@[simp] theorem runEvent_powerLoss (took : BitVec 256) (boot : PerPort (List Access)) (s : State) :
    runEvent (.powerLoss took boot) s = .next (powerCycle took boot s) := rfl

/-! ### Addresses -/

theorem bankOffset_base {c : Config} {p : PortId} {k : Nat} (hk : k < 0x400) :
    bankOffset c p (bankBase c p + k) = some k := by
  unfold bankOffset bankSize; rw [if_pos (by omega)]; simp

theorem eq_base_of_bankOffset {c : Config} {p : PortId} {a k : Nat} (h : bankOffset c p a = some k) :
    a = bankBase c p + k := by
  unfold bankOffset at h
  split at h
  · cases h; omega
  · cases h

/-- The one access that issues a command (10_state.md R23). -/
theorem eq_cmdWrite {c : Config} {p : PortId} {a : Access} {off : Nat} {v : Word}
    (ho : bankOffset c p a.addr = some off) (hv : a.op = .write v) (h4 : off < 4) (hw : a.width = .w32)
    (ha : ¬off % a.width.bytes ≠ 0) : a = cmdWrite c p v := by
  obtain ⟨addr, width, op⟩ := a
  dsimp only at ho hv hw ha
  subst hv hw
  rw [eq_base_of_bankOffset ho]
  have h0 : off = 0 := by simp only [Width.bytes] at ha; omega
  rw [h0]; rfl

/-! ### The ends of a host step -/

theorem hostStep_held {p : PortId} {s : State} {a : Access} {rest : List Access} {off : Nat}
    (hh : (s.bank p).host = a :: rest) (ho : bankOffset s.cfg p a.addr = some off)
    (hb : (s.busy p && !isStatusRead off a.op) = true) : hostStep p s = .next s := by
  unfold hostStep; rw [hh]; dsimp only; rw [ho]; dsimp only; rw [if_pos hb]

theorem hostStep_access {p : PortId} {s : State} {a : Access} {rest : List Access} {off : Nat}
    (hh : (s.bank p).host = a :: rest) (ho : bankOffset s.cfg p a.addr = some off)
    (hb : (s.busy p && !isStatusRead off a.op) = false) : hostStep p s = bankAccess p off a s := by
  unfold hostStep; rw [hh]; dsimp only; rw [ho]; dsimp only
  rw [if_neg (by rw [hb]; exact Bool.false_ne_true)]

/-- Everything a host step can do. -/
theorem hostStep_cases {p : PortId} {s t : State} (h : hostStep p s = .next t) :
    t = s
      ∨ (∃ r, t = answer p r s)
      ∨ (∃ a rest v off, (s.bank p).host = a :: rest ∧ a.op = .write v
          ∧ bankOffset s.cfg p a.addr = some off ∧ (s.bank p).current = none
          ∧ ((a = cmdWrite s.cfg p v ∧ ∃ i, decode v = .instr i
                ∧ exec i { answer p .written s with issuer := p } = .next t)
            ∨ (a = cmdWrite s.cfg p v ∧ ∃ why, decode v = .illegal why
                ∧ t = raise p .errOpc { answer p .written s with issuer := p })
            ∨ (t = (answer p .written s).updBank p fun b =>
                { b with buf := spliceAt (off - 0x100) (laneBytes v a.width.bytes) b.buf })
            ∨ (t = (answer p .written s).updBank p fun b =>
                { b with msg := spliceAt (off - 0x200) (laneBytes v a.width.bytes) b.msg }))) := by
  unfold hostStep at h
  split at h
  · exact .inl (by simpa using h.symm)
  · rename_i a rest hh
    split at h
    · exact .inr (.inl ⟨_, by simpa using h.symm⟩)
    · rename_i off ho
      split at h
      · exact .inl (by simpa using h.symm)
      · rename_i hb
        unfold bankAccess at h
        split at h
        · exact .inr (.inl ⟨_, by simpa using h.symm⟩)
        · rename_i hal
          split at h
          · exact .inr (.inl ⟨_, by simpa using h.symm⟩)
          · rename_i v hv
            have hn : (s.bank p).current = none := by
              simpa [isStatusRead, hv, State.busy] using hb
            unfold bankWrite at h
            repeat' split at h
            · rename_i h4 hw
              have hc := eq_cmdWrite ho hv h4 hw hal
              unfold issue at h
              split at h
              · rename_i i hd
                exact .inr (.inr ⟨a, rest, v, off, hh, hv, ho, hn, .inl ⟨hc, i, hd, h⟩⟩)
              · rename_i why hd
                exact .inr (.inr ⟨a, rest, v, off, hh, hv, ho, hn, .inr (.inl
                  ⟨hc, why, hd, by simpa using h.symm⟩)⟩)
            · exact .inr (.inl ⟨_, by simpa using h.symm⟩)
            · exact .inr (.inl ⟨_, by simpa using h.symm⟩)
            · exact .inr (.inr ⟨a, rest, v, off, hh, hv, ho, hn, .inr (.inr (.inl
                (by simpa using h.symm)))⟩)
            · exact .inr (.inr ⟨a, rest, v, off, hh, hv, ho, hn, .inr (.inr (.inr
                (by simpa using h.symm)))⟩)
            · exact .inr (.inl ⟨_, by simpa using h.symm⟩)

/-! ### Buffers and lanes -/

theorem getElem?_splice {xs buf : List Byte} (i : Nat) (h : xs.length ≤ buf.length) :
    (splice xs buf)[i]? = if i < xs.length then xs[i]? else buf[i]? := by
  rw [splice_of_le h, List.getElem?_append]
  split
  · rfl
  · rw [List.getElem?_drop]; congr 1; omega

theorem getElem?_spliceAt {k : Nat} {xs buf : List Byte} (i : Nat) (h : k + xs.length ≤ buf.length) :
    (spliceAt k xs buf)[i]? = if k ≤ i ∧ i < k + xs.length then xs[i - k]? else buf[i]? := by
  unfold spliceAt
  rw [List.getElem?_append, List.length_take]
  by_cases hi : i < k
  · rw [if_pos (by omega), if_neg (by omega), List.getElem?_take]; simp [hi]
  · rw [if_neg (by omega), getElem?_splice _ (by rw [List.length_drop]; omega), List.getElem?_drop]
    rw [show min k buf.length = k by omega]
    by_cases h2 : i < k + xs.length
    · rw [if_pos (by omega), if_pos (by omega)]
    · rw [if_neg (by omega), if_neg (by omega)]; congr 1; omega

@[simp] theorem length_laneBytes (v : Word) (n : Nat) : (laneBytes v n).length = n := by
  simp [laneBytes]

theorem getElem?_laneBytes (v : Word) {n i : Nat} (h : i < n) :
    (laneBytes v n)[i]? = some (lane v i) := by
  simp [laneBytes, lane, h]

/-- A one-byte read. -/
theorem bankRead_one (b : Bank) (off : Nat) : bankRead b off 1 = (bankByte b off).setWidth 32 := by
  simp [bankRead, List.range, List.range.loop, littleEndian]

end Sys2Proof.Machine
end

