-- ==== Sys2Proof/Laws/Record.lean ====
section
/-! SUPPORT. The laws of the CRC run and of records: the shape of `text` and `sealRecord`, and when
`validate` answers what. -/

namespace Sys2Proof.Machine

@[simp] theorem crcRun_nil (c : Half) : crcRun c [] = c := rfl

@[simp] theorem crcRun_cons (c : Half) (b : Byte) (bs : List Byte) :
    crcRun c (b :: bs) = crcRun (crcStep c b) bs := rfl

/-! ### The payload -/

theorem length_text_le (buf : List Byte) (m : Nat) : (text buf m).length ≤ m - 3 := by
  unfold text
  exact Nat.le_trans (List.takeWhile_sublist _).length_le (by simp)

/-- The payload leaves room for its NUL and CRC. -/
theorem length_text_add (buf : List Byte) {m : Nat} (h : 3 ≤ m) : (text buf m).length + 3 ≤ m := by
  have := length_text_le buf m; omega

theorem text_ne_zero {buf : List Byte} {m : Nat} {b : Byte} (h : b ∈ text buf m) : b ≠ 0 := by
  have := List.all_takeWhile (p := fun x : Byte => decide (x ≠ 0)) (l := buf.take (m - 3))
  rw [List.all_eq_true] at this
  simpa using this b h

/-! ### The image -/

theorem length_sealRecord {t : List Byte} {m : Nat} (h : t.length + 3 ≤ m) :
    (sealRecord t m).length = m := by
  simp [sealRecord]; omega

theorem sealRecord_eq (t : List Byte) (m : Nat) :
    sealRecord t m = t ++ (0 :: hiByte (recordCrc t) :: loByte (recordCrc t)
      :: List.replicate (m - 3 - t.length) 0) := by
  simp [sealRecord, bigEndian]

/-- The first 0x00 of a payload without one, followed by a 0x00. -/
theorem nulIndex_append {t : List Byte} (h : ∀ b ∈ t, b ≠ 0) (rest : List Byte) :
    nulIndex (t ++ 0 :: rest) = t.length := by
  induction t with
  | nil => simp [nulIndex, List.findIdx_cons]
  | cons b t ih =>
    have hb : ¬ b = 0#8 := h b List.mem_cons_self
    have := ih fun x hx => h x (List.mem_cons_of_mem _ hx)
    simp only [nulIndex] at this
    rw [nulIndex, List.cons_append, List.findIdx_cons, this]
    simp [hb]

/-- The two answers of `validate`. -/
theorem validate_eq_ok {r : List Byte} {m k : Nat} (h : validate r m = .ok k) :
    k = nulIndex r ∧ k < r.length ∧ k + 3 ≤ m
      ∧ r[k + 1]? = some (hiByte (crcRun crcSeed (r.take (k + 1))))
      ∧ r[k + 2]? = some (loByte (crcRun crcSeed (r.take (k + 1)))) := by
  simp only [validate] at h
  split at h
  · rename_i hlt
    split at h
    · rename_i hc
      cases h
      exact ⟨rfl, hlt.1, hlt.2, hc.1, hc.2⟩
    · cases h
  · cases h

/-- A record whose payload, terminator and CRC stand in place validates. -/
theorem validate_of_layout {t rest : List Byte} {m : Nat} (h : ∀ b ∈ t, b ≠ 0)
    (hm : t.length + 3 ≤ m) :
    validate (t ++ 0 :: hiByte (recordCrc t) :: loByte (recordCrc t) :: rest) m = .ok t.length := by
  have hn := nulIndex_append h (hiByte (recordCrc t) :: loByte (recordCrc t) :: rest)
  have ht : (t ++ 0 :: hiByte (recordCrc t) :: loByte (recordCrc t) :: rest).take (t.length + 1)
      = t ++ [0] := by
    rw [List.take_append, List.take_of_length_le (by omega)]; simp
  simp only [validate, hn, ht]
  have h1 : t.length < (t ++ 0 :: hiByte (recordCrc t) :: loByte (recordCrc t) :: rest).length := by
    simp
  rw [if_pos ⟨h1, hm⟩, if_pos]
  simp [recordCrc]

end Sys2Proof.Machine
end

