-- ==== Sys2Proof/Laws/Invariant.lean ====
section
/-! SUPPORT. How the invariant of Safety.lean passes through each shared operation. -/

namespace Sys2Proof.Machine

/-! ### The commands a decoder gives are well formed -/

theorem decode_wellFormed {w : Word} {i : Instr} (h : decode w = .instr i) : i.wellFormed = true := by
  unfold decode at h
  split at h
  all_goals first
    | simp only [decodeN, decodeB, decodeL, decodeAL, decodeS, decodeQ, decodeF] at h
    | skip
  all_goals first | (split at h <;> [skip; cases h]) | skip
  all_goals cases h
  all_goals first | rfl | exact decide_eq_true (BitVec.isLt _)

/-! ### The log ring lies in the device, below its pointer -/

theorem slot_below_pointer {c : Config} (hc : ConfigLegal c) {i : Nat} (hi : i < c.logCount) :
    slotAddr c i + slotBytes ≤ c.logAddrStorage := by
  have := hc.2.1
  unfold slotAddr
  unfold slotBytes at *
  omega

theorem slot_in_device {c : Config} (hc : ConfigLegal c) {i n : Nat} (hi : i < c.logCount)
    (hn : n ≤ slotBytes) : inDevice c (slotAddr c i) n = true := by
  have h1 := slot_below_pointer hc hi
  have h2 := hc.2.2.1.1
  unfold inDevice
  rw [decide_eq_true_eq]
  omega

theorem pointer_in_device {c : Config} (hc : ConfigLegal c) :
    inDevice c c.logAddrStorage 2 = true := decide_eq_true hc.2.2.1.1

/-- A valid pointer is the address of a slot (42_log.md R161). -/
theorem validPointer_slot {c : Config} (hc : ConfigLegal c) {p : Nat} (h : validPointer c p = true) :
    ∃ i, i < c.logCount ∧ p = slotAddr c i := by
  simp only [validPointer, Bool.and_eq_true, decide_eq_true_eq] at h
  obtain ⟨⟨h1, h2⟩, h3⟩ := h
  have hn := hc.1.1
  unfold maxLogAddress slotAddr at h2
  unfold slotAddr
  unfold slotBytes at h2 h3 ⊢
  exact ⟨(p - c.minLogAddr) / 64, by omega, by omega⟩

theorem slot_validPointer {c : Config} {i : Nat} (hi : i < c.logCount) :
    validPointer c (slotAddr c i) = true := by
  simp only [validPointer, Bool.and_eq_true, decide_eq_true_eq]
  unfold maxLogAddress slotAddr slotBytes
  refine ⟨⟨?_, ?_⟩, ?_⟩ <;> omega

/-! ### Changing one bank -/

protected theorem State.Inv.updBank {s : State} (h : s.Inv) (p : PortId) (f : Bank → Bank)
    (hb : (f (s.bank p)).buf.length = 256) (hm : (f (s.bank p)).msg.length = 128)
    (hs : p = .ctl → s.seq.Fits s.cfg (f (s.bank p)).current)
    (hc : ∀ cur, (f (s.bank p)).current = some cur → cur.Fits p (f (s.bank p)).msg s.seq)
    (hg : ∀ i q, (f (s.bank p)).current = some ⟨i, some (.gate q)⟩ →
      s.pendFlags p ≠ [] ∨ s.flag .connected = true) :
    (s.updBank p f).Inv where
  legal := h.legal
  bufLength r := by
    by_cases hr : r = p
    · subst hr; simpa using hb
    · rw [bank_updBank_other _ _ _ hr]; exact h.bufLength r
  msgLength r := by
    by_cases hr : r = p
    · subst hr; simpa using hm
    · rw [bank_updBank_other _ _ _ hr]; exact h.msgLength r
  scrLength := h.scrLength
  devForm := h.devForm
  devRange := h.devRange
  capacity := h.capacity
  depth := h.depth
  landed := h.landed
  pending := h.pending
  senders := h.senders
  flagOwner := h.flagOwner
  sequencer := by
    by_cases hp : PortId.ctl = p
    · subst hp; simpa using hs rfl
    · rw [bank_updBank_other _ _ _ hp]; exact h.sequencer
  current r cur := by
    by_cases hr : r = p
    · subst hr; simpa using hc cur
    · rw [bank_updBank_other _ _ _ hr]; exact h.current r cur
  gates r i q := by
    by_cases hr : r = p
    · subst hr; simpa using hg i q
    · rw [bank_updBank_other _ _ _ hr]; exact h.gates r i q

/-- SEQ is idle while CTL has no current command. -/
protected theorem State.Inv.seq_idle {s : State} (h : s.Inv) (hc : (s.bank .ctl).current = none) : s.seq = .idle := by
  have := h.sequencer
  cases hs : s.seq with
  | idle => rfl
  | active cmd todo => rw [hs, hc] at this; simp [Seq.Fits] at this

/-- SEQ is idle while CTL's command is held. -/
protected theorem State.Inv.seq_idle_of_hold {s : State} (h : s.Inv) {i : Instr} {x : Hold}
    (hc : (s.bank .ctl).current = some ⟨i, some x⟩) : s.seq = .idle := by
  have := h.sequencer
  cases hs : s.seq with
  | idle => rfl
  | active cmd todo => rw [hs, hc] at this; simp [Seq.Fits] at this

/-- A port without a command the sequencer runs completes, its registers changing within their form. -/
protected theorem State.Inv.complete {s : State} (h : s.Inv) (p : PortId) (hi : p = .ctl → s.seq = .idle)
    (f : Bank → Bank) (hb : (f (s.bank p)).buf.length = 256) (hm : (f (s.bank p)).msg.length = 128)
    (hc : (f (s.bank p)).current = none) : (s.updBank p f).Inv := by
  refine h.updBank p f hb hm (fun hp => ?_) (fun cur hcur => ?_) (fun i q hcur => ?_)
  · rw [hi hp]; trivial
  · rw [hc] at hcur; cases hcur
  · rw [hc] at hcur; cases hcur

protected theorem State.Inv.finish {s : State} (h : s.Inv) (p : PortId) (r : ResultCode)
    (hi : p = .ctl → s.seq = .idle) : (finish p r s).Inv :=
  h.complete p hi _ (h.bufLength p) (h.msgLength p) rfl

protected theorem State.Inv.hold {s : State} (h : s.Inv) (p : PortId) (hi : p = .ctl → s.seq = .idle) (i : Instr)
    (x : Hold) (hx : x.Fits p (s.bank p).msg i) (hl : x.lifted p s = false) : (holdOn p i x s).Inv := by
  refine h.updBank p _ (by simpa using h.bufLength p) (by simpa using h.msgLength p)
    (fun hp => ?_) (fun cur hcur => ?_) (fun j q hcur => ?_)
  · rw [hi hp]; trivial
  · cases hcur; exact hx
  · cases hcur
    by_cases hp : s.pendFlags p = []
    · cases hf : s.flag .connected
      · rw [lifted_gate.2 ⟨hp, .inl hf⟩] at hl; cases hl
      · exact .inr rfl
    · exact .inl hp

/-! ### Who runs a command does not matter to the invariant -/

protected theorem State.Inv.withIssuer {s : State} (h : s.Inv) (p : PortId) : State.Inv { s with issuer := p } :=
  ⟨h.1, h.2, h.3, h.4, h.5, h.6, h.7, h.8, h.9, h.10, h.11, h.12, h.13, h.14, h.15⟩

protected theorem State.Inv.advance {s : State} (h : s.Inv) : (advance s).Inv :=
  ⟨h.1, h.2, h.3, h.4, h.5, h.6, h.7, h.8, h.9, h.10, h.11, h.12, h.13, h.14, h.15⟩

/-! ### The dispatcher -/

protected theorem State.Inv.setQueue {s : State} (h : s.Inv) (q : QueueId) (l : List Image)
    (hn : (s.setQueue q l).load q ≤ queueCapacity) (hl : ∀ m ∈ l, LegalImage m) :
    (s.setQueue q l).Inv where
  legal := h.legal
  bufLength := h.bufLength
  msgLength := h.msgLength
  scrLength := h.scrLength
  devForm := h.devForm
  devRange := h.devRange
  capacity x := by
    by_cases hx : x = q
    · subst hx; exact hn
    · rw [load_setQueue_other s l hx]; exact h.capacity x
  depth := h.depth
  landed x := by
    by_cases hx : x = q
    · subst hx; simpa using hl
    · rw [queue_setQueue_other s q l hx]; exact h.landed x
  pending := h.pending
  senders := h.senders
  flagOwner := h.flagOwner
  sequencer := h.sequencer
  current := h.current
  gates := h.gates

protected theorem State.Inv.setPendQueue {s : State} (h : s.Inv) (p : PortId) (q : QueueId) (l : List Image)
    (hn : (s.setPendQueue p q l).load q ≤ queueCapacity) (hl : ∀ m ∈ l, LegalImage m)
    (hr : l ≠ [] → maySend p q = true) : (s.setPendQueue p q l).Inv where
  legal := h.legal
  bufLength := h.bufLength
  msgLength := h.msgLength
  scrLength := h.scrLength
  devForm := h.devForm
  devRange := h.devRange
  capacity x := by
    by_cases hx : x = q
    · subst hx; exact hn
    · rw [load_setPendQueue_other s p l hx]; exact h.capacity x
  depth r := by simpa using h.depth r
  landed := h.landed
  pending r x := by
    by_cases hx : x = q
    · by_cases hp : r = p
      · subst hx hp; simpa using hl
      · rw [pendQueue_setPendQueue_port s p q l hp]; exact h.pending r x
    · rw [pendQueue_setPendQueue_queue s p q l hx]; exact h.pending r x
  senders r x := by
    by_cases hx : x = q
    · by_cases hp : r = p
      · subst hx hp; simpa using hr
      · rw [pendQueue_setPendQueue_port s p q l hp]; exact h.senders r x
    · rw [pendQueue_setPendQueue_queue s p q l hx]; exact h.senders r x
  flagOwner r := by simpa using h.flagOwner r
  sequencer := h.sequencer
  current := h.current
  gates r := by simpa [State.flag] using h.gates r

protected theorem State.Inv.setPendFlags {s : State} (h : s.Inv) (p : PortId) (ops : List FlagOp)
    (hn : ops.length ≤ s.cfg.flagPendDepth) (ha : ∀ op ∈ ops, allowed p op = true)
    (hk : s.pendFlags p ≠ [] → ops ≠ []) : (s.setPendFlags p ops).Inv where
  legal := h.legal
  bufLength := h.bufLength
  msgLength := h.msgLength
  scrLength := h.scrLength
  devForm := h.devForm
  devRange := h.devRange
  capacity x := by simpa using h.capacity x
  depth r := by
    by_cases hr : r = p
    · subst hr; simpa using hn
    · rw [pendFlags_setPendFlags_other s p ops hr]; exact h.depth r
  landed := h.landed
  pending r x := by simpa using h.pending r x
  senders r x := by simpa using h.senders r x
  flagOwner r := by
    by_cases hr : r = p
    · subst hr; simpa using ha
    · rw [pendFlags_setPendFlags_other s p ops hr]; exact h.flagOwner r
  sequencer := h.sequencer
  current := h.current
  gates r i q hc := by
    by_cases hr : r = p
    · subst hr; rw [pendFlags_setPendFlags]; exact (h.gates r i q hc).imp_left hk
    · rw [pendFlags_setPendFlags_other s p ops hr]; exact h.gates r i q hc

/-- A change of FLAGS that does not disconnect. -/
protected theorem State.Inv.withFlags {s : State} (h : s.Inv) (f : BitVec 2)
    (hf : s.flags.getLsbD 0 = true → f.getLsbD 0 = true) : State.Inv { s with flags := f } :=
  ⟨h.1, h.2, h.3, h.4, h.5, h.6, h.7, h.8, h.9, h.10, h.11, h.12, h.13, h.14,
    fun p i q hc => (h.gates p i q hc).imp_right hf⟩

protected theorem State.Inv.postMessage {s : State} (h : s.Inv) {p : PortId} {q : QueueId}
    (hl : s.load q < queueCapacity) (hr : maySend p q = true)
    (ht : legalTag (s.bank p).msg = true) : (postMessage p q s).Inv := by
  refine h.setPendQueue p q _ ?_ ?_ (fun _ => hr)
  · have := load_setPendQueue s p q (s.pendQueue p q ++ [(s.bank p).msg])
    simp only [List.length_append, List.length_singleton] at this
    omega
  · intro m hm
    rcases List.mem_append.1 hm with hm | hm
    · exact h.pending p q m hm
    · rw [List.mem_singleton.1 hm]; exact ⟨h.msgLength p, ht⟩

protected theorem State.Inv.postFlags {s : State} (h : s.Inv) {p : PortId} {ops : List FlagOp}
    (hn : (s.pendFlags p).length + ops.length ≤ s.cfg.flagPendDepth)
    (ha : ops.all (allowed p) = true) : (postFlags p ops s).Inv := by
  refine h.setPendFlags p _ (by simpa using hn) (fun op hop => ?_) (fun h0 => by simp [h0])
  rcases List.mem_append.1 hop with hop | hop
  · exact h.flagOwner p op hop
  · exact List.all_eq_true.1 ha op hop

protected theorem State.Inv.receive {s : State} (h : s.Inv) (p : PortId) (hi : p = .ctl → s.seq = .idle)
    (q : QueueId) : (receive p q s).Inv := by
  cases hq : s.queue q with
  | nil => rw [receive_nil hq]; exact h
  | cons m rest =>
    rw [receive_cons hq]
    have hload := load_setQueue s q rest
    have hcap := h.capacity q
    rw [hq, List.length_cons] at hload
    have h' := h.setQueue q rest (by omega)
      fun x hx => h.landed q x (by rw [hq]; exact List.mem_cons_of_mem _ hx)
    exact h'.complete p hi _ (by simpa using h.bufLength p) (by simpa using h.msgLength p) rfl

protected theorem State.Inv.landMessage {s : State} (h : s.Inv) (p : PortId) (q : QueueId) :
    (landMessage p q s).Inv := by
  cases hp : s.pendQueue p q with
  | nil => rw [landMessage_nil hp]; exact h
  | cons m rest =>
    rw [landMessage_cons hp]
    have h1 := load_setPendQueue s p q rest
    have hcap := h.capacity q
    rw [hp, List.length_cons] at h1
    have h' := h.setPendQueue p q rest (by omega)
      (fun x hx => h.pending p q x (by rw [hp]; exact List.mem_cons_of_mem _ hx))
      (fun _ => h.senders p q (by simp [hp]))
    refine h'.setQueue q _ ?_ fun x hx => ?_
    · have h2 := load_setQueue (s.setPendQueue p q rest) q (s.queue q ++ [m])
      simp only [queue_setPendQueue, List.length_append, List.length_singleton] at h2
      omega
    · rcases List.mem_append.1 hx with hx | hx
      · exact h.landed q x hx
      · rw [List.mem_singleton.1 hx]; exact h.pending p q m (by simp [hp])

/-- Retesting the gates restores the last clause of the invariant and keeps every other. -/
protected theorem State.Inv.retestGates {s t : State} (h : s.Inv) (hcfg : t.cfg = s.cfg)
    (hbank : ∀ r, t.bank r = s.bank r) (hseq : t.seq = s.seq) (hscr : t.scr = s.scr) (hdev : t.dev = s.dev)
    (hq : ∀ q, t.queue q = s.queue q) (hpq : ∀ r q, t.pendQueue r q = s.pendQueue r q)
    (hd : ∀ r, (t.pendFlags r).length ≤ s.cfg.flagPendDepth)
    (ho : ∀ r, ∀ op ∈ t.pendFlags r, allowed r op = true) : (retestGates t).Inv := by
  have hb : ∀ r, gateClosed r t = true ∧ (Machine.retestGates t).bank r = { s.bank r with rc := .dropped, current := none }
      ∨ gateClosed r t = false ∧ (Machine.retestGates t).bank r = s.bank r := by
    intro r
    rw [bank_retestGates, hbank]
    split
    · exact .inl ⟨‹_›, rfl⟩
    · exact .inr ⟨Bool.eq_false_iff.2 ‹_›, rfl⟩
  have hcur : ∀ r cur, ((Machine.retestGates t).bank r).current = some cur →
      gateClosed r t = false ∧ (s.bank r).current = some cur := by
    intro r cur hc
    rcases hb r with ⟨_, e⟩ | ⟨g, e⟩ <;> rw [e] at hc
    · cases hc
    · exact ⟨g, hc⟩
  refine
    { legal := hcfg ▸ h.legal
      bufLength := fun r => by rcases hb r with ⟨_, e⟩ | ⟨_, e⟩ <;> rw [e] <;> exact h.bufLength r
      msgLength := fun r => by rcases hb r with ⟨_, e⟩ | ⟨_, e⟩ <;> rw [e] <;> exact h.msgLength r
      scrLength := hscr ▸ h.scrLength
      devForm := hdev ▸ h.devForm
      devRange := by simpa [hdev, hcfg] using h.devRange
      capacity := fun q => by simpa [State.load, hq, hpq] using h.capacity q
      depth := fun r => by simpa [hcfg] using hd r
      landed := fun q => by simpa [hq] using h.landed q
      pending := fun r q => by simpa [hpq] using h.pending r q
      senders := fun r q => by simpa [hpq] using h.senders r q
      flagOwner := ho
      sequencer := ?_
      current := fun r cur hc => ?_
      gates := fun r i q hc => ?_ }
  · rcases hb .ctl with ⟨g, e⟩ | ⟨_, e⟩ <;> rw [e, retestGates_seq, retestGates_cfg, hseq, hcfg]
    · obtain ⟨⟨i, q, hc⟩, -⟩ := gateClosed_eq_true.1 g
      rw [hbank] at hc
      rw [h.seq_idle_of_hold hc]; trivial
    · exact h.sequencer
  · rw [show ((Machine.retestGates t).bank r).msg = (s.bank r).msg by
      rcases hb r with ⟨_, e⟩ | ⟨_, e⟩ <;> rw [e], retestGates_seq, hseq]
    exact h.current r cur (hcur r cur hc).2
  · obtain ⟨g, hc⟩ := hcur r _ hc
    rw [← hbank] at hc
    by_cases hn : t.pendFlags r = []
    · refine .inr (Decidable.byContradiction fun hf => ?_)
      rw [gateClosed_eq_true.2 ⟨⟨i, q, hc⟩, hn, Bool.eq_false_iff.2 hf⟩] at g
      cases g
    · exact .inl hn

/-- In a state that satisfies the invariant no gate is closed: retesting the gates in any other step too
would change nothing (43_dispatch.md R185). -/
theorem retestGates_of_inv {s : State} (h : s.Inv) : retestGates s = s := by
  have hb : ∀ r, (retestGates s).bank r = s.bank r := by
    intro r
    rw [bank_retestGates, if_neg]
    rw [gateClosed_eq_true]
    rintro ⟨⟨i, q, hc⟩, hn, hf⟩
    rcases h.gates r i q hc with hp | hp
    · exact hp hn
    · rw [hf] at hp; cases hp
  obtain ⟨cfg, ⟨c, u, n⟩, flags, queues, pend, seq, scr, dev, bus, issuer, script, tick⟩ := s
  have h1 := hb .ctl
  have h2 := hb .ui
  have h3 := hb .net
  simp only [State.bank, PerPort.get, retestGates] at h1 h2 h3
  simp only [retestGates, State.bank, PerPort.get, h1, h2, h3]

protected theorem State.Inv.landFlag {s : State} (h : s.Inv) (p : PortId) : (landFlag p s).Inv := by
  cases hp : s.pendFlags p with
  | nil => rw [landFlag_nil hp]; exact h
  | cons op rest =>
    rw [landFlag_cons hp]
    have hd := h.depth p
    rw [hp, List.length_cons] at hd
    have hk : ∀ r, State.pendFlags { s.setPendFlags p rest with flags := op.apply s.flags } r
        = (s.setPendFlags p rest).pendFlags r := fun _ => rfl
    refine h.retestGates rfl (fun _ => rfl) rfl rfl rfl (fun _ => rfl) (fun r q => ?_) (fun r => ?_) (fun r x hx => ?_)
    · exact pendQueue_setPendFlags s p rest r q
    · rw [hk]
      by_cases hr : r = p
      · subst hr; simp; omega
      · rw [pendFlags_setPendFlags_other s p rest hr]; exact h.depth r
    · rw [hk] at hx
      by_cases hr : r = p
      · subst hr
        exact h.flagOwner r x (by rw [hp]; exact List.mem_cons_of_mem _ (by simpa using hx))
      · rw [pendFlags_setPendFlags_other s p rest hr] at hx; exact h.flagOwner r x hx

protected theorem State.Inv.land {s : State} (h : s.Inv) (p : PortId) (r : Resource) : (land p r s).Inv := by
  cases r with
  | queue q => exact h.landMessage p q
  | flags => exact h.landFlag p

/-! ### Holds -/

protected theorem State.Inv.resume {s : State} (h : s.Inv) (p : PortId) (hi : p = .ctl → s.seq = .idle) {i : Instr}
    {x : Hold} (hx : x.Fits p (s.bank p).msg i) (hl : x.lifted p s = true) : (x.resume p s).Inv := by
  cases x with
  | credit q =>
    exact (h.postMessage (lifted_credit.1 hl) hx.2.1 hx.2.2).finish p .ok hi
  | gate q =>
    rw [lifted_gate] at hl
    cases hc : s.flag .connected
    · simp only [Hold.resume, hc, if_true]
      exact h.finish p .dropped hi
    · simp only [Hold.resume, hc, Bool.true_eq_false, if_false]
      have hq : s.load q < queueCapacity := by
        rcases hl.2 with h' | h'
        · rw [hc] at h'; cases h'
        · exact h'
      exact (h.postMessage hq hx.2.1 hx.2.2).finish p .ok hi
  | entry q => exact h.receive p hi q
  | depth ops =>
    exact (h.postFlags (lifted_depth.1 hl) hx.2.2).finish p .ok hi
  | ownFlags =>
    simp only [Hold.resume, finish_eq, setRes0_eq, updBank_updBank]
    exact h.complete p hi _ (by simpa using h.bufLength p) (by simpa using h.msgLength p) rfl

protected theorem State.Inv.awaitHold {s : State} (h : s.Inv) (p : PortId) (hi : p = .ctl → s.seq = .idle) (i : Instr)
    {x : Hold} (hx : x.Fits p (s.bank p).msg i) : (awaitHold p i x s).Inv := by
  unfold Machine.awaitHold
  split
  · exact h.resume p hi hx ‹_›
  · exact h.hold p hi i x hx (Bool.eq_false_iff.2 ‹_›)

protected theorem State.Inv.retest {s : State} (h : s.Inv) (p : PortId) : (retest p s).Inv := by
  rcases retest_cases p s with heq | ⟨i, x, hc, hl, heq⟩
  · rw [heq]; exact h
  · rw [heq]
    refine h.resume p (fun hp => ?_) (h.current p _ hc) hl
    subst hp; exact h.seq_idle_of_hold hc

/-! ### The store -/

/-- What a step of the sequencer, or the start of one, must keep. -/
protected theorem State.Inv.store {s t : State} (h : s.Inv) (hcfg : t.cfg = s.cfg)
    (hbank : ∀ r, r ≠ PortId.ctl → t.bank r = s.bank r) (hq : t.queues = s.queues)
    (hp : t.pend = s.pend) (hfl : t.flags = s.flags) (hscr : t.scr.length = 256) (hform : Memory.wf t.dev)
    (hrange : ∀ c ∈ t.dev, c.1 < s.cfg.devSize) (hbuf : (t.bank .ctl).buf.length = 256)
    (hmsg : (t.bank .ctl).msg.length = 128) (hseq : t.seq.Fits s.cfg (t.bank .ctl).current)
    (hcur : ∀ cur, (t.bank .ctl).current = some cur →
      cur.hold = none ∧ ∃ todo, t.seq = .active cur.cmd todo) : t.Inv := by
  have e1 : ∀ q, t.queue q = s.queue q := fun q => congrArg (·.get q) hq
  have e2 : ∀ r q, t.pendQueue r q = s.pendQueue r q := fun r q => congrArg (fun d => (d.get r).queues.get q) hp
  have e3 : ∀ r, t.pendFlags r = s.pendFlags r := fun r => congrArg (fun d => (d.get r).flags) hp
  have e4 : ∀ q, t.load q = s.load q := fun q => by simp [State.load, e1, e2]
  refine ⟨hcfg ▸ h.legal, fun r => ?_, fun r => ?_, hscr, hform, hcfg ▸ hrange, fun q => e4 q ▸ h.capacity q,
    fun r => by rw [e3, hcfg]; exact h.depth r, fun q => e1 q ▸ h.landed q,
    fun r q => e2 r q ▸ h.pending r q, fun r q => e2 r q ▸ h.senders r q,
    fun r => e3 r ▸ h.flagOwner r, hcfg ▸ hseq, fun r cur hc => ?_, fun r i q hc => ?_⟩
  · by_cases hr : r = .ctl
    · subst hr; exact hbuf
    · rw [hbank r hr]; exact h.bufLength r
  · by_cases hr : r = .ctl
    · subst hr; exact hmsg
    · rw [hbank r hr]; exact h.msgLength r
  · by_cases hr : r = .ctl
    · subst hr
      obtain ⟨hn, hs⟩ := hcur cur hc
      rw [Current.Fits, hn]; exact ⟨rfl, hs⟩
    · rw [hbank r hr] at hc ⊢
      have := h.current r cur hc
      unfold Current.Fits at this ⊢
      cases hh : cur.hold with
      | none => rw [hh] at this; exact absurd this.1 hr
      | some x => rw [hh] at this; exact this
  · by_cases hr : r = .ctl
    · subst hr; cases (hcur _ hc).1
    · rw [hbank r hr] at hc
      rw [e3, State.flag, hfl]; exact h.gates r i q hc

protected theorem State.Inv.startSequencer {s : State} (h : s.Inv) {i : Instr} {first : SeqStep}
    (hf : first.Fits s.cfg i) : (startSequencer .ctl i first s).Inv := by
  refine h.store rfl (fun r hr => ?_) rfl rfl rfl h.scrLength h.devForm h.devRange ?_ ?_ ?_ ?_
  · rw [bank_startSequencer, bank_updBank_other _ _ _ hr]
  · simpa using h.bufLength .ctl
  · simpa using h.msgLength .ctl
  · exact ⟨by simp, hf⟩
  · intro cur hc
    simp only [bank_startSequencer, bank_updBank, Option.some.injEq] at hc
    subst hc
    exact ⟨rfl, first, rfl⟩

/-! ### A step of the sequencer -/

theorem updBank_self (s : State) (p : PortId) : s.updBank p (fun b => b) = s := by
  simp only [State.updBank]; rw [PerPort.set_get]

/-- The sequencer goes on with the same command. -/
protected theorem State.Inv.seqGo {s t : State} (h : s.Inv) {cmd : Instr} {old next : SeqStep}
    (hs : s.seq = .active cmd old) (hcfg : t.cfg = s.cfg) (hb : ∀ r, t.bank r = s.bank r)
    (hq : t.queues = s.queues) (hp : t.pend = s.pend) (hfl : t.flags = s.flags) (hscr : t.scr.length = 256)
    (hform : Memory.wf t.dev) (hrange : ∀ c ∈ t.dev, c.1 < s.cfg.devSize)
    (hf : next.Fits s.cfg cmd) : (seqGo cmd next t).Inv := by
  have hseq := h.sequencer
  rw [hs] at hseq
  refine h.store hcfg (fun r _ => ?_) hq hp hfl hscr hform hrange ?_ ?_ ?_ ?_
  · simpa using hb r
  · simpa [hb] using h.bufLength .ctl
  · simpa [hb] using h.msgLength .ctl
  · simp only [seqGo_bank, hb, seqGo_seq]
    exact ⟨hseq.1, hf⟩
  · intro cur hc
    simp only [seqGo_bank, hb] at hc
    rw [hseq.1] at hc; cases hc
    exact ⟨rfl, next, rfl⟩

/-- The sequencer ends the command, CTL's registers changing within their form. -/
protected theorem State.Inv.seqFinish {s t : State} (h : s.Inv) (r : ResultCode) (f : Bank → Bank)
    (hcfg : t.cfg = s.cfg) (hb : ∀ r, t.bank r = s.bank r) (hq : t.queues = s.queues)
    (hp : t.pend = s.pend) (hfl : t.flags = s.flags) (hscr : t.scr.length = 256) (hform : Memory.wf t.dev)
    (hrange : ∀ c ∈ t.dev, c.1 < s.cfg.devSize) (hbuf : (f (s.bank .ctl)).buf.length = 256)
    (hmsg : (f (s.bank .ctl)).msg.length = 128) : (seqFinish r (t.updBank .ctl f)).Inv := by
  have e : ∀ x, (Machine.seqFinish r (t.updBank .ctl f)).bank x
      = (t.updBank .ctl fun b => { f b with rc := r, current := none }).bank x := by
    intro x
    show (Machine.finish .ctl r (t.updBank .ctl f)).bank x = _
    rw [finish_eq, updBank_updBank]
  refine h.store hcfg (fun x hx => ?_) hq hp hfl hscr hform hrange ?_ ?_ ?_ ?_
  · rw [e, bank_updBank_other _ _ _ hx, hb]
  · rw [e]; simpa [hb] using hbuf
  · rw [e]; simpa [hb] using hmsg
  · trivial
  · intro cur hc; rw [e] at hc; simp at hc

end Sys2Proof.Machine
end

