-- ==== Sys2Proof/Laws/PerInstr.lean ====
section
/-! SUPPORT. Laws said once for every command: the word of a well-formed command lies in its own row of
spec/opcode_table.json. -/

namespace Sys2Proof.Laws

/-- The word of a well-formed command matches its row of the opcode table (30_encoding.md R108). -/
def TableRow.Statement (i : Instr) : Prop :=
  i.wellFormed = true → encode i &&& i.row.mask = i.row.pattern

/-! ### One lemma per format (30_encoding.md R101) -/

theorem wordN_row (o : Byte) : (wordN o : Word) &&& 0xFFFFFFFF = wordN o := by
  apply BitVec.eq_of_getLsbD_eq
  intro i hi
  simp only [BitVec.getLsbD_and]
  interval_cases i <;> simp

theorem wordB_row (o x : Byte) : (wordB o x : Word) &&& 0xFFFFFF00 = wordN o := by
  apply BitVec.eq_of_getLsbD_eq
  intro i hi
  simp only [wordB, wordN, BitVec.getLsbD_append, BitVec.getLsbD_and]
  interval_cases i <;> simp

theorem wordL_row (o : Byte) (len : Nat) : (wordL o len : Word) &&& 0xFF00FFFF = wordN o := by
  apply BitVec.eq_of_getLsbD_eq
  intro i hi
  simp only [wordL, wordN, BitVec.getLsbD_append, BitVec.getLsbD_and]
  interval_cases i <;> simp

theorem wordAL_row (o : Byte) (addr : Half) (len : Nat) :
    (wordAL o addr len : Word) &&& 0xFF000000 = wordN o := by
  apply BitVec.eq_of_getLsbD_eq
  intro i hi
  simp only [wordAL, wordN, BitVec.getLsbD_append, BitVec.getLsbD_and]
  interval_cases i <;> simp

theorem wordS_row (o : Byte) (slot : Nat) : (wordS o slot : Word) &&& 0xFFFFFF00 = wordN o :=
  wordB_row o (BitVec.ofNat 8 slot)

theorem wordF_row (o : Byte) (mask : BitVec 2) : (wordF o mask : Word) &&& 0xFFFFFFFC = wordN o := by
  apply BitVec.eq_of_getLsbD_eq
  intro i hi
  simp only [wordF, wordN, BitVec.getLsbD_append, BitVec.getLsbD_and]
  interval_cases i <;> simp

theorem wordQ_row (o : Byte) (q : Nat) : (wordQ o q : Word) &&& 0xFFFFFFFC = wordN o :=
  wordF_row o (BitVec.ofNat 2 q)

/-! ### One lemma per command -/

theorem TableRow.crcInit : TableRow.Statement .crcInit :=
  fun _ => wordN_row _

theorem TableRow.crcByte (imm8 : Byte) : TableRow.Statement (.crcByte imm8) :=
  fun _ => wordB_row _ _

theorem TableRow.crcBuf (len : Nat) : TableRow.Statement (.crcBuf len) :=
  fun _ => wordL_row _ _

theorem TableRow.crcSeal (len : Nat) : TableRow.Statement (.crcSeal len) :=
  fun _ => wordL_row _ _

theorem TableRow.crcCheck (len : Nat) : TableRow.Statement (.crcCheck len) :=
  fun _ => wordL_row _ _

theorem TableRow.stWriteStatus (addr : Half) (len : Nat) : TableRow.Statement (.stWriteStatus addr len) :=
  fun _ => wordAL_row _ _ _

theorem TableRow.stReadStatus (addr : Half) (len : Nat) : TableRow.Statement (.stReadStatus addr len) :=
  fun _ => wordAL_row _ _ _

theorem TableRow.stRawRead (addr : Half) (len : Nat) : TableRow.Statement (.stRawRead addr len) :=
  fun _ => wordAL_row _ _ _

theorem TableRow.stRawWrite (addr : Half) (len : Nat) : TableRow.Statement (.stRawWrite addr len) :=
  fun _ => wordAL_row _ _ _

theorem TableRow.logWrite : TableRow.Statement .logWrite :=
  fun _ => wordN_row _

theorem TableRow.logRead (slot : Nat) : TableRow.Statement (.logRead slot) :=
  fun _ => wordS_row _ _

theorem TableRow.logDelete : TableRow.Statement .logDelete :=
  fun _ => wordN_row _

theorem TableRow.qSend (q : Nat) : TableRow.Statement (.qSend q) :=
  fun _ => wordQ_row _ _

theorem TableRow.qSendc (q : Nat) : TableRow.Statement (.qSendc q) :=
  fun _ => wordQ_row _ _

theorem TableRow.qTryrecv (q : Nat) : TableRow.Statement (.qTryrecv q) :=
  fun _ => wordQ_row _ _

theorem TableRow.qRecv (q : Nat) : TableRow.Statement (.qRecv q) :=
  fun _ => wordQ_row _ _

theorem TableRow.flagSet (mask : BitVec 2) : TableRow.Statement (.flagSet mask) :=
  fun _ => wordF_row _ _

theorem TableRow.flagClear (mask : BitVec 2) : TableRow.Statement (.flagClear mask) :=
  fun _ => wordF_row _ _

theorem TableRow.flagGet : TableRow.Statement .flagGet :=
  fun _ => wordN_row _

end Sys2Proof.Laws
end

