-- ==== Sys2Proof/Laws/Sequencer.lean ====
section
/-! SUPPORT. Runs of the sequencer: what one read, one write with its settle, the scan and the wipe of
the log ring do when their transactions succeed. -/

namespace Sys2Proof.Machine

/-! ### Runs -/

theorem seqRun_append (a b : List (Bool × BitVec 256)) (s : State) {t : State}
    (h : seqRun a s = .next t) : seqRun (a ++ b) s = seqRun b t := by
  induction a generalizing s with
  | nil => cases h; rfl
  | cons d a ih =>
    obtain ⟨ok, took⟩ := d
    simp only [List.cons_append, seqRun] at h ⊢
    split at h
    · rename_i hx; exact ih _ h
    · cases h
    · cases h

theorem allSucceed_add (m n : Nat) : allSucceed (m + n) = allSucceed m ++ allSucceed n :=
  (List.replicate_append_replicate).symm

/-- Running m steps and then n. -/
theorem seqRun_add {m n : Nat} {s t : State} (h : seqRun (allSucceed m) s = .next t) :
    seqRun (allSucceed (m + n)) s = seqRun (allSucceed n) t := by
  rw [allSucceed_add, seqRun_append _ _ _ h]

/-- One successful MemRead. -/
theorem seqRun_read {s : State} {cmd : Instr} {addr n : Nat} {k : AfterRead}
    (hs : s.seq = .active cmd (.memRead addr n k)) (hin : inDevice s.cfg addr n = true) :
    seqRun (allSucceed 1) s = .next (afterRead cmd k (memRead true addr n s)) := by
  simp [allSucceed, List.replicate, seqRun, seqStep, hs, hin]

/-- One successful MemWrite and its settle. -/
theorem seqRun_write {s : State} {cmd : Instr} {addr : Nat} {data : List Byte} {k : AfterWrite}
    (hs : s.seq = .active cmd (.memWrite addr data k)) (hin : inDevice s.cfg addr data.length = true) :
    seqRun (allSucceed 2) s = .next (afterWrite cmd k
      (seqGo cmd (settleOf true addr data s.dev k) (memWrite true 0 addr data s))) := by
  simp [allSucceed, List.replicate, seqRun, seqStep, hs, hin, settleOf]

/-! ### Frames of the transactions -/

theorem storeFrameNoData_refl (s : State) : StoreFrameNoData s s :=
  ⟨⟨rfl, rfl, ⟨rfl, fun _ => rfl, fun _ _ => rfl, fun _ => rfl⟩, fun _ _ => rfl,
    ⟨rfl, rfl, rfl, rfl⟩⟩, rfl, rfl⟩

theorem storeFrameNoData_memWrite {s t : State} (h : StoreFrameNoData s t) (ok : Bool)
    (took : BitVec 256) (a : Nat) (d : List Byte) : StoreFrameNoData s (memWrite ok took a d t) :=
  h.trans ⟨⟨rfl, rfl, ⟨rfl, fun _ => rfl, fun _ _ => rfl, fun _ => rfl⟩, fun _ _ => rfl,
    ⟨rfl, rfl, rfl, rfl⟩⟩, rfl, rfl⟩

theorem storeFrameNoData_memRead {s t : State} (h : StoreFrameNoData s t) (ok : Bool) (a n : Nat) :
    StoreFrameNoData s (memRead ok a n t) :=
  h.trans ⟨⟨rfl, rfl, ⟨rfl, fun _ => rfl, fun _ _ => rfl, fun _ => rfl⟩, fun _ _ => rfl,
    ⟨rfl, rfl, rfl, rfl⟩⟩, rfl, rfl⟩

theorem storeFrameNoData_started {i : Instr} {s t : State} (h : Started i s t) :
    StoreFrameNoData s t :=
  ⟨⟨h.status.crc, h.status.msg, h.dispatcher, h.others, h.outside⟩, h.status.buf, h.status.res0⟩

/-! ### What every sequencer step leaves alone -/

/-- The command ends, CTL's registers changing but CRC and MSG. -/
theorem storeFrame_seqFinish (r : ResultCode) {f : Bank → Bank}
    (hf : ∀ b, (f b).crc = b.crc ∧ (f b).msg = b.msg) {s t : State} (h : StoreFrame s t) :
    StoreFrame s (seqFinish r (t.updBank .ctl f)) := by
  refine ⟨?_, ?_, ⟨h.dispatcher.flags, h.dispatcher.queues, h.dispatcher.pendQueues, h.dispatcher.pendFlags⟩,
    fun x hx => ?_, ⟨h.outside.cfg, h.outside.issuer, h.outside.script, h.outside.tick⟩⟩
  · simpa [hf] using h.crc
  · simpa [hf] using h.msg
  · rw [bank_seqFinish, finish_eq, bank_updBank_other _ _ _ hx, bank_updBank_other _ _ _ hx]
    exact h.others x hx

theorem storeFrame_deliver (n : Nat) (v : Half) {s t : State} (h : StoreFrame s t) :
    StoreFrame s (deliver n v t) := by
  unfold deliver
  rw [setRes0_eq, setBuf_eq, updBank_updBank]
  refine storeFrame_seqFinish _ ?_ h
  exact fun _ => ⟨rfl, rfl⟩

theorem storeFrame_deliverRecord (m : Nat) {s t : State} (h : StoreFrameNoData s t) :
    StoreFrame s (deliverRecord m t) := by
  unfold deliverRecord
  split
  · exact storeFrame_deliver _ _ h.toStoreFrame
  · exact (storeFrameNoData_seqFinish _ h).toStoreFrame

/-- Everything a sequencer step leaves alone, whatever its draws (43_dispatch.md R201). -/
theorem storeFrame_seqStep {ok : Bool} {took : BitVec 256} {s t : State} (h : seqStep ok took s = .next t) :
    StoreFrame s t := by
  have h0 := storeFrameNoData_refl s
  rcases seqStep_cases h with ⟨_, rfl⟩ | ⟨cmd, addr, n, k, _, _, ⟨_, rfl⟩ | ⟨_, rfl⟩⟩
    | ⟨cmd, addr, data, k, _, _, rfl⟩ | ⟨cmd, w, k, _, ⟨_, rfl⟩ | ⟨_, rfl⟩⟩
  · exact h0.toStoreFrame
  · have hr := storeFrameNoData_memRead h0 true addr n
    cases k with
    | readStatus m => exact storeFrame_deliverRecord m hr
    | rawRead m => exact storeFrame_deliver _ _ hr.toStoreFrame
    | logPointer =>
      unfold afterRead writeAt
      dsimp only
      split <;> exact (storeFrameNoData_seqGo _ _ hr).toStoreFrame
    | logScan i =>
      unfold afterRead writeAt
      dsimp only
      repeat' split
      all_goals exact (storeFrameNoData_seqGo _ _ hr).toStoreFrame
    | logRead =>
      unfold afterRead
      dsimp only
      split
      · exact (storeFrameNoData_seqFinish _ hr).toStoreFrame
      · exact storeFrame_deliverRecord _ hr
  · exact (storeFrameNoData_seqFinish _ (storeFrameNoData_memRead h0 false addr n)).toStoreFrame
  · exact (storeFrameNoData_seqGo _ _ (storeFrameNoData_memWrite h0 ok took addr data)).toStoreFrame
  · cases k with
    | done v =>
      show StoreFrame s (seqFinish .ok (setRes0 .ctl v s))
      rw [setRes0_eq]
      refine storeFrame_seqFinish _ ?_ h0.toStoreFrame
      exact fun _ => ⟨rfl, rfl⟩
    | wipeSlot i r =>
      unfold afterWrite
      dsimp only
      split <;> exact (storeFrameNoData_seqGo _ _ h0).toStoreFrame
    | wipePointer r =>
      unfold afterWrite writeAt
      dsimp only
      split
      · exact (storeFrameNoData_seqGo _ _ h0).toStoreFrame
      · exact (storeFrameNoData_seqFinish _ h0).toStoreFrame
    | slotRecord p a b => exact (storeFrameNoData_seqGo _ _ h0).toStoreFrame
  · exact (storeFrameNoData_seqFinish _ h0).toStoreFrame

/-! ### The pointer, most significant byte first -/

theorem ofBigEndian_bytes (x : Half) : ofBigEndian (hiByte x) (loByte x) = x := by
  apply BitVec.eq_of_toNat_eq
  have := x.isLt
  unfold ofBigEndian hiByte loByte
  rw [BitVec.toNat_append, ← Nat.shiftLeft_add_eq_or_of_lt (BitVec.isLt _)]
  simp only [BitVec.extractLsb'_toNat, Nat.shiftLeft_eq, Nat.shiftRight_eq_div_pow]
  omega

/-- Reading back a pointer that was written. -/
theorem pointer_read_write {m : Memory} (hm : Memory.wf m) (a : Nat) {v : Nat} (hv : v < 65536) :
    (ofBigEndian ((m.writeBytes a (bigEndian (BitVec.ofNat 16 v))).read a)
      ((m.writeBytes a (bigEndian (BitVec.ofNat 16 v))).read (a + 1))).toNat = v := by
  have h0 := Memory.read_writeBytes_inside hm a (bigEndian (BitVec.ofNat 16 v)) (i := 0) (by simp)
  have h1 := Memory.read_writeBytes_inside hm a (bigEndian (BitVec.ofNat 16 v)) (i := 1) (by simp)
  rw [Nat.add_zero] at h0
  rw [h0, h1]
  simp only [bigEndian, List.getElem_cons_zero, List.getElem_cons_succ, ofBigEndian_bytes,
    BitVec.toNat_ofNat]
  omega

/-- The pointer a successful 2-byte read leaves in SCR. -/
theorem pointerRead_memRead {a : Nat} {s : State} (h : s.scr.length = 256) :
    pointerRead (memRead true a 2 s) = (ofBigEndian (s.dev.read a) (s.dev.read (a + 1))).toNat := by
  match hs : s.scr, h with
  | [], h => simp at h
  | [_], h => simp at h
  | _ :: _ :: _, _ =>
    simp [pointerRead, memRead, Memory.readBytes, List.range, List.range.loop, splice, hs]

/-- The first byte of a successful read in SCR. -/
theorem head_memRead {a n : Nat} {s : State} (h : s.scr.length = 256) :
    (memRead true a (n + 1) s).scr.headD 0 = s.dev.read a := by
  match hs : s.scr, h with
  | [], h => simp at h
  | _ :: _, _ => simp [memRead, Memory.readBytes, List.range_succ_eq_map, splice, hs]

/-! ### The wipe (42_log.md R163) -/

theorem slotAddr_inj {c : Config} {i j : Nat} (h : slotAddr c i = slotAddr c j) : i = j := by
  unfold slotAddr slotBytes at h; omega

/-- From the wipe of slot i on: every slot from i on is marked empty, nothing else changes, and the
pointer write is next. -/
theorem seqRun_wipe (cmd : Instr) (r : Bool) {s₀ : State} (hc : ConfigLegal s₀.cfg) :
    ∀ (n i : Nat) (s : State), i + n = s₀.cfg.logCount → 0 < n →
      s.seq = .active cmd (wipeSlot s₀.cfg i r) → StoreFrameNoData s₀ s → Memory.wf s.dev →
      ∃ t, seqRun (allSucceed (2 * n)) s = .next t ∧ t.seq = .active cmd (wipePointer s₀.cfg r)
        ∧ StoreFrameNoData s₀ t ∧ Memory.wf t.dev ∧ t.scr = s.scr
        ∧ (t.bank .ctl).current = (s.bank .ctl).current
        ∧ (∀ j, i ≤ j → j < s₀.cfg.logCount → t.dev.read (slotAddr s₀.cfg j) = 0)
        ∧ (∀ a, (∀ j, i ≤ j → j < s₀.cfg.logCount → a ≠ slotAddr s₀.cfg j) →
            t.dev.read a = s.dev.read a) := by
  intro n
  induction n with
  | zero => intro i s _ h; omega
  | succ n ih =>
    intro i s hin _ hs hf hw
    have hcfg : s.cfg = s₀.cfg := hf.outside.cfg
    have h2 := seqRun_write hs (by rw [hcfg]; exact slot_in_device hc (by omega) (by decide))
    have hu : StoreFrameNoData s₀ (memWrite true 0 (slotAddr s₀.cfg i) [0] s) :=
      storeFrameNoData_memWrite hf _ _ _ _
    simp only [afterWrite, seqGo_cfg, show (memWrite true 0 (slotAddr s₀.cfg i) [0] s).cfg
      = s₀.cfg from hcfg] at h2
    have hdev : (memWrite true 0 (slotAddr s₀.cfg i) [0] s).dev = s.dev.write (slotAddr s₀.cfg i) 0 :=
      rfl
    by_cases hlast : i + 1 < s₀.cfg.logCount
    · rw [if_pos hlast] at h2
      obtain ⟨t, ht, hts, htf, htw, htscr, htc, hz, ho⟩ := ih (i + 1) _ (by omega) (by omega) rfl
        (storeFrameNoData_seqGo _ _ (storeFrameNoData_seqGo _ _ hu)) (Memory.wf_write hw _ _)
      refine ⟨t, ?_, hts, htf, htw, htscr, htc, fun j hj hj2 => ?_, fun a ha => ?_⟩
      · rw [show 2 * (n + 1) = 2 + 2 * n by omega, seqRun_add h2]; exact ht
      · by_cases hji : j = i
        · subst hji
          rw [ho _ fun k hk _ hh => by have := slotAddr_inj hh; omega]
          exact Memory.read_write_same hw _ _
        · exact hz j (by omega) hj2
      · rw [ho a fun j hj hj2 => ha j (by omega) hj2]
        exact Memory.read_write_other _ _ (ha i (by omega) (by omega))
    · rw [if_neg hlast] at h2
      refine ⟨_, by rw [show 2 * (n + 1) = 2 by omega]; exact h2, rfl,
        storeFrameNoData_seqGo _ _ (storeFrameNoData_seqGo _ _ hu), Memory.wf_write hw _ _, rfl, rfl,
        fun j hj hj2 => ?_, fun a ha => ?_⟩
      · have : j = i := by omega
        subst this
        exact Memory.read_write_same hw _ _
      · exact Memory.read_write_other _ _ (ha i (by omega) (by omega))

/-- The last write of the wipe: the pointer is MIN_LOG_ADDR, nothing else changes. -/
theorem seqRun_wipePointer {cmd : Instr} {r : Bool} {s₀ s : State} (hc : ConfigLegal s₀.cfg)
    (hf : StoreFrameNoData s₀ s) (hs : s.seq = .active cmd (wipePointer s₀.cfg r))
    (hw : Memory.wf s.dev) :
    ∃ t, seqRun (allSucceed 2) s = .next (afterWrite cmd (.wipePointer r) t)
      ∧ StoreFrameNoData s₀ t ∧ t.scr = s.scr ∧ Memory.wf t.dev
      ∧ (ofBigEndian (t.dev.read s₀.cfg.logAddrStorage)
          (t.dev.read (s₀.cfg.logAddrStorage + 1))).toNat = s₀.cfg.minLogAddr
      ∧ (∀ a, a ≠ s₀.cfg.logAddrStorage → a ≠ s₀.cfg.logAddrStorage + 1 →
          t.dev.read a = s.dev.read a) := by
  have hcfg : s.cfg = s₀.cfg := hf.outside.cfg
  refine ⟨_, seqRun_write hs (by rw [hcfg]; exact pointer_in_device hc),
    storeFrameNoData_seqGo _ _ (storeFrameNoData_memWrite hf _ _ _ _), rfl,
    Memory.wf_writeBytes hw _ _, ?_, fun a h1 h2 => ?_⟩
  · exact pointer_read_write hw _ (by have := hc.2.1; have := hc.2.2.1; omega)
  · exact Memory.read_writeBytes_outside (by show _ ∨ _ + 2 ≤ _; omega)

/-! ### The scan (42_log.md R162) -/

/-- From the scan of slot i on, slots i to i+n-1 not empty: the scan has come to slot i + n. -/
theorem seqRun_scan {s₀ : State} (hc : ConfigLegal s₀.cfg) :
    ∀ (n i : Nat) (s : State), i + n < s₀.cfg.logCount →
      s.seq = .active .logWrite (scanSlot s₀.cfg i) → StoreFrameNoData s₀ s → s.scr.length = 256 →
      (∀ j, i ≤ j → j < i + n → s.dev.read (slotAddr s₀.cfg j) ≠ 0) →
      ∃ t, seqRun (allSucceed n) s = .next t ∧ t.seq = .active .logWrite (scanSlot s₀.cfg (i + n))
        ∧ StoreFrameNoData s₀ t ∧ t.dev = s.dev ∧ t.scr.length = 256
        ∧ (t.bank .ctl).current = (s.bank .ctl).current := by
  intro n
  induction n with
  | zero => intro i s _ hs hf hscr _; exact ⟨s, rfl, hs, hf, rfl, hscr, rfl⟩
  | succ n ih =>
    intro i s hin hs hf hscr hne
    have hcfg : s.cfg = s₀.cfg := hf.outside.cfg
    have h1 := seqRun_read hs (by rw [hcfg]; exact slot_in_device hc (by omega) (by decide))
    have hhead := head_memRead (a := slotAddr s₀.cfg i) (n := 0) hscr
    rw [Nat.zero_add] at hhead
    have hne0 := hne i (by omega) (by omega)
    rw [← hhead] at hne0
    simp only [afterRead, memRead_cfg, hcfg] at h1
    rw [if_neg hne0, if_pos (by omega)] at h1
    obtain ⟨t, ht, hts, htf, htd, htscr, htc⟩ := ih (i + 1)
      (seqGo .logWrite (scanSlot s₀.cfg (i + 1)) (memRead true (slotAddr s₀.cfg i) 1 s)) (by omega)
      rfl (storeFrameNoData_seqGo _ _ (storeFrameNoData_memRead hf _ _ _))
      (by rw [seqGo_scr, length_memRead_scr]; exact hscr) (fun j hj hj2 => hne j (by omega) (by omega))
    refine ⟨t, ?_, ?_, htf, htd, htscr, htc⟩
    · rw [show n + 1 = 1 + n by omega, seqRun_add h1]; exact ht
    · rw [show i + (n + 1) = i + 1 + n by omega]; exact hts

/-! ### RES0 of LOG_WRITE (42_log.md R164) -/

/-- RES0 as a number: the slot, 0x100 when scanned, 0x200 when wiped. -/
theorem logReport_slot (c : Config) {i : Nat} (hi : i < 256) (scanned wiped : Bool) :
    logReport c (slotAddr c i) scanned wiped
      = BitVec.ofNat 16 ((if wiped then 0x200 else 0) + (if scanned then 0x100 else 0) + i) := by
  have key : ∀ (a b : Bool) (i : Fin 256),
      (0#6 ++ BitVec.ofBool b ++ BitVec.ofBool a ++ BitVec.ofNat 8 i.1 : BitVec 16)
        = BitVec.ofNat 16 ((if b then 0x200 else 0) + (if a then 0x100 else 0) + i.1) := by
    decide +kernel
  have hdiv : (c.minLogAddr + 64 * i - c.minLogAddr) / 64 = i := by omega
  unfold logReport slotAddr slotBytes
  rw [hdiv]
  exact key scanned wiped ⟨i, hi⟩

end Sys2Proof.Machine
end

