-- ==== Sys2Proof/Laws/Ports.lean ====
section
/-! SUPPORT. What a step of one port leaves alone of the others: their banks, what they have pending, the
queues they receive from, and FLAGS; and what a landing can do to a bank. -/

namespace Sys2Proof.Machine

/-- What a command of port p, or its held command going on, leaves alone. -/
structure OnlyPort (p : PortId) (s t : State) : Prop where
  cfg : t.cfg = s.cfg
  flags : t.flags = s.flags
  others : SameOthers p s t
  pendFlags : ∀ r, r ≠ p → t.pendFlags r = s.pendFlags r
  pendQueues : ∀ r q, r ≠ p → t.pendQueue r q = s.pendQueue r q
  posts : ∀ q, ∃ l, t.pendQueue p q = s.pendQueue p q ++ l
  queues : ∀ q, receiver q ≠ p → t.queue q = s.queue q

theorem onlyPort_refl (p : PortId) (s : State) : OnlyPort p s s :=
  ⟨rfl, rfl, fun _ _ => rfl, fun _ _ => rfl, fun _ _ _ => rfl, fun _ => ⟨[], by simp⟩, fun _ _ => rfl⟩

theorem onlyPort_updBank (s : State) (p : PortId) (f : Bank → Bank) : OnlyPort p s (s.updBank p f) :=
  ⟨rfl, rfl, fun _ hr => bank_updBank_other s p f hr, fun _ _ => rfl, fun _ _ _ => rfl,
    fun _ => ⟨[], by simp⟩, fun _ _ => rfl⟩

protected theorem OnlyPort.trans {p : PortId} {s t u : State} (h : OnlyPort p s t) (h' : OnlyPort p t u) :
    OnlyPort p s u where
  cfg := h'.cfg.trans h.cfg
  flags := h'.flags.trans h.flags
  others r hr := (h'.others r hr).trans (h.others r hr)
  pendFlags r hr := (h'.pendFlags r hr).trans (h.pendFlags r hr)
  pendQueues r q hr := (h'.pendQueues r q hr).trans (h.pendQueues r q hr)
  posts q := by
    obtain ⟨l, hl⟩ := h.posts q
    obtain ⟨l', hl'⟩ := h'.posts q
    exact ⟨l ++ l', by rw [hl', hl, List.append_assoc]⟩
  queues q hq := (h'.queues q hq).trans (h.queues q hq)

theorem onlyPort_finish (p : PortId) (r : ResultCode) (s : State) : OnlyPort p s (finish p r s) := by
  rw [finish_eq]; exact onlyPort_updBank s p _

theorem onlyPort_raise (p : PortId) (r : ResultCode) (s : State) : OnlyPort p s (raise p r s) := by
  rw [raise_eq]; exact onlyPort_updBank s p _

theorem onlyPort_setRes0 (p : PortId) (v : Half) (s : State) : OnlyPort p s (setRes0 p v s) := by
  rw [setRes0_eq]; exact onlyPort_updBank s p _

theorem onlyPort_postMessage (p : PortId) (q : QueueId) (s : State) : OnlyPort p s (postMessage p q s) :=
  ⟨rfl, rfl, fun _ _ => rfl, fun r _ => by simp [postMessage],
    fun r x hr => pendQueue_setPendQueue_port s p q _ hr x, fun x => by
      by_cases hx : x = q
      · subst hx; exact ⟨[(s.bank p).msg], by simp [postMessage]⟩
      · exact ⟨[], by rw [List.append_nil]; exact pendQueue_setPendQueue_queue s p q _ hx p⟩,
    fun _ _ => rfl⟩

theorem onlyPort_postFlags (p : PortId) (ops : List FlagOp) (s : State) : OnlyPort p s (postFlags p ops s) :=
  ⟨rfl, rfl, fun _ _ => rfl, fun _ hr => pendFlags_setPendFlags_other s p _ hr,
    fun r x _ => by simp [postFlags], fun _ => ⟨[], by simp [postFlags]⟩, fun _ _ => rfl⟩

theorem onlyPort_receive {p : PortId} {q : QueueId} (h : p = receiver q) (s : State) :
    OnlyPort p s (receive p q s) := by
  have hq : ∀ l, OnlyPort p s (s.setQueue q l) := fun l =>
    ⟨rfl, rfl, fun _ _ => rfl, fun _ _ => rfl, fun _ _ _ => rfl, fun _ => ⟨[], by simp⟩,
      fun x hx => queue_setQueue_other s q l fun e => hx (by rw [h, e])⟩
  cases hc : s.queue q with
  | nil => rw [receive_nil hc]; exact onlyPort_refl p s
  | cons m rest => rw [receive_cons hc]; exact (hq rest).trans (onlyPort_updBank _ p _)

/-- A hold that fits its port touches nothing of another port when it goes on. -/
theorem onlyPort_resume {h : Hold} {p : PortId} {s : State} (hr : ∀ q, h = .entry q → p = receiver q) :
    OnlyPort p s (h.resume p s) := by
  rcases resume_cases h p s with ⟨q, _, e⟩ | ⟨q, _, _, e⟩ | ⟨q, hq, e⟩ | ⟨ops, _, e⟩ | ⟨_, e⟩ <;> rw [e]
  · exact (onlyPort_postMessage p q s).trans (onlyPort_finish p _ _)
  · exact onlyPort_finish p _ s
  · exact onlyPort_receive (hr q hq) s
  · exact (onlyPort_postFlags p ops s).trans (onlyPort_finish p _ _)
  · exact (onlyPort_setRes0 p _ s).trans (onlyPort_finish p _ _)

theorem onlyPort_awaitHold {h : Hold} {p : PortId} {i : Instr} {s : State}
    (hr : ∀ q, h = .entry q → p = receiver q) : OnlyPort p s (awaitHold p i h s) := by
  unfold awaitHold
  split
  · exact onlyPort_resume hr
  · rw [holdOn_eq]; exact onlyPort_updBank s p _

theorem onlyPort_startSequencer (p : PortId) (i : Instr) (x : SeqStep) (s : State) :
    OnlyPort p s (startSequencer p i x s) :=
  ⟨rfl, rfl, fun r hr => by rw [bank_startSequencer, bank_updBank_other _ _ _ hr], fun _ _ => rfl,
    fun _ _ _ => rfl, fun _ => ⟨[], (List.append_nil _).symm⟩, fun _ _ => rfl⟩

theorem onlyPort_checked {argOk permOk : Bool} {run : State → State} {s t : State}
    (he : checked argOk permOk run s = .next t)
    (h : argOk = true → permOk = true → OnlyPort s.issuer s (run s)) : OnlyPort s.issuer s t := by
  rcases checked_cases he with ⟨_, rfl⟩ | ⟨_, _, rfl⟩ | ⟨ha, hp, rfl⟩
  · exact onlyPort_raise _ _ s
  · exact onlyPort_raise _ _ s
  · exact h ha hp

theorem onlyPort_postOps {ops : List FlagOp} {i : Instr} {s t : State} (he : postOps i ops s = .next t) :
    OnlyPort s.issuer s t := by
  refine onlyPort_checked he fun _ _ => ?_
  split
  · exact onlyPort_finish _ _ s
  · exact onlyPort_awaitHold nofun

/-- A command touches nothing of another port (43_dispatch.md R200). -/
theorem onlyPort_exec {i : Instr} {s t : State} (he : exec i s = .next t) : OnlyPort s.issuer s t := by
  cases i with
  | crcInit | crcByte | crcBuf =>
    cases he
    simp only [finishCrc, finish_eq, setRes0_eq, setCrc_eq, updBank_updBank]
    exact onlyPort_updBank s _ _
  | crcSeal m =>
    refine onlyPort_checked he fun _ _ => ?_
    simp only [sealBuf, finish_eq, setRes0_eq, setBuf_eq, updBank_updBank]
    exact onlyPort_updBank s _ _
  | crcCheck m =>
    refine onlyPort_checked he fun _ _ => ?_
    unfold checkBuf
    split
    · exact (onlyPort_setRes0 _ _ s).trans (onlyPort_finish _ _ _)
    · exact onlyPort_finish _ _ s
  | stRawRead a m =>
    unfold exec execStRawRead at he
    refine onlyPort_checked he fun _ _ => ?_
    split
    · exact (onlyPort_setRes0 _ _ s).trans (onlyPort_finish _ _ _)
    · exact onlyPort_startSequencer _ _ _ s
  | stRawWrite a m =>
    unfold exec execStRawWrite at he
    refine onlyPort_checked he fun _ _ => ?_
    split
    · exact (onlyPort_setRes0 _ _ s).trans (onlyPort_finish _ _ _)
    · exact onlyPort_startSequencer _ _ _ s
  | stWriteStatus | stReadStatus | logWrite | logRead | logDelete =>
    exact onlyPort_checked he fun _ _ => onlyPort_startSequencer _ _ _ s
  | qSend q | qSendc q =>
    rcases sendChecked_cases he with rfl | rfl | ⟨x, _, _, _, rfl⟩
    · exact onlyPort_raise _ _ s
    · exact onlyPort_raise _ _ s
    · exact onlyPort_awaitHold nofun
  | qTryrecv q =>
    rcases receiveChecked_cases he with rfl | rfl | ⟨x, _, hr, rfl⟩
    · exact onlyPort_raise _ _ s
    · exact onlyPort_raise _ _ s
    · split
      · exact onlyPort_finish _ _ s
      · exact onlyPort_receive hr s
  | qRecv q =>
    rcases receiveChecked_cases he with rfl | rfl | ⟨x, _, hr, rfl⟩
    · exact onlyPort_raise _ _ s
    · exact onlyPort_raise _ _ s
    · exact onlyPort_awaitHold fun y hy => by cases hy; exact hr
  | flagSet m | flagClear m => exact onlyPort_postOps he
  | flagGet => cases he; exact onlyPort_awaitHold nofun

/-- A host step touches nothing of another port. -/
theorem onlyPort_hostStep {p : PortId} {s t : State} (he : hostStep p s = .next t) : OnlyPort p s t := by
  rcases hostStep_cases he with rfl | ⟨r, rfl⟩ | ⟨a, rest, v, off, _, _, _, _, h⟩
  · exact onlyPort_refl p _
  · exact onlyPort_updBank s p _
  · have hw : OnlyPort p s { answer p .written s with issuer := p } :=
      have h := onlyPort_updBank s p fun b => { b with host := b.host.tail, reply := .written }
      ⟨h.cfg, h.flags, h.others, h.pendFlags, h.pendQueues, h.posts, h.queues⟩
    rcases h with ⟨_, i, _, h⟩ | ⟨_, why, _, rfl⟩ | rfl | rfl
    · exact hw.trans (onlyPort_exec h)
    · exact hw.trans (onlyPort_raise p _ _)
    · exact (onlyPort_updBank s p _).trans (onlyPort_updBank _ p _)
    · exact (onlyPort_updBank s p _).trans (onlyPort_updBank _ p _)

/-- The host of a BUSY port moves nothing but its own list and answer (10_state.md R24). -/
theorem hostStep_busy {p : PortId} {s t : State} (he : hostStep p s = .next t) (hb : s.busy p = true) :
    t = s ∨ ∃ r, t = answer p r s := by
  rcases hostStep_cases he with h | h | ⟨a, rest, v, off, _, _, _, hn, _⟩
  · exact .inl h
  · exact .inr h
  · simp [State.busy, hn] at hb

/-- A landing drops a port's held Q_SENDC, or leaves its bank alone (43_dispatch.md R185, R196). -/
theorem bank_land (p : PortId) (r : Resource) (s : State) (x : PortId) :
    (land p r s).bank x = s.bank x
      ∨ r = .flags ∧ (∃ i q, (s.bank x).current = some ⟨i, some (.gate q)⟩) ∧ (land p r s).pendFlags x = []
        ∧ (land p r s).bank x = { s.bank x with rc := .dropped, current := none } := by
  cases r with
  | queue q =>
    refine .inl (?_ : (landMessage p q s).bank x = _)
    cases h : s.pendQueue p q with
    | nil => rw [landMessage_nil h]
    | cons m rest => rw [landMessage_cons h]; rfl
  | flags =>
    show (landFlag p s).bank x = _ ∨ _ ∧ _ ∧ (landFlag p s).pendFlags x = [] ∧ (landFlag p s).bank x = _
    cases h : s.pendFlags p with
    | nil => rw [landFlag_nil h]; exact .inl rfl
    | cons op rest =>
      rw [landFlag_cons h, bank_retestGates]
      split
      · rename_i hg
        obtain ⟨hc, hp, -⟩ := gateClosed_eq_true.1 hg
        exact .inr ⟨rfl, hc, hp, rfl⟩
      · exact .inl rfl

theorem cfg_land (p : PortId) (r : Resource) (s : State) : (land p r s).cfg = s.cfg := by
  cases r with
  | queue q =>
    show (landMessage p q s).cfg = _
    cases h : s.pendQueue p q with
    | nil => rw [landMessage_nil h]
    | cons m rest => rw [landMessage_cons h]; rfl
  | flags =>
    show (landFlag p s).cfg = _
    cases h : s.pendFlags p with
    | nil => rw [landFlag_nil h]
    | cons op rest => rw [landFlag_cons h]; rfl

theorem queue_landFlag (p : PortId) (s : State) (q : QueueId) : (landFlag p s).queue q = s.queue q := by
  cases h : s.pendFlags p with
  | nil => rw [landFlag_nil h]
  | cons op rest => rw [landFlag_cons h]; rfl

theorem pendQueue_landFlag (p r : PortId) (s : State) (q : QueueId) :
    (landFlag p s).pendQueue r q = s.pendQueue r q := by
  cases h : s.pendFlags p with
  | nil => rw [landFlag_nil h]
  | cons op rest =>
    rw [landFlag_cons h, pendQueue_retestGates]
    exact pendQueue_setPendFlags s p rest r q

theorem pendFlags_landMessage (p r : PortId) (q : QueueId) (s : State) :
    (landMessage p q s).pendFlags r = s.pendFlags r := by
  cases h : s.pendQueue p q with
  | nil => rw [landMessage_nil h]
  | cons m rest => rw [landMessage_cons h]; simp

theorem queue_landMessage (p : PortId) (q x : QueueId) (s : State) :
    (landMessage p q s).queue x = if x = q then s.queue x ++ (s.pendQueue p q).take 1 else s.queue x := by
  cases h : s.pendQueue p q with
  | nil => rw [landMessage_nil h]; split <;> simp
  | cons m rest =>
    rw [landMessage_cons h]
    split
    · rename_i hx; subst hx; simp
    · rename_i hx; rw [queue_setQueue_other _ _ _ hx]; rfl

theorem pendQueue_landMessage (p r : PortId) (q x : QueueId) (s : State) :
    (landMessage p q s).pendQueue r x
      = if r = p ∧ x = q then (s.pendQueue r x).tail else s.pendQueue r x := by
  cases h : s.pendQueue p q with
  | nil => rw [landMessage_nil h]; split <;> simp_all
  | cons m rest =>
    rw [landMessage_cons h, pendQueue_setQueue]
    split
    · rename_i hx; obtain ⟨rfl, rfl⟩ := hx; simp [h]
    · rename_i hx
      by_cases hr : r = p
      · exact pendQueue_setPendQueue_queue s p q rest (fun e => hx ⟨hr, e⟩) r
      · exact pendQueue_setPendQueue_port s p q rest hr x

theorem pendFlags_landFlag (p r : PortId) (s : State) :
    (landFlag p s).pendFlags r = if r = p then (s.pendFlags r).tail else s.pendFlags r := by
  cases h : s.pendFlags p with
  | nil => rw [landFlag_nil h]; split <;> simp_all
  | cons op rest =>
    rw [landFlag_cons h, pendFlags_retestGates]
    show (s.setPendFlags p rest).pendFlags r = _
    split
    · rename_i hr; subst hr; simp [h]
    · rename_i hr; exact pendFlags_setPendFlags_other s p rest hr

/-- What a step leaves alone at a held port: its command, its pending flag operations but for a landed one,
and the entries of a queue it receives from. -/
structure StillHeld (p : PortId) (e : Event) (s t : State) : Prop where
  cfg : t.cfg = s.cfg
  current : (t.bank p).current = (s.bank p).current
  pendFlags : t.pendFlags p = if e = .land p .flags then (s.pendFlags p).tail else s.pendFlags p
  queues : ∀ q, receiver q = p → ∃ l, t.queue q = s.queue q ++ l
  pending : ∀ r q, e ≠ .land r (.queue q) → ∃ l, t.pendQueue r q = s.pendQueue r q ++ l

/-- Everything a step but a power loss can do to a held port: the port's own step lets the command go on, a
landing drops a Q_SENDC, or the command stays held. -/
theorem held_cases {e : Event} {s t : State} {p : PortId} {i : Instr} {h : Hold} (hs : s.Inv)
    (he : runEvent e s = .next t) (hc : (s.bank p).current = some ⟨i, some h⟩)
    (hp : ∀ took boot, e ≠ .powerLoss took boot) :
    (e = .port p ∧ h.lifted p s = true ∧ t = h.resume p s)
      ∨ ((∃ q, h = .gate q) ∧ Completed p .dropped t ∧ t.pendFlags p = [])
      ∨ StillHeld p e s t ∧ (e = .port p → h.lifted p s = false) := by
  have other : ∀ {r}, r ≠ p → e ≠ .land p .flags → OnlyPort r s t → StillHeld p e s t :=
    fun {r} hr hf o =>
      { cfg := o.cfg
        current := by rw [o.others p (Ne.symm hr)]
        pendFlags := by rw [if_neg hf]; exact o.pendFlags p (Ne.symm hr)
        queues := fun q hq => ⟨[], by rw [List.append_nil]; exact o.queues q fun h => hr (h ▸ hq)⟩
        pending := fun x q _ => by
          by_cases hx : x = r
          · subst hx; exact o.posts q
          · exact ⟨[], by rw [List.append_nil]; exact o.pendQueues x q hx⟩ }
  have same : ∀ {e' : Event}, e' ≠ .land p .flags → StillHeld p e' s s := fun hf =>
    ⟨rfl, rfl, by rw [if_neg hf], fun _ _ => ⟨[], by simp⟩, fun _ _ _ => ⟨[], by simp⟩⟩
  cases e with
  | powerLoss took boot => exact absurd rfl (hp took boot)
  | host r =>
    refine .inr (.inr ⟨?_, nofun⟩)
    by_cases hr : r = p
    · subst hr
      rcases hostStep_busy he (by simp [State.busy, hc]) with rfl | ⟨c, rfl⟩
      · exact same nofun
      · have o := onlyPort_updBank s r fun b => { b with host := b.host.tail, reply := c }
        exact ⟨rfl, by simp [answer], rfl, fun _ _ => ⟨[], by simp [answer]⟩, fun _ _ _ => ⟨[], by simp [answer]⟩⟩
    · exact other hr nofun (onlyPort_hostStep he)
  | port r =>
    cases he
    by_cases hr : r = p
    · subst hr
      rcases hl : h.lifted r s with _ | _
      · refine .inr (.inr ⟨?_, fun _ => rfl⟩)
        have : retest r s = s := by simp [retest, hc, hl]
        rw [this]; exact same nofun
      · exact .inl ⟨rfl, rfl, by simp [retest, hc, hl]⟩
    · refine .inr (.inr ⟨other hr nofun ?_, fun h' => absurd (by cases h'; rfl) hr⟩)
      rcases retest_cases r s with h' | ⟨j, x, hx, _, h'⟩ <;> rw [h']
      · exact onlyPort_refl r s
      · refine onlyPort_resume fun q hq => ?_
        have := hs.current r _ hx
        subst hq; exact this.2
  | sequencer ok took =>
    refine .inr (.inr ⟨?_, nofun⟩)
    by_cases hr : p = .ctl
    · subst hr
      have hi := hs.seq_idle_of_hold hc
      simp only [runEvent, seqStep, hi] at he
      cases he; exact same nofun
    · have hf := storeFrame_seqStep he
      exact ⟨hf.outside.cfg, by rw [hf.others p hr], by rw [if_neg nofun]; exact hf.dispatcher.pendFlags p,
        fun q _ => ⟨[], by simp [hf.dispatcher.queues]⟩, fun r q _ => ⟨[], by simp [hf.dispatcher.pendQueues]⟩⟩
  | land r x =>
    cases he
    rcases bank_land r x s p with hb | ⟨rfl, ⟨j, q, hg⟩, hn, hb⟩
    · refine .inr (.inr ⟨?_, nofun⟩)
      cases x with
      | flags =>
        refine ⟨cfg_land _ _ s, by rw [hb], ?_, fun q _ => ⟨[], ?_⟩, fun y q _ => ⟨[], ?_⟩⟩
        · show (landFlag r s).pendFlags p = _
          rw [pendFlags_landFlag]
          by_cases hr : p = r
          · subst hr; simp
          · rw [if_neg hr, if_neg fun h' => hr (by cases h'; rfl)]
        · rw [List.append_nil]; exact queue_landFlag r s q
        · rw [List.append_nil]; exact pendQueue_landFlag r y s q
      | queue q =>
        refine ⟨cfg_land _ _ s, by rw [hb], ?_, fun y _ => ?_, fun y z hne => ⟨[], ?_⟩⟩
        · rw [if_neg nofun]; exact pendFlags_landMessage r p q s
        · show ∃ l, (landMessage r q s).queue y = _
          rw [queue_landMessage]
          split
          · exact ⟨_, rfl⟩
          · exact ⟨[], (List.append_nil _).symm⟩
        · show (landMessage r q s).pendQueue y z = _
          rw [pendQueue_landMessage, List.append_nil, if_neg]
          rintro ⟨rfl, rfl⟩; exact hne rfl
    · rw [hc] at hg
      exact .inr (.inl ⟨⟨q, by cases hg; rfl⟩, ⟨by rw [hb], by rw [State.busy, hb]; rfl⟩, hn⟩)

end Sys2Proof.Machine
end

