-- ==== Sys2Proof/Machine/Assembler.lean ====
section
/-! DEFINITION. The assembler syntax, the pseudo-instructions, and the host program statements
(30_encoding.md R113 to R115). They say which accesses a host makes; no step reads them. DESIGN CHOICE
(assumption 29). -/

namespace Sys2Proof.Machine

/-! ### Numbers and operands (R113) -/

/-- The value of a decimal or hexadecimal digit. -/
def digitValue (c : Char) : Option Nat :=
  if '0' ≤ c ∧ c ≤ '9' then some (c.toNat - '0'.toNat)
  else if 'a' ≤ c ∧ c ≤ 'f' then some (c.toNat - 'a'.toNat + 10)
  else if 'A' ≤ c ∧ c ≤ 'F' then some (c.toNat - 'A'.toNat + 10)
  else none

/-- The number a digit string denotes, after `acc`. -/
def digitsValue (base : Nat) : Nat → List Char → Option Nat
  | acc, [] => some acc
  | acc, c :: cs =>
    (digitValue c).bind fun d => if d < base then digitsValue base (acc * base + d) cs else none

/-- A decimal or 0x-hexadecimal number below a bound. -/
def number (bound : Nat) (cs : List Char) : Option Nat :=
  let n :=
    match cs with
    | [] => none
    | ['0', 'x'] => none
    | '0' :: 'x' :: ds => digitsValue 16 0 ds
    | ds => digitsValue 10 0 ds
  n.filter (· < bound)

/-- Q_UI, Q_NET, Q_CTL, or their numbers. -/
def queueOperand (cs : List Char) : Option Nat :=
  if cs = "Q_UI".toList then some 0
  else if cs = "Q_NET".toList then some 1
  else if cs = "Q_CTL".toList then some 2
  else number 3 cs

/-- CONNECTED, RECONNECT, both, or the number of the mask. -/
def maskOperand (cs : List Char) : Option (BitVec 2) :=
  if cs = "CONNECTED".toList then some 1
  else if cs = "RECONNECT".toList then some 2
  else if cs = "CONNECTED|RECONNECT".toList then some 3
  else (number 4 cs).map (BitVec.ofNat 2)

def byteOperand (cs : List Char) : Option Byte := (number 256 cs).map (BitVec.ofNat 8)

def addressOperand (cs : List Char) : Option Half := (number 65536 cs).map (BitVec.ofNat 16)

/-! ### Lines (R113, R114) -/

/-- Cut at every separator. -/
def cutAt (sep : Char) : List Char → List (List Char)
  | [] => [[]]
  | c :: cs =>
    if c = sep then [] :: cutAt sep cs
    else
      match cutAt sep cs with
      | [] => [[c]]
      | w :: ws => (c :: w) :: ws

/-- Without the spaces at both ends. -/
def trimSpaces (cs : List Char) : List Char :=
  ((cs.dropWhile (· = ' ')).reverse.dropWhile (· = ' ')).reverse

/-- The operands of a line, separated by commas; a line without any has none. -/
def operandsOf (cs : List Char) : List (List Char) :=
  if trimSpaces cs = [] then [] else (cutAt ',' cs).map trimSpaces

/-- An AL command: address, then length. -/
def assembleAL (f : Half → Nat → Instr) (a n : List Char) : Option (List Instr) :=
  (addressOperand a).bind fun a => (number 256 n).map fun n => [f a n]

/-- The commands a mnemonic and its operands stand for; a pseudo-instruction stands for its expansion
(R114). -/
def assembleParts (mnemonic : String) (ops : List (List Char)) : Option (List Instr) :=
  match mnemonic, ops with
  | "CRC_INIT", [] => some [.crcInit]
  | "CRC_BYTE", [b] => (byteOperand b).map fun b => [.crcByte b]
  | "CRC_BUF", [n] => (number 256 n).map fun n => [.crcBuf n]
  | "CRC_SEAL", [n] => (number 256 n).map fun n => [.crcSeal n]
  | "CRC_CHECK", [n] => (number 256 n).map fun n => [.crcCheck n]
  | "ST_WRITE_STATUS", [a, n] => assembleAL .stWriteStatus a n
  | "ST_READ_STATUS", [a, n] => assembleAL .stReadStatus a n
  | "ST_RAW_READ", [a, n] => assembleAL .stRawRead a n
  | "ST_RAW_WRITE", [a, n] => assembleAL .stRawWrite a n
  | "LOG_WRITE", [] => some [.logWrite]
  | "LOG_READ", [i] => (number 256 i).map fun i => [.logRead i]
  | "LOG_DELETE", [] => some [.logDelete]
  | "Q_SEND", [q] => (queueOperand q).map fun q => [.qSend q]
  | "Q_SENDC", [q] => (queueOperand q).map fun q => [.qSendc q]
  | "Q_TRYRECV", [q] => (queueOperand q).map fun q => [.qTryrecv q]
  | "Q_RECV", [q] => (queueOperand q).map fun q => [.qRecv q]
  | "FLAG_SET", [m] => (maskOperand m).map fun m => [.flagSet m]
  | "FLAG_CLEAR", [m] => (maskOperand m).map fun m => [.flagClear m]
  | "FLAG_GET", [] => some [.flagGet]
  | "CRC16", [n] => (number 256 n).map fun n => [.crcInit, .crcBuf n]
  | "LOG_CLEAR", [] => some [.logDelete]
  | "REQUEST_RECONNECT", [] => some [.flagSet 2]
  | "DRAIN", [] => some [.qTryrecv 2]
  | "PUBLISH_NET", [] => some [.qSendc 1]
  | _, _ => none

/-- One line: the mnemonic, then the operands. -/
def assembleLine (line : String) : Option (List Instr) :=
  let cs := trimSpaces line.toList
  assembleParts (String.ofList (cs.takeWhile (· ≠ ' '))) (operandsOf (cs.dropWhile (· ≠ ' ')))

/-! ### Host program statements (R115) -/

/-- The registers a `read` names. -/
inductive HostRegister where
  | status
  | res0
  | crc
deriving DecidableEq, Repr

def HostRegister.offset : HostRegister → Nat
  | .status => 0x004
  | .res0 => 0x008
  | .crc => 0x00C

/-- The statements that access the bank. The host's own control flow, and its choices by values it has
read, stand in the list of statements it ends up making. -/
inductive Statement where
  /-- buf ← "text": the text and one 0x00. -/
  | bufText (t : List Byte)
  /-- buf[i] ← b. -/
  | bufByte (i : Nat) (b : Byte)
  /-- msg ← the bytes from offset 0 on. -/
  | msg (bytes : List Byte)
  /-- cmd WORD. -/
  | cmd (w : Word)
  /-- wait: the access after it is held until BUSY = 0, so it needs none of its own. -/
  | wait
  /-- read R. -/
  | read (r : HostRegister)
deriving DecidableEq, Repr

/-- Byte writes from an address on. -/
def byteWrites : Nat → List Byte → List Access
  | _, [] => []
  | a, b :: bs => ⟨a, .w8, .write (b.setWidth 32)⟩ :: byteWrites (a + 1) bs

/-- The accesses a statement makes to port p's bank. -/
def Statement.accesses (c : Config) (p : PortId) : Statement → List Access
  | .bufText t => byteWrites (bankBase c p + 0x100) (t ++ [0])
  | .bufByte i b => byteWrites (bankBase c p + 0x100 + i) [b]
  | .msg bytes => byteWrites (bankBase c p + 0x200) bytes
  | .cmd w => [cmdWrite c p w]
  | .wait => []
  | .read r => [⟨bankBase c p + r.offset, .w32, .read⟩]

/-- The accesses of a host program (10_state.md R22). -/
def programAccesses (c : Config) (p : PortId) (prog : List Statement) : List Access :=
  prog.flatMap (Statement.accesses c p)

end Sys2Proof.Machine
end

