-- ==== Sys2Proof/Machine/Message.lean ====
section
/-! DEFINITION. The payload of a Message image as the hosts read it (43_dispatch.md R180, R181). The
block checks the tag and copies the rest; no step reads a payload. -/

namespace Sys2Proof.Machine

/-- The three shapes (43_dispatch.md R180). -/
inductive Message where
  | monitoredData (co2 temperature humidity fanSpeed : Half)
  | co2SetData (value : Half)
  | networkConfig (ssid password : List Byte)
deriving DecidableEq, Repr

/-- The 16-bit number at byte i of an image, least significant byte first (R181). -/
def halfAt (m : Image) (i : Nat) : Half := m.getD (i + 1) 0 ++ m.getD i 0

/-- The NUL-terminated text in n bytes from byte i on; none if no byte of them is a NUL (R181). -/
def textAt (m : Image) (i n : Nat) : Option (List Byte) :=
  let field := (m.drop i).take n
  if 0 ∈ field then some (field.takeWhile (· ≠ 0)) else none

/-- The Message an image carries: none for an illegal tag, or for a text without its NUL. DESIGN CHOICE
(assumption 30). -/
def messageOf (m : Image) : Option Message :=
  match (tagOf m).toNat with
  | 0 => some (.monitoredData (halfAt m 2) (halfAt m 4) (halfAt m 6) (halfAt m 8))
  | 1 => some (.co2SetData (halfAt m 2))
  | 2 => (textAt m 2 62).bind fun ssid => (textAt m 64 64).map fun pw => .networkConfig ssid pw
  | _ => none

end Sys2Proof.Machine
end

