-- ==== Sys2Proof/Tests/Slice0.lean ====
section
/-! SUPPORT. Tests and witnesses. The expected values of a test are those of 95_test_vectors.md, named by
vector, or are worked out by hand from the rule named. A witness shows that the hypotheses of a statement
can be met together, at a boundary value where there is one. -/

set_option Elab.async false

namespace Sys2Proof.Tests

open Sys2Proof.Machine

/-! ### Small states -/

/-- A part of the next state, if there is one. -/
def obs {α : Type} (f : State → α) : Result → Option α
  | .next t => some (f t)
  | .fault _ => none
  | .refused _ => none

theorem obs_eq_some {α : Type} {f : State → α} {r : Result} {x : α} (h : obs f r = some x) :
    ∃ t, r = .next t ∧ f t = x := by
  cases r with
  | next t => exact ⟨t, rfl, by simpa [obs] using h⟩
  | fault _ => cases h
  | refused _ => cases h

/-- The machine after reset, port p issuing. -/
def by_ (p : PortId) : State := { State.reset with issuer := p }

/-- The machine after reset with DEV bytes placed, CTL issuing. -/
def withDev (a : Nat) (bs : List Byte) : State := { by_ .ctl with dev := Memory.writeBytes [] a bs }

/-- The machine after reset with CTL's BUF beginning with these bytes. -/
def withBuf (bs : List Byte) : State := setBuf .ctl bs (by_ .ctl)

/-- A sequencer step that runs this step of a command of CTL. -/
def sequencing (cmd : Instr) (todo : SeqStep) (s : State) : State :=
  { s.updBank .ctl (fun b => { b with current := some ⟨cmd, none⟩ }) with seq := .active cmd todo }

/-- A successful sequencer step. -/
def seqOk (s : State) : Result := seqStep true 0 s

/-- A Message image: these bytes, then zeros. -/
def image (bs : List Byte) : Image := bs ++ List.replicate (128 - bs.length) 0

/-- The record of "700" in 8 bytes (V2.1). -/
def rec700 : List Byte := [0x37, 0x30, 0x30, 0x00, 0x39, 0x34, 0x00, 0x00]

/-- RC, RES0 and CRC of a port. -/
def regs (p : PortId) (t : State) : ResultCode × Half × Half :=
  ((t.bank p).rc, (t.bank p).res0, (t.bank p).crc)

/-! ### Well-formedness: each check refuses a term -/

theorem test_wf_len : (Instr.crcBuf 256).wellFormed = false ∧ (Instr.crcBuf 255).wellFormed = true := by
  decide

theorem test_wf_slot : (Instr.logRead 256).wellFormed = false ∧ (Instr.logRead 255).wellFormed = true := by
  decide

theorem test_wf_queue : (Instr.qSend 4).wellFormed = false ∧ (Instr.qSend 3).wellFormed = true := by
  decide

/-! ### Decoding: words written out from 30_encoding.md R101 and R108 -/

theorem test_decode_crc : decode 0x01000000 = .instr .crcInit ∧ decode 0x02000041 = .instr (.crcByte 0x41)
    ∧ decode 0x03090000 = .instr (.crcBuf 9) ∧ decode 0x04080000 = .instr (.crcSeal 8)
    ∧ decode 0x05080000 = .instr (.crcCheck 8) := by decide

theorem test_decode_store : decode 0x10080010 = .instr (.stWriteStatus 0x0010 8)
    ∧ decode 0x11087FFC = .instr (.stReadStatus 0x7FFC 8)
    ∧ decode 0x12FF1234 = .instr (.stRawRead 0x1234 255)
    ∧ decode 0x13018000 = .instr (.stRawWrite 0x8000 1) := by decide

theorem test_decode_log : decode 0x20000000 = .instr .logWrite ∧ decode 0x210000FF = .instr (.logRead 255)
    ∧ decode 0x22000000 = .instr .logDelete := by decide

theorem test_decode_queue : decode 0x30000002 = .instr (.qSend 2) ∧ decode 0x31000001 = .instr (.qSendc 1)
    ∧ decode 0x32000003 = .instr (.qTryrecv 3) ∧ decode 0x33000000 = .instr (.qRecv 0) := by decide

theorem test_decode_flag : decode 0x38000001 = .instr (.flagSet 1) ∧ decode 0x39000003 = .instr (.flagClear 3)
    ∧ decode 0x3A000000 = .instr .flagGet := by decide

/-- V8.1 to V8.5, V5.15, V5.16, V6.12, V6.13. -/
theorem test_decode_illegal : ([0x00000000, 0x06000000, 0x0F000000, 0x14000000, 0x23000000, 0x34000000,
    0x3B000000, 0xFF000000].all fun w => decode w = .illegal .unassignedOpc) = true
    ∧ ([0x01000001, 0x02000141, 0x05080001, 0x03000001, 0x20000001, 0x21000100, 0x30000004,
      0x38000004].all fun w => decode w = .illegal .mustBeZeroBitSet) = true := by decide

/-- The word of opcode_table.json, laid out little-endian as in a bank (20_memory.md R71). -/
theorem test_decode_table_word : decodeTableWord 32 0x10080010 = some (.stWriteStatus 0x0010 8)
    ∧ decodeBytes [0x10, 0x00, 0x08, 0x10] = .instr (.stWriteStatus 0x0010 8)
    ∧ decodeBytes [0x00, 0x01] = .illegal .notOneWord := by decide

/-- The word placed by withFetchWord is issued by the very next step (V3.2). -/
theorem test_fetch_word : obs (regs .ctl) (step (State.reset.withFetchWord 32 0x02000041))
    = some (.ok, 0xB915, 0xB915) := by decide +kernel

/-! ### The CRC and records -/

/-- V1.2, V1.5 to V1.9, V1.11, V1.12. -/
theorem test_crc_values : crcRun 0xFFFF [0x31, 0x32, 0x33, 0x34, 0x35, 0x36, 0x37, 0x38, 0x39] = 0x29B1
    ∧ crcRun 0xFFFF [0x00, 0x00] = 0x1D0F ∧ crcRun 0xFFFF [0xFF] = 0xFF00
    ∧ crcRun 0xFFFF (List.replicate 64 0xFF) = 0xF154 ∧ crcStep 0x1234 0x00 = 0x0673
    ∧ crcStepBitwise 0x0000 0x01 = 0x1021 ∧ crcStepBitwise 0x8000 0x00 = 0x9188 := by decide +kernel

/-- V2.1, V2.4 to V2.6. -/
theorem test_seal : sealRecord [0x37, 0x30, 0x30] 8 = rec700
    ∧ sealRecord [0x41] 8 = [0x41, 0x00, 0x23, 0xF2, 0, 0, 0, 0] ∧ sealRecord [] 3 = [0x00, 0xE1, 0xF0]
    ∧ text [0x41, 0x42, 0x43, 0x44, 0x45, 0x46, 0x47, 0x48, 0x00] 8 = [0x41, 0x42, 0x43, 0x44, 0x45] := by
  decide +kernel

/-- V2.9, V2.11, V2.12, V2.15 to V2.18, V2.20. -/
theorem test_validate : validate rec700 8 = .ok 3 ∧ validate (rec700.set 1 0x00) 8 = .corrupt
    ∧ validate (rec700.set 3 0x41) 8 = .corrupt ∧ validate (rec700.set 6 0x01) 8 = .ok 3
    ∧ validate (List.replicate 8 0) 8 = .corrupt ∧ validate (List.replicate 8 0xFF) 8 = .corrupt
    ∧ validate [0x41, 0x42, 0x43, 0x44, 0x45, 0x46, 0x00, 0x00] 8 = .corrupt
    ∧ validate [0x41, 0x4B, 0x00, 0x37, 0x37, 0x00, 0xF0, 0xF8] 8 = .ok 2 := by decide +kernel

/-! ### CRC commands -/

/-- V3.1. -/
theorem test_crcInit : obs (regs .ctl) (exec .crcInit (setCrc .ctl 0x1234 (by_ .ctl)))
    = some (.ok, 0xFFFF, 0xFFFF) := by decide +kernel

/-- V3.4, V3.18: from UI, continuing from the port's own accumulator. -/
theorem test_crcByte : obs (regs .ui) (exec (.crcByte 0x00) (setCrc .ui 0x1234 (by_ .ui)))
    = some (.ok, 0x0673, 0x0673) := by decide +kernel

/-- V3.5. -/
theorem test_crcBuf : obs (regs .ctl)
    (exec (.crcBuf 9) (withBuf [0x31, 0x32, 0x33, 0x34, 0x35, 0x36, 0x37, 0x38, 0x39]))
    = some (.ok, 0x29B1, 0x29B1) := by decide +kernel

/-- V3.7. -/
theorem test_crcBuf_empty : obs (regs .ctl) (exec (.crcBuf 0) (by_ .ctl)) = some (.ok, 0xFFFF, 0xFFFF) := by
  decide +kernel

/-- V3.9; the byte after the record is unchanged. -/
theorem test_crcSeal : obs (fun t => ((t.bank .ctl).buf.take 9, regs .ctl t))
    (exec (.crcSeal 8) (withBuf [0x41, 0x42, 0x43, 0x44, 0x45, 0x46, 0x47, 0x48, 0x49, 0x00]))
    = some ([0x41, 0x42, 0x43, 0x44, 0x45, 0x00, 0xB2, 0x5F, 0x49], .ok, 5, 0xFFFF) := by decide +kernel

/-- V3.14. -/
theorem test_crcSeal_short : obs (regs .ctl) (exec (.crcSeal 2) (by_ .ctl))
    = some (.errArg, 0x0000, 0xFFFF) := by decide +kernel

/-- V3.11. -/
theorem test_crcCheck_ok : obs (regs .ctl) (exec (.crcCheck 8) (withBuf rec700))
    = some (.ok, 3, 0xFFFF) := by decide +kernel

/-- V3.12. -/
theorem test_crcCheck_corrupt : obs (regs .ctl) (exec (.crcCheck 8) (withBuf (rec700.set 4 0x38)))
    = some (.corrupt, 0x0000, 0xFFFF) := by decide +kernel

/-! ### Store commands -/

/-- V4.1: the transaction ST_WRITE_STATUS begins with. -/
theorem test_stWriteStatus : obs (·.seq) (exec (.stWriteStatus 0x0010 8) (withBuf [0x37, 0x30, 0x30, 0x00]))
    = some (.active (.stWriteStatus 0x0010 8) (.memWrite 0x0010 rec700 (.done 3))) := by decide +kernel

/-- V4.19: ERR_ARG before ERR_PERM. -/
theorem test_stWriteStatus_order : obs (regs .ui) (exec (.stWriteStatus 0x0010 2) (by_ .ui))
    = some (.errArg, 0x0000, 0xFFFF) := by decide +kernel

/-- V4.2: the MemRead step of ST_READ_STATUS, and the completion in it. -/
theorem test_stReadStatus : obs (fun t => ((t.bank .ctl).buf.take 5, regs .ctl t, t.seq))
    (seqOk (sequencing (.stReadStatus 0x0010 8) (.memRead 0x0010 8 (.readStatus 8))
      (setBuf .ctl (List.replicate 5 0xAA) (withDev 0x0010 rec700))))
    = some ([0x37, 0x30, 0x30, 0x00, 0xAA], (.ok, 3, 0xFFFF), .idle) := by decide +kernel

/-- V4.15, V4.18: the range, and the port. -/
theorem test_stReadStatus_checks : obs (regs .ctl) (exec (.stReadStatus 0x7FFC 8) (by_ .ctl))
    = some (.errArg, 0x0000, 0xFFFF)
    ∧ obs (regs .ui) (exec (.stReadStatus 0x0010 8) (by_ .ui)) = some (.errPerm, 0x0000, 0xFFFF) := by
  decide +kernel

/-- V4.9. -/
theorem test_stRawRead : obs (fun t => ((t.bank .ctl).buf.take 8, regs .ctl t, t.bus))
    (seqOk (sequencing (.stRawRead 0x0010 8) (.memRead 0x0010 8 (.rawRead 8)) (withDev 0x0010 rec700)))
    = some (rec700, (.ok, 8, 0xFFFF), some (.read [0x00, 0x10] 8 true)) := by decide +kernel

/-- V4.17. -/
theorem test_stRawRead_empty : obs (fun t => (regs .ctl t, t.seq, t.bus)) (exec (.stRawRead 0x0000 0) (by_ .ctl))
    = some ((.ok, 0x0000, 0xFFFF), .idle, none) := by decide +kernel

/-- V4.7: the MemWrite step of ST_RAW_WRITE. -/
theorem test_stRawWrite : obs (fun t => (t.dev.readBytes 0x0010 8, t.bus))
    (seqOk (sequencing (.stRawWrite 0x0011 1) (.memWrite 0x0011 [0x31] (.done 1)) (withDev 0x0010 rec700)))
    = some ([0x37, 0x31, 0x30, 0x00, 0x39, 0x34, 0x00, 0x00], some (.write [0x00, 0x11, 0x31] true)) := by
  decide +kernel

/-- V4.13, V4.14. -/
theorem test_stRawWrite_edge : obs (regs .ctl) (exec (.stRawWrite 0x8000 0) (by_ .ctl))
    = some (.ok, 0x0000, 0xFFFF)
    ∧ obs (regs .ctl) (exec (.stRawWrite 0x8000 1) (by_ .ctl)) = some (.errArg, 0x0000, 0xFFFF) := by
  decide +kernel

/-! ### Log commands -/

/-- V5.4: the scan step that finds slot 2 empty goes on to the record of "boot" there. -/
theorem test_logWrite_scan : obs (·.seq) (seqOk (sequencing .logWrite (.memRead 0x0180 1 (.logScan 2))
      (setBuf .ctl [0x62, 0x6F, 0x6F, 0x74, 0x00] (withDev 0x0180 [0x00]))))
    = some (.active .logWrite (.memWrite 0x0180
      ([0x62, 0x6F, 0x6F, 0x74, 0x00, 0xB2, 0xA8] ++ List.replicate 57 0) (.slotRecord 0x0180 true false))) := by
  decide +kernel

/-- V5.1: after the record at slot 0 of a wiped ring, the pointer write of 01 40 and RES0 = 0x0300. -/
theorem test_logWrite_pointer : obs (·.seq) (seqOk (sequencing .logWrite
      (.settle ⟨0x0100, [], [], true⟩ (.slotRecord 0x0100 true true)) (by_ .ctl)))
    = some (.active .logWrite (.memWrite 0x0200 [0x01, 0x40] (.done 0x0300))) := by decide +kernel

/-- V5.11. -/
theorem test_logRead_empty : obs (regs .ctl) (seqOk (sequencing (.logRead 3) (.memRead 0x01C0 64 .logRead)
      (withDev 0x01C0 [0x00]))) = some (.empty, 0x0000, 0xFFFF) := by decide +kernel

/-- V5.10: an erased slot is CORRUPT, not EMPTY; V5.12: slot 4 is no slot. -/
theorem test_logRead_erased : obs (regs .ctl) (seqOk (sequencing (.logRead 1) (.memRead 0x0140 64 .logRead)
      (by_ .ctl))) = some (.corrupt, 0x0000, 0xFFFF)
    ∧ obs (regs .ctl) (exec (.logRead 4) (by_ .ctl)) = some (.errArg, 0x0000, 0xFFFF) := by decide +kernel

/-- V5.17: the first write of the wipe, and after the last slot the pointer write of 01 00. -/
theorem test_logDelete : obs (·.seq) (exec .logDelete (by_ .ctl))
    = some (.active .logDelete (.memWrite 0x0100 [0x00] (.wipeSlot 0 false)))
    ∧ obs (·.seq) (seqOk (sequencing .logDelete (.settle ⟨0x01C0, [], [], true⟩ (.wipeSlot 3 false)) (by_ .ctl)))
      = some (.active .logDelete (.memWrite 0x0200 [0x01, 0x00] (.wipePointer false))) := by decide +kernel

/-! ### Queue commands -/

/-- V6.14 (one of the ten), V6.7: ERR_ARG for the tag before ERR_PERM. -/
theorem test_qSend : obs (fun t => (regs .ctl t, (t.pendQueue .ctl .ui).length, t.credit .ui))
    (exec (.qSend 0) (by_ .ctl)) = some ((.ok, 0x0000, 0xFFFF), 1, 9)
    ∧ obs (regs .ui) (exec (.qSend 0) (setMsg .ui [0x07] (by_ .ui))) = some (.errArg, 0x0000, 0xFFFF) := by
  decide +kernel

/-- V6.15: the send with no credit holds. -/
theorem test_qSend_holds : obs (fun t => (t.bank .ctl).current) (exec (.qSend 0)
      ((by_ .ctl).setQueue .ui (List.replicate 10 (image []))))
    = some (some ⟨.qSend 0, some (.credit .ui)⟩) := by decide +kernel

/-- V6.1, V6.2: dropped while not connected, posted when connected. -/
theorem test_qSendc : obs (regs .ctl) (exec (.qSendc 1) (by_ .ctl)) = some (.dropped, 0x0000, 0xFFFF)
    ∧ obs (fun t => (t.pendQueue .ctl .net).length) (exec (.qSendc 1) { by_ .ctl with flags := 0b01 })
      = some 1 := by decide +kernel

/-- V6.18: the landing that disconnects completes CTL's send, held without credit, with DROPPED. -/
theorem test_qSendc_gate_closes : regs .ctl (landFlag .net (holdOn .ctl (.qSendc 1) (.gate .net)
      ((State.setPendQueue { by_ .ctl with flags := 0b01 } .ctl .net (List.replicate 10 (image []))).setPendFlags
        .net [.clr .connected]))) = (.dropped, 0x0000, 0xFFFF) := by
  decide +kernel

/-- V6.5. -/
theorem test_qTryrecv : obs (fun t => ((t.bank .ctl).msg, regs .ctl t, t.queue .ctl))
    (exec (.qTryrecv 2) ((by_ .ctl).setQueue .ctl [image [0x01, 0x00, 0xDC, 0x05]]))
    = some (image [0x01, 0x00, 0xDC, 0x05], (.ok, 0x0001, 0xFFFF), []) := by decide +kernel

/-- V6.3: a pending entry is not seen. -/
theorem test_qTryrecv_pending : obs (regs .net)
    (exec (.qTryrecv 1) ((by_ .net).setPendQueue .ctl .net [image []]))
    = some (.empty, 0x0000, 0xFFFF) := by decide +kernel

/-- V6.20: held while the entry is pending, done once it has landed. -/
theorem test_qRecv : (retest .ui (landMessage .ctl .ui (holdOn .ui (.qRecv 0) (.entry .ui)
      ((by_ .ui).setPendQueue .ctl .ui [image [0x01]])))).bank .ui
    = { (State.reset.bank .ui) with msg := image [0x01], res0 := 0x0001 } := by decide +kernel

/-- V8.10: UI is not the receiver of Q_CTL. -/
theorem test_qRecv_role : obs (regs .ui) (exec (.qRecv 2) (by_ .ui)) = some (.errPerm, 0x0000, 0xFFFF) := by
  decide +kernel

/-! ### Flag commands -/

/-- V7.1, V7.5. -/
theorem test_flagSet : obs (fun t => (t.pendFlags .net, t.flags)) (exec (.flagSet 1) (by_ .net))
    = some ([.set .connected], 0b00)
    ∧ obs (fun t => (regs .ui t, t.pendFlags .ui)) (exec (.flagSet 3) (by_ .ui))
      = some ((.errPerm, 0x0000, 0xFFFF), []) := by decide +kernel

/-- V7.11: 4 + 2 > 4, so the command holds. -/
theorem test_flagSet_depth : obs (fun t => (t.bank .net).current) (exec (.flagSet 3)
      ((by_ .net).setPendFlags .net (List.replicate 4 (.clr .connected))))
    = some (some ⟨.flagSet 3, some (.depth [.set .connected, .set .reconnect])⟩) := by decide +kernel

/-- V7.10: the operations in bit order, and FLAGS after one landing. -/
theorem test_flagClear : obs (fun t => (t.pendFlags .net, (landFlag .net t).flags))
    (exec (.flagClear 3) { by_ .net with flags := 0b11 })
    = some ([.clr .connected, .clr .reconnect], 0b10) := by decide +kernel

/-- V7.7, V7.8. -/
theorem test_flagClear_port : obs (regs .ui) (exec (.flagClear 2) (by_ .ui)) = some (.errPerm, 0x0000, 0xFFFF)
    ∧ obs (regs .ui) (exec (.flagClear 0) (by_ .ui)) = some (.ok, 0x0000, 0xFFFF) := by decide +kernel

/-- V7.2, V7.3: the port's own operation holds FLAG_GET, another port's does not. -/
theorem test_flagGet : obs (fun t => t.busy .net) (exec .flagGet ((by_ .net).setPendFlags .net [.set .connected]))
    = some true
    ∧ obs (regs .ctl) (exec .flagGet ((by_ .ctl).setPendFlags .net [.set .connected]))
      = some (.ok, 0x0000, 0xFFFF) := by decide +kernel

/-- P4 row 14: FLAGS = 0b11 reads 3. -/
theorem test_flagGet_both : obs (regs .ctl) (exec .flagGet { by_ .ctl with flags := 0b11 })
    = some (.ok, 0x0003, 0xFFFF) := by decide +kernel

/-! ### Messages, the assembler, host statements -/

/-- P4 rows 1 and 10, P6 row 6. -/
theorem test_message : messageOf (image [0x00, 0x00, 0xBC, 0x02, 0xE8, 0x00, 0x2D, 0x00, 0x32, 0x00])
      = some (.monitoredData 700 0x00E8 0x002D 50)
    ∧ messageOf (image [0x01, 0x00, 0xDC, 0x05]) = some (.co2SetData 1500)
    ∧ messageOf (image ([0x02, 0x00, 0x67, 0x68, 0x00] ++ List.replicate 59 0 ++ [0x70, 0x77, 0x00]))
      = some (.networkConfig [0x67, 0x68] [0x70, 0x77])
    ∧ messageOf (image [0x03]) = none := by decide +kernel

/-- The examples of 30_encoding.md R113. -/
theorem test_assemble : (assembleLine "CRC_BYTE 0x41").map (·.map encode) = some [0x02000041]
    ∧ (assembleLine "ST_WRITE_STATUS 0x0010, 8").map (·.map encode) = some [0x10080010]
    ∧ (assembleLine "LOG_READ 2").map (·.map encode) = some [0x21000002]
    ∧ (assembleLine "Q_SEND Q_NET").map (·.map encode) = some [0x30000001]
    ∧ (assembleLine "FLAG_SET RECONNECT").map (·.map encode) = some [0x38000002] := by decide +kernel

/-- The pseudo-instructions of 30_encoding.md R114. -/
theorem test_assemble_pseudo : assembleLine "CRC16 9" = some [.crcInit, .crcBuf 9]
    ∧ assembleLine "DRAIN" = some [.qTryrecv 2] ∧ assembleLine "PUBLISH_NET" = some [.qSendc 1]
    ∧ assembleLine "LOG_CLEAR" = some [.logDelete]
    ∧ assembleLine "REQUEST_RECONNECT" = some [.flagSet 2] := by decide +kernel

/-- 30_encoding.md R115: the accesses of buf ← "A", cmd, wait, read RES0 on UI's bank. -/
theorem test_statements : programAccesses Config.standard .ui
      [.bufText [0x41], .cmd 0x02000041, .wait, .read .res0]
    = [⟨0x500, .w8, .write 0x41⟩, ⟨0x501, .w8, .write 0x00⟩, ⟨0x400, .w32, .write 0x02000041⟩,
      ⟨0x408, .w32, .read⟩] := by decide +kernel

/-- 20_memory.md R71: BUF read as one word, and the lanes of CRC. -/
theorem test_bank_lanes : bankRead ((withBuf [0x11, 0x22, 0x33, 0x44]).bank .ctl) 0x100 4 = 0x44332211
    ∧ bankRead ((setCrc .ctl 0x1234 (by_ .ctl)).bank .ctl) 0x00D 1 = 0x12 := by decide +kernel

/-- V4.24 to V4.26, one mix each: power lost during the settle of "1500" over "700". -/
theorem test_torn_record : validate (mix 0x40 rec700 [0x31, 0x35, 0x30, 0x30, 0x00, 0xE7, 0x2F, 0x00]) 8 = .ok 3
    ∧ validate (mix 0xFF rec700 [0x31, 0x35, 0x30, 0x30, 0x00, 0xE7, 0x2F, 0x00]) 8 = .ok 4
    ∧ validate (mix 0x03 rec700 [0x31, 0x35, 0x30, 0x30, 0x00, 0xE7, 0x2F, 0x00]) 8 = .corrupt := by
  decide +kernel

/-! ### Witnesses: the hypotheses of each statement can be met together

One theorem for each statement of Obligations.lean that has hypotheses, named w_<statement>; where a
statement has several clauses, one part for each, at a boundary value where there is one. -/

/-- The machine with host p about to make these accesses, the schedule naming it. -/
def ready (p : PortId) (as : List Access) (s : State) : State :=
  { s.updBank p (fun b => { b with host := as }) with script := [.host p] }

/-- The machine with this event next. -/
def scheduled (e : Event) (s : State) : State := { s with script := [e] }

/-- A step answers a next state with this property. -/
def answers (r : Result) (f : State → Bool) : Bool :=
  match r with
  | .next t => f t
  | .fault _ => false
  | .refused _ => false

theorem next_of_answers {r : Result} {f : State → Bool} (h : answers r f = true) :
    ∃ t, r = .next t ∧ f t = true := by
  cases r with
  | next t => exact ⟨t, rfl, h⟩
  | fault _ => cases h
  | refused _ => cases h

/-- A legal Message image. -/
def image0 : Image := image [0x00]

/-- The machine with q full. -/
def full (q : QueueId) (s : State) : State := s.setQueue q (List.replicate 10 image0)

/-- V5: DEV after MIN_LOG_ADDR with this pointer. -/
def withPointer (hi lo : Byte) (s : State) : State := { s with dev := s.dev.writeBytes 0x0200 [hi, lo] }

/-! #### States of the invariant -/

theorem reset_inv : State.reset.Inv where
  legal := by decide
  bufLength p := by cases p <;> decide +kernel
  msgLength p := by cases p <;> decide +kernel
  scrLength := by decide +kernel
  devForm := by decide
  devRange := by decide
  capacity q := by cases q <;> decide
  depth p := by cases p <;> decide
  landed q := by cases q <;> decide
  pending p q := by cases p <;> cases q <;> decide
  senders p q := by cases p <;> cases q <;> decide
  flagOwner p := by cases p <;> decide
  sequencer := trivial
  current p cur h := by cases p <;> cases h
  gates p i q h := by cases p <;> cases h

theorem scheduled_inv {s : State} (h : s.Inv) (e : Event) : (scheduled e s).Inv :=
  ⟨h.1, h.2, h.3, h.4, h.5, h.6, h.7, h.8, h.9, h.10, h.11, h.12, h.13, h.14, h.15⟩

theorem ready_inv {s : State} (h : s.Inv) (p : PortId) (as : List Access) : (ready p as s).Inv :=
  scheduled_inv (h.updBank p _ (h.bufLength p) (h.msgLength p) (fun hp => hp ▸ h.sequencer)
    (fun cur hc => h.current p cur hc) fun i q hc => h.gates p i q hc) _

/-- CTL's Message pending for Q_UI. -/
def oneInFlight : State := State.reset.setPendQueue .ctl .ui [image0]

theorem oneInFlight_inv : oneInFlight.Inv :=
  reset_inv.setPendQueue _ _ _ (by decide +kernel) (by decide +kernel) (by decide)

/-- CTL and UI held in sends to each other's full queue (43_dispatch.md R198). -/
def deadlock : State :=
  holdOn .ui (.qSend 2) (.credit .ctl) (holdOn .ctl (.qSend 0) (.credit .ui)
    (full .ctl (full .ui State.reset)))

theorem deadlock_inv : deadlock.Inv :=
  State.Inv.hold (State.Inv.hold
    ((reset_inv.setQueue .ui _ (by decide +kernel) (by decide +kernel)).setQueue .ctl _
      (by decide +kernel) (by decide +kernel))
    .ctl (fun _ => rfl) _ (.credit .ui) ⟨rfl, by decide, by decide +kernel⟩ (by decide +kernel))
    .ui (fun h => nomatch h) _ (.credit .ctl) ⟨rfl, by decide, by decide +kernel⟩ (by decide +kernel)

/-- CTL held in a Q_SENDC that its own flag operation, NET's disconnection to come and a full Q_NET hold. -/
def gated : State :=
  holdOn .ctl (.qSendc 1) (.gate .net) (full .net
    (State.setPendFlags (State.setPendFlags { State.reset with flags := 0b01 } .ctl [.set .reconnect])
      .net [.clr .connected]))

theorem gated_inv : gated.Inv :=
  State.Inv.hold ((((reset_inv.withFlags 0b01 (by decide)).setPendFlags .ctl _ (by decide) (by decide)
      (by decide)).setPendFlags .net _ (by decide) (by decide) (by decide)).setQueue .net _ (by decide +kernel)
      (by decide +kernel))
    .ctl (fun _ => rfl) _ (.gate .net) ⟨rfl, by decide, by decide +kernel⟩ (by decide +kernel)

/-- LOG_WRITE begun. -/
def logging : State := startSequencer .ctl .logWrite (.memRead 0x0200 2 .logPointer) State.reset

theorem logging_inv : logging.Inv :=
  reset_inv.startSequencer ⟨by decide, rfl, rfl, rfl⟩

/-- ST_RAW_WRITE of one byte begun. -/
def rawWriting : State :=
  startSequencer .ctl (.stRawWrite 0x7FFF 1) (.memWrite 0x7FFF [0x41] (.done 1)) State.reset

theorem rawWriting_inv : rawWriting.Inv :=
  reset_inv.startSequencer ⟨by decide, .inl ⟨0x7FFF, 1, .inr rfl, rfl, rfl, by decide⟩⟩

/-! #### Encoding and issuing -/

theorem w_DecodeOfEncode : ([Instr.crcInit, .crcByte 0xFF, .crcBuf 255, .crcSeal 255, .crcCheck 255,
    .stWriteStatus 0xFFFF 255, .stReadStatus 0xFFFF 255, .stRawRead 0xFFFF 255, .stRawWrite 0xFFFF 255,
    .logWrite, .logRead 255, .logDelete, .qSend 3, .qSendc 3, .qTryrecv 3, .qRecv 3, .flagSet 3,
    .flagClear 3, .flagGet].all (·.wellFormed)) = true := by decide

theorem w_DecodableIffTableRow : decode 0x13FFFFFF = .instr (.stRawWrite 0xFFFF 255)
    ∧ (0x13FFFFFF : Word) &&& (Instr.stRawWrite 0 0).row.mask = (Instr.stRawWrite 0 0).row.pattern := by
  decide

theorem w_StepRunsDecodedCommand : ∃ (s : State) (p : PortId) (w : Word) (i : Instr) (es : List Event)
    (rest : List Access), ConfigLegal s.cfg ∧ s.script = .host p :: es
      ∧ (s.bank p).host = cmdWrite s.cfg p w :: rest ∧ s.busy p = false ∧ decode w = .instr i :=
  ⟨ready .net [cmdWrite Config.standard .net 0x39000003] State.reset, .net, 0x39000003, .flagClear 3, [],
    [], by decide, rfl, rfl, rfl, by decide⟩

theorem w_IllegalWordRaisesErrOpc : ∃ (s : State) (p : PortId) (w : Word) (why : Illegal)
    (es : List Event) (rest : List Access), ConfigLegal s.cfg ∧ s.script = .host p :: es
      ∧ (s.bank p).host = cmdWrite s.cfg p w :: rest ∧ s.busy p = false ∧ decode w = .illegal why :=
  ⟨ready .ui [cmdWrite Config.standard .ui 0x00000000] State.reset, .ui, 0, .unassignedOpc, [], [],
    by decide, rfl, rfl, rfl, by decide⟩

/-! #### The CRC and the records -/

theorem w_SealedRecordValidates : (∀ b ∈ ([] : List Byte), b ≠ 0) ∧ ([] : List Byte).length + 3 ≤ 3
    ∧ (∀ b ∈ List.replicate 252 (0x41 : Byte), b ≠ 0)
    ∧ (List.replicate 252 (0x41 : Byte)).length + 3 ≤ 255 :=
  ⟨nofun, by decide, fun b h => by rw [List.eq_of_mem_replicate h]; decide, by decide +kernel⟩

theorem w_RecordResidueIsZero : validate rec700 8 = .ok 3 ∧ validate [0x00, 0xE1, 0xF0] 3 = .ok 0 := by
  decide +kernel

/-- Payload byte 0, and both CRC bytes, of the record of "A" in its least length 4. -/
theorem w_SingleByteCorruptionDetected : (∀ x ∈ [(0x41 : Byte)], x ≠ 0) ∧ [(0x41 : Byte)].length + 3 ≤ 4
    ∧ ([(0, 0x42), (2, 0x00), (3, 0x00)] : List (Nat × Byte)).all (fun x =>
        ((sealRecord [0x41] 4)[x.1]? ≠ some x.2)
          && ((x.1 < 1 && x.2 ≠ 0) || x.1 = 2 || x.1 = 3)) = true := by decide +kernel

/-- Each way a port's accumulator can change. -/
theorem w_AccumulatorWrittenOnlyByCrcCommands :
    ([0x01000000, 0x02000041, 0x03010000] : List Word).all (fun w =>
      answers (runEvent (.host .ui) (ready .ui [cmdWrite Config.standard .ui w]
        (setCrc .ui 0x1234 State.reset))) fun t => (t.bank .ui).crc ≠ 0x1234) = true
    ∧ answers (runEvent (.powerLoss 0 default) (setCrc .ui 0x1234 State.reset))
        (fun t => (t.bank .ui).crc ≠ 0x1234) = true := by decide +kernel

theorem w_CrcSealResult : 3 ≤ 3 ∧ 255 ≤ 255 ∧ (State.reset.bank State.reset.issuer).buf.length = 256 := by
  decide +kernel

theorem w_CrcCheckResult : validate (((withBuf [0x00, 0xE1, 0xF0]).bank .ctl).buf.take 3) 3 = .ok 0
    ∧ validate ((State.reset.bank .ctl).buf.take 3) 3 = .corrupt := by decide +kernel

/-! #### Status records and raw access -/

/-- The last record of the device, at the least and the greatest length. -/
theorem w_StatusWriteCompletes : State.reset.issuer = .ctl ∧ Memory.wf State.reset.dev
    ∧ (0x7FFD : Half).toNat + 3 ≤ State.reset.cfg.devSize
    ∧ (0x7F01 : Half).toNat + 255 ≤ State.reset.cfg.devSize := by decide

theorem w_StatusReadCompletes : State.reset.issuer = .ctl ∧ State.reset.scr.length = 256
    ∧ (State.reset.bank .ctl).buf.length = 256 ∧ (0x7FF8 : Half).toNat + 8 ≤ State.reset.cfg.devSize
    ∧ validate ((withDev 0x7FF8 rec700).dev.readBytes 0x7FF8 8) 8 = .ok 3
    ∧ validate (State.reset.dev.readBytes 0x7FF8 8) 8 = .corrupt := by decide +kernel

/-- 0 bytes at DEV_SIZE, and the last 255 bytes of the device. -/
theorem w_RawReadCompletes : State.reset.issuer = .ctl ∧ State.reset.scr.length = 256
    ∧ (State.reset.bank .ctl).buf.length = 256 ∧ (0x8000 : Half).toNat + 0 ≤ State.reset.cfg.devSize
    ∧ (0x7F01 : Half).toNat + 255 ≤ State.reset.cfg.devSize := by decide +kernel

theorem w_RawWriteCompletes : State.reset.issuer = .ctl ∧ Memory.wf State.reset.dev
    ∧ (State.reset.bank .ctl).buf.length = 256 ∧ (0x8000 : Half).toNat + 0 ≤ State.reset.cfg.devSize
    ∧ (0x7F01 : Half).toNat + 255 ≤ State.reset.cfg.devSize := by decide +kernel

theorem w_StatusRecordRoundTrip : ∃ s t u v : State, s.issuer = .ctl
    ∧ (0x0010 : Half).toNat + 8 ≤ s.cfg.devSize ∧ Memory.wf s.dev
    ∧ exec (.stWriteStatus 0x0010 8) s = .next t ∧ seqRun (allSucceed 2) t = .next u
    ∧ v.issuer = .ctl ∧ v.cfg = s.cfg ∧ v.scr.length = 256 ∧ (v.bank .ctl).buf.length = 256
    ∧ ∀ i, i < 8 → v.dev.read ((0x0010 : Half).toNat + i) = u.dev.read ((0x0010 : Half).toNat + i) := by
  obtain ⟨t, ht, hq⟩ := next_of_answers (r := exec (.stWriteStatus 0x0010 8) (withBuf [0x37, 0x30, 0x30]))
    (f := fun t => answers (seqRun (allSucceed 2) t) fun u => u.issuer = .ctl ∧ u.cfg = Config.standard
      ∧ u.scr.length = 256 ∧ (u.bank .ctl).buf.length = 256) (by decide +kernel)
  obtain ⟨u, hu, h⟩ := next_of_answers hq
  simp only [decide_eq_true_eq] at h
  exact ⟨_, t, u, u, rfl, by decide, by decide, ht, hu, h.1, h.2.1, h.2.2.1, h.2.2.2, fun _ _ => rfl⟩

theorem w_FailedWriteEndsInBus : rawWriting.seq = .active (.stRawWrite 0x7FFF 1) (.memWrite 0x7FFF [0x41] (.done 1))
    ∧ 0x7FFF + [(0x41 : Byte)].length ≤ rawWriting.cfg.devSize ∧ Memory.wf rawWriting.dev := by decide

theorem w_FailedReadEndsInBus : logging.seq = .active .logWrite (.memRead 0x0200 2 .logPointer)
    ∧ 0x0200 + 2 ≤ logging.cfg.devSize := by decide

/-- A succeeded and a failed write. -/
theorem w_EveryWriteIsSettled :
    rawWriting.seq = .active (.stRawWrite 0x7FFF 1) (.memWrite 0x7FFF [0x41] (.done 1))
      ∧ ∀ ok, ∃ t, seqStep ok 0 rawWriting = .next t :=
  ⟨rfl, fun _ => ⟨_, rfl⟩⟩

theorem w_TransactionsSendAddressHighByteFirst :
    (rawWriting.seq = .active (.stRawWrite 0x7FFF 1)
        (.memWrite ((0x7F : Byte).toNat * 256 + (0xFF : Byte).toNat) [0x41] (.done 1))
      ∧ ∃ t, seqStep true 0 rawWriting = .next t)
    ∧ logging.seq = .active .logWrite
        (.memRead ((0x02 : Byte).toNat * 256 + (0x00 : Byte).toNat) 2 .logPointer)
      ∧ ∃ t, seqStep true 0 logging = .next t :=
  ⟨⟨rfl, _, rfl⟩, rfl, _, rfl⟩

/-! #### The log ring -/

theorem w_ValidPointersAreSlots : ConfigLegal Config.standard := by decide

/-- The first slot and the last. -/
theorem w_LogWriteAtValidPointer :
    ([(0x01, 0x00), (0x01, 0xC0)] : List (Byte × Byte)).all (fun x =>
      let s := withPointer x.1 x.2 State.reset
      s.issuer = .ctl && decide (ConfigLegal s.cfg) && decide (Memory.wf s.dev) && s.scr.length = 256
        && validPointer s.cfg (ofBigEndian (s.dev.read s.cfg.logAddrStorage)
            (s.dev.read (s.cfg.logAddrStorage + 1))).toNat) = true := by decide +kernel

/-- The pointer past the end, with the empty slot first, in the middle and last. -/
theorem w_LogWriteAtScannedSlot : ([0, 2, 3] : List Nat).all (fun i =>
      let s := withPointer 0x02 0x00 (withDev (slotAddr Config.standard i) [0x00])
      s.issuer = .ctl && decide (ConfigLegal s.cfg) && decide (Memory.wf s.dev) && s.scr.length = 256
        && !validPointer s.cfg (ofBigEndian (s.dev.read s.cfg.logAddrStorage)
            (s.dev.read (s.cfg.logAddrStorage + 1))).toNat
        && decide (i < s.cfg.logCount) && s.dev.read (slotAddr s.cfg i) = 0
        && decide (∀ j, j < i → s.dev.read (slotAddr s.cfg j) ≠ 0)) = true := by decide +kernel

/-- An erased device: the pointer is FF FF and no slot is empty (V5.1). -/
theorem w_LogWriteWipesFullRing : State.reset.issuer = .ctl ∧ ConfigLegal State.reset.cfg
    ∧ Memory.wf State.reset.dev ∧ State.reset.scr.length = 256
    ∧ validPointer State.reset.cfg (ofBigEndian (State.reset.dev.read State.reset.cfg.logAddrStorage)
        (State.reset.dev.read (State.reset.cfg.logAddrStorage + 1))).toNat = false
    ∧ ∀ j, j < State.reset.cfg.logCount → State.reset.dev.read (slotAddr State.reset.cfg j) ≠ 0 := by
  decide +kernel

theorem w_LogDeleteWipesRing : State.reset.issuer = .ctl ∧ ConfigLegal State.reset.cfg
    ∧ Memory.wf State.reset.dev := by decide

/-- The last slot: empty, a record, and neither. -/
theorem w_LogReadCompletes : 3 < State.reset.cfg.logCount ∧ State.reset.issuer = .ctl
    ∧ ConfigLegal State.reset.cfg ∧ State.reset.scr.length = 256
    ∧ (State.reset.bank .ctl).buf.length = 256
    ∧ (withDev 0x01C0 [0x00]).dev.read (slotAddr Config.standard 3) = 0
    ∧ validate ((withDev 0x01C0 rec700).dev.readBytes (slotAddr Config.standard 3) 64) 64 = .ok 3
    ∧ State.reset.dev.read (slotAddr Config.standard 3) ≠ 0
    ∧ validate (State.reset.dev.readBytes (slotAddr Config.standard 3) 64) 64 = .corrupt := by
  decide +kernel

/-- The bytes beside the ring and beside the pointer. -/
theorem w_LogCommandsStayInRing : logging.Inv
    ∧ logging.seq = .active .logWrite (.memRead 0x0200 2 .logPointer)
    ∧ (∃ t, seqStep true 0 logging = .next t)
    ∧ 0x00FF < logging.cfg.minLogAddr ∧ logEnd logging.cfg ≤ 0x0202 :=
  ⟨logging_inv, rfl, ⟨_, rfl⟩, by decide, by decide⟩

theorem w_SequencerEndsWithinBound : logging.Inv
    ∧ (List.replicate 19 (false, (0 : BitVec 256))).length = 3 * logging.cfg.logCount + 7 :=
  ⟨logging_inv, by decide⟩

/-! #### Queues -/

/-- CTL may send to Q_UI, with credit 1 and with none. -/
theorem w_QSendPostsOrHolds : queueOf 0 = some .ui ∧ (tagOf ((by_ .ctl).bank .ctl).msg).toNat ≤ 2
    ∧ maySend .ctl .ui = true ∧ ((by_ .ctl).setQueue .ui (List.replicate 9 image0)).load .ui = 9
    ∧ (full .ui (by_ .ctl)).load .ui = 10 := by decide +kernel

/-- UI sends to Q_CTL with an own operation pending; CTL to Q_NET not connected; connected with credit 1;
connected with none. -/
theorem w_QSendcGates : queueOf 1 = some .net ∧ (tagOf ((by_ .ctl).bank .ctl).msg).toNat ≤ 2
    ∧ maySend .ctl .net = true ∧ (by_ .ctl).pendFlags .ctl = [] ∧ (by_ .ctl).flags.getLsbD 0 = false
    ∧ (0b01 : BitVec 2).getLsbD 0 = true
    ∧ ((by_ .ctl).setQueue .net (List.replicate 9 image0)).load .net < 10
    ∧ 10 ≤ (full .net (by_ .ctl)).load .net
    ∧ ((by_ .ctl).setPendFlags .ctl [.set .reconnect]).pendFlags .ctl ≠ [] := by decide +kernel

/-- CTL is the receiver of Q_CTL: empty, and with one entry of MSG's length. -/
theorem w_QTryrecvTakesFrontOrEmpty : queueOf 2 = some .ctl ∧ (by_ .ctl).issuer = receiver .ctl
    ∧ (by_ .ctl).queue .ctl = [] ∧ ((by_ .ctl).setQueue .ctl [image0]).queue .ctl = image0 :: []
    ∧ image0.length = ((by_ .ctl).bank .ctl).msg.length := by decide +kernel

/-- UI is the receiver of Q_UI: empty, and full. -/
theorem w_QRecvTakesFrontOrHolds : queueOf 0 = some .ui ∧ (by_ .ui).issuer = receiver .ui
    ∧ (by_ .ui).queue .ui = [] ∧ (full .ui (by_ .ui)).queue .ui = image0 :: List.replicate 9 image0
    ∧ image0.length = ((by_ .ui).bank .ui).msg.length := by decide +kernel

/-- Each of the five holds. -/
theorem w_RetestIsIssuingAgain :
    (Hold.credit .ui).Fits .ctl (State.reset.bank .ctl).msg (.qSend 0)
      ∧ (Hold.gate .net).Fits .ctl (State.reset.bank .ctl).msg (.qSendc 1)
      ∧ (Hold.entry .net).Fits .net (State.reset.bank .net).msg (.qRecv 1)
      ∧ (Hold.depth [.clr .connected, .clr .reconnect]).Fits .net (State.reset.bank .net).msg (.flagClear 3)
      ∧ Hold.ownFlags.Fits .ui (State.reset.bank .ui).msg .flagGet
      ∧ ∀ p i h, ((holdOn p i h State.reset).bank p).current = some ⟨i, some h⟩ :=
  ⟨⟨rfl, by decide, by decide +kernel⟩, ⟨rfl, by decide, by decide +kernel⟩, ⟨rfl, by decide⟩,
    ⟨⟨3, .inr ⟨rfl, by decide⟩⟩, by decide, by decide⟩, rfl, fun _ _ _ => by simp⟩

/-! #### Flags -/

/-- Depth 4: two operations after two fit, after three they do not. -/
theorem w_FlagOperationsPostTogether : mayIssue (.flagClear 3) .net = true ∧ mayIssue (.flagSet 2) .ui = true
    ∧ (((by_ .net).setPendFlags .net (List.replicate 2 (.clr .connected))).pendFlags .net).length + 2
        ≤ (by_ .net).cfg.flagPendDepth
    ∧ (by_ .net).cfg.flagPendDepth
        < (((by_ .net).setPendFlags .net (List.replicate 3 (.clr .connected))).pendFlags .net).length + 2 := by
  decide

theorem w_FlagGetSamplesOrHolds : (by_ .net).pendFlags .net = []
    ∧ ((by_ .net).setPendFlags .net [.set .connected]).pendFlags .net ≠ [] := by decide

/-- A Message; each of the four operations; a held Q_SENDC that NET's landing does not drop while an own
operation is pending, and that CTL's landing then drops. -/
theorem w_LanderAppliesFrontEntry : oneInFlight.pendQueue .ctl .ui = image0 :: []
    ∧ (∀ op : FlagOp, (State.reset.setPendFlags .net [op]).pendFlags .net = op :: [])
    ∧ (gated.bank .ctl).current = some ⟨.qSendc 1, some (.gate .net)⟩
    ∧ gated.pendFlags .net = .clr .connected :: [] ∧ (landFlag .net gated).pendFlags .ctl ≠ []
    ∧ (landFlag .ctl (landFlag .net gated)).pendFlags .ctl = []
    ∧ (landFlag .ctl (landFlag .net gated)).flags.getLsbD 0 = false
    ∧ (landFlag .ctl gated).flags.getLsbD 0 = true :=
  ⟨by decide +kernel, fun _ => rfl, by decide +kernel⟩

/-- Landing, and receiving. -/
theorem w_SingleSenderOrderIsKept : ∃ s t u v : State,
    (s.Inv ∧ step s = .next t ∧ ∀ took boot, nextEvent s ≠ .powerLoss took boot)
      ∧ u.Inv ∧ step u = .next v ∧ v.queue .ui ≠ u.queue .ui
      ∧ ∀ took boot, nextEvent u ≠ .powerLoss took boot := by
  have hu := ready_inv (oneInFlight_inv.landMessage .ctl .ui) .ui [cmdWrite Config.standard .ui 0x33000000]
  obtain ⟨t, ht, _⟩ := next_of_answers (r := step (scheduled (.land .ctl (.queue .ui)) oneInFlight))
    (f := fun _ => true) (by decide +kernel)
  obtain ⟨v, hv, hq⟩ := next_of_answers (r := step (ready .ui [cmdWrite Config.standard .ui 0x33000000]
    (landMessage .ctl .ui oneInFlight))) (f := fun v => v.queue .ui ≠ [image0]) (by decide +kernel)
  refine ⟨_, t, _, v, ⟨scheduled_inv oneInFlight_inv _, ht, fun _ _ h => nomatch h⟩, hu, hv, ?_,
    fun _ _ h => nomatch h⟩
  have he : (ready .ui [cmdWrite Config.standard .ui 0x33000000]
    (landMessage .ctl .ui oneInFlight)).queue .ui = [image0] := by decide +kernel
  rw [he]; simpa using hq

/-- CONNECTED set by NET's operation, RECONNECT cleared by one, and both cleared by a power loss. -/
theorem w_OnlyNetChangesConnected : ∃ s t u v x y : State,
    (s.Inv ∧ step s = .next t ∧ t.flags.getLsbD 0 ≠ s.flags.getLsbD 0)
      ∧ (u.Inv ∧ step u = .next v ∧ u.flags.getLsbD 1 = true ∧ v.flags.getLsbD 1 = false)
      ∧ x.Inv ∧ step x = .next y ∧ y.flags.getLsbD 0 ≠ x.flags.getLsbD 0 := by
  obtain ⟨t, ht, h⟩ := next_of_answers (r := step (scheduled (.land .net .flags)
    (State.reset.setPendFlags .net [.set .connected]))) (f := fun t => t.flags.getLsbD 0) (by decide +kernel)
  obtain ⟨v, hv, h'⟩ := next_of_answers (r := step (scheduled (.land .net .flags)
    (State.setPendFlags { State.reset with flags := 0b11 } .net [.clr .reconnect])))
    (f := fun t => !t.flags.getLsbD 1) (by decide +kernel)
  obtain ⟨y, hy, h''⟩ := next_of_answers (r := step (scheduled (.powerLoss 0 default)
    { State.reset with flags := 0b11 })) (f := fun t => !t.flags.getLsbD 0) (by decide +kernel)
  refine ⟨_, t, _, v, _, y,
    ⟨scheduled_inv (reset_inv.setPendFlags .net _ (by decide) (by decide) (by decide)) _, ht, ?_⟩,
    ⟨scheduled_inv ((reset_inv.withFlags 0b11 (by decide)).setPendFlags .net _ (by decide) (by decide)
      (by decide)) _, hv, rfl, ?_⟩,
    scheduled_inv (reset_inv.withFlags 0b11 (by decide)) _, hy, ?_⟩
  · rw [h]; decide
  · simpa using h'
  · rw [show y.flags.getLsbD 0 = false by simpa using h'']; decide

/-! #### Checks and permissions -/

/-- A range that ends one byte past the device, whatever the port; a legal one from the wrong port and from
the right one. -/
theorem w_ChecksRunInOrder : argsLegal (.stRawRead 0x8000 1) (by_ .ui) = false
    ∧ argsLegal (.stRawRead 0x7FFF 1) (by_ .ui) = true ∧ mayIssue (.stRawRead 0x7FFF 1) .ui = false
    ∧ argsLegal (.stRawRead 0x7FFF 1) (by_ .ctl) = true ∧ mayIssue (.stRawRead 0x7FFF 1) .ctl = true := by
  decide +kernel

theorem w_ErrorsHaveNoEffect : ∃ t, exec (.crcSeal 2) State.reset = .next t
    ∧ t.busy State.reset.issuer = false ∧ (t.bank State.reset.issuer).rc.isError = true :=
  ⟨_, rfl, by decide, by decide⟩

/-! #### The host bus -/

/-- A write to STATUS, and reads of the bytes before and after it. -/
theorem w_BusyPortHoldsAccesses : ([⟨0x004, .w32, .write 0⟩, ⟨0x003, .w8, .read⟩, ⟨0x008, .w32, .read⟩] :
    List Access).all (fun a =>
      let s := ready .ctl [a] logging
      s.busy .ctl && bankOffset s.cfg .ctl a.addr = some a.addr
        && (a.op ≠ .read || decide (a.addr < 4) || decide (8 ≤ a.addr))) = true := by decide

/-- Of a BUSY port and of one that is not. -/
theorem w_StatusReadAnswersAlways : ∀ s ∈ [logging, State.reset],
    ((ready .ctl [⟨bankBase s.cfg .ctl + 4, .w32, .read⟩] s).bank .ctl).host
      = [⟨bankBase s.cfg .ctl + 4, .w32, .read⟩] := by
  intro s _; simp [ready]

/-- Aligned reads at the ends of the bank, and of STATUS of a BUSY port; the first and the last byte of each
range. -/
theorem w_BankReadsFollowTheMap : (([(0x000, .w8), (0x000, .w32), (0x3FC, .w32), (0x3FF, .w8)] :
    List (Nat × Width)).all (fun x =>
      let s := ready .net [⟨bankBase Config.standard .net + x.1, x.2, .read⟩] State.reset
      decide (x.1 < 0x400) && x.1 % x.2.bytes = 0 && s.busy .net = false
        && (s.bank .net).host = [⟨bankBase s.cfg .net + x.1, x.2, .read⟩]) = true)
    ∧ (([(4, .w32), (6, .w16), (4, .w8), (7, .w8)] : List (Nat × Width)).all (fun x =>
      let s := ready .ctl [⟨bankBase Config.standard .ctl + x.1, x.2, .read⟩] logging
      decide (4 ≤ x.1) && decide (x.1 < 8) && x.1 % x.2.bytes = 0 && s.busy .ctl
        && (s.bank .ctl).host = [⟨bankBase s.cfg .ctl + x.1, x.2, .read⟩]) = true)
    ∧ (State.reset.bank .ctl).buf.length = 256
    ∧ (State.reset.bank .ctl).msg.length = 128
    ∧ ([0x010, 0x0FF, 0x280, 0x3FF] : List Nat).all (fun off =>
        (0x010 ≤ off && off < 0x100) || (0x280 ≤ off && off < 0x400)) = true
    ∧ 255 < (State.reset.bank .ctl).buf.length ∧ 127 < (State.reset.bank .ctl).msg.length := by
  decide +kernel

/-- The last word of BUF, the last byte of MSG, a byte of CMD, a word of RES0, the last reserved byte. -/
theorem w_HostWritesFollowTheMap : ([(0x1FC, .w32), (0x27F, .w8), (0x000, .w8), (0x008, .w32),
    (0x3FF, .w8)] : List (Nat × Width)).all (fun x =>
      let s := ready .net [⟨bankBase Config.standard .net + x.1, x.2, .write 0x12345678⟩] State.reset
      s.busy .net = false && (s.bank .net).buf.length = 256 && (s.bank .net).msg.length = 128
        && decide (x.1 < 0x400) && x.1 % x.2.bytes = 0 && (decide (4 ≤ x.1) || x.2 ≠ .w32)
        && (s.bank .net).host = [⟨bankBase s.cfg .net + x.1, x.2, .write 0x12345678⟩]) = true := by
  decide +kernel

theorem w_MisalignedAccessIsBusError : State.reset.busy .ui = false
    ∧ bankOffset State.reset.cfg .ui 0x401 = some 1 ∧ 1 % Width.w16.bytes ≠ 0
    ∧ bankOffset State.reset.cfg .ui 0x7FF = some 0x3FF ∧ 0x3FF % Width.w32.bytes ≠ 0 := by decide

/-! #### Power loss and the whole block -/

/-- During the settle of a write, and at another moment. -/
theorem w_PowerLossTearsOnlyUnsettledWrite : ∃ t u v : State, Memory.wf rawWriting.dev
    ∧ rawWriting.seq = .active (.stRawWrite 0x7FFF 1) (.memWrite 0x7FFF [0x41] (.done 1))
    ∧ seqStep true 0 rawWriting = .next t ∧ runEvent (.powerLoss 0 default) t = .next u
    ∧ (∀ cmd w k, logging.seq ≠ .active cmd (.settle w k))
    ∧ runEvent (.powerLoss 0 default) logging = .next v :=
  ⟨_, _, _, by decide, rfl, rfl, rfl, fun _ _ _ h => (nomatch h), rfl⟩

theorem w_InvariantAtReset : ConfigLegal Config.standard := by decide

theorem w_StepKeepsInvariant : ∃ s t : State, s.Inv ∧ step s = .next t ∧ t.busy .ctl = false := by
  obtain ⟨t, ht, h⟩ := next_of_answers (r := step (ready .ctl [cmdWrite Config.standard .ctl 0x02000041]
    State.reset)) (f := fun t => !t.busy .ctl) (by decide +kernel)
  exact ⟨_, t, ready_inv reset_inv _ _, ht, by simpa using h⟩

theorem w_StepAlwaysAnswers : logging.Inv ∧ deadlock.Inv := ⟨logging_inv, deadlock_inv⟩

/-- A bank changed by each of the five events. -/
theorem w_BanksArePrivate :
    answers (runEvent (.host .ui) (ready .ui [⟨0x404, .w32, .read⟩] State.reset))
        (fun t => t.bank .ui ≠ State.reset.bank .ui) = true
      ∧ answers (runEvent (.port .ctl) (holdOn .ctl (.qSend 0) (.credit .ui) State.reset))
        (fun t => (t.bank .ctl).current = none) = true
      ∧ answers (runEvent (.sequencer false 0) logging) (fun t => (t.bank .ctl).rc = .bus) = true
      ∧ answers (runEvent (.land .ctl .flags) (landFlag .net gated)) (fun t => (t.bank .ctl).rc = .dropped) = true
      ∧ answers (runEvent (.powerLoss 0 default) logging) (fun t => (t.bank .ctl).current = none) = true := by
  decide +kernel

theorem w_DispatcherAndStoreAreIndependent : (∃ t, exec .flagGet State.reset = .next t)
    ∧ (∃ t, exec .logWrite State.reset = .next t) ∧ ∃ t, seqStep true 0 logging = .next t :=
  ⟨⟨_, rfl⟩, ⟨_, rfl⟩, _, rfl⟩

theorem w_MutualFullSendsNeverResume : ∃ s t : State, s.Inv ∧ step s = .next t
    ∧ (s.bank .ctl).current = some ⟨.qSend 0, some (.credit .ui)⟩
    ∧ (s.bank .ui).current = some ⟨.qSend 2, some (.credit .ctl)⟩
    ∧ s.load .ui = 10 ∧ s.load .ctl = 10 ∧ ∀ took boot, nextEvent s ≠ .powerLoss took boot := by
  obtain ⟨t, ht, _⟩ := next_of_answers (r := step (scheduled (.port .ctl) deadlock))
    (f := fun _ => true) (by decide +kernel)
  exact ⟨_, t, scheduled_inv deadlock_inv _, ht, rfl, rfl, by decide +kernel, by decide +kernel,
    fun _ _ h => nomatch h⟩

/-! #### Fair runs -/

/-- The run of a schedule from a state; it stands still where an event has no next state. -/
def runFrom (e : Nat → Event) (s : State) : Nat → State
  | 0 => s
  | n + 1 =>
    match runEvent (e n) (advance (runFrom e s n)) with
    | .next t => t
    | .fault _ => s
    | .refused _ => s

theorem run_runFrom {e : Nat → Event} {s : State}
    (h : ∀ n, ∃ t, runEvent (e n) (advance (runFrom e s n)) = .next t) : Run e (runFrom e s) := by
  intro n
  obtain ⟨t, ht⟩ := h n
  rw [ht, runFrom, ht]

def portAt : Nat → PortId
  | 0 => .ctl
  | 1 => .ui
  | _ => .net

def bufferAt : Nat → Resource
  | 0 => .queue .ui
  | 1 => .queue .net
  | 2 => .queue .ctl
  | _ => .flags

/-- The lander takes the twelve buffers in turn, then each port steps. -/
def inTurn (n : Nat) : Event :=
  if n % 15 < 12 then .land (portAt (n % 15 / 4)) (bufferAt (n % 15 % 4)) else .port (portAt (n % 15 - 12))

theorem portAt_onto (p : PortId) : ∃ i, i < 3 ∧ portAt i = p := by
  cases p
  · exact ⟨0, by decide, rfl⟩
  · exact ⟨1, by decide, rfl⟩
  · exact ⟨2, by decide, rfl⟩

theorem bufferAt_onto (r : Resource) : ∃ j, j < 4 ∧ bufferAt j = r := by
  rcases r with q | _
  · cases q
    · exact ⟨0, by decide, rfl⟩
    · exact ⟨1, by decide, rfl⟩
    · exact ⟨2, by decide, rfl⟩
  · exact ⟨3, by decide, rfl⟩

theorem inTurn_landerFair (σ : Nat → State) : LanderFair inTurn σ := by
  intro p r n _
  obtain ⟨i, hi, hp⟩ := portAt_onto p
  obtain ⟨j, hj, hr⟩ := bufferAt_onto r
  refine ⟨15 * n + (4 * i + j), by omega, ?_⟩
  rw [inTurn, show (15 * n + (4 * i + j)) % 15 = 4 * i + j by omega, if_pos (by omega),
    show (4 * i + j) / 4 = i by omega, show (4 * i + j) % 4 = j by omega, hp, hr]

theorem inTurn_portFair (σ : Nat → State) : PortFair inTurn σ := by
  intro p n _
  obtain ⟨i, hi, hp⟩ := portAt_onto p
  refine ⟨15 * n + (12 + i), by omega, ?_⟩
  rw [inTurn, show (15 * n + (12 + i)) % 15 = 12 + i by omega, if_neg (by omega),
    show 12 + i - 12 = i by omega, hp]

/-- Every event of the schedule has a next state. -/
theorem inTurn_run (s : State) : Run inTurn (runFrom inTurn s) :=
  run_runFrom fun n => by unfold inTurn; split <;> exact ⟨_, rfl⟩

theorem inTurn_powered : Powered inTurn := by
  intro n took boot h
  unfold inTurn at h
  split at h <;> cases h

/-- UI held in Q_RECV with its entry pending. -/
def receiving : State := holdOn .ui (.qRecv 0) (.entry .ui) oneInFlight

/-- NET held in FLAG_GET, or in FLAG_SET of both bits, behind its own operations. -/
def flagging (i : Instr) (x : Hold) : State :=
  holdOn .net i x (State.reset.setPendFlags .net (List.replicate 4 (.set .connected)))

theorem receiving_inv : receiving.Inv :=
  oneInFlight_inv.hold .ui (fun h => nomatch h) _ (.entry .ui) ⟨rfl, rfl⟩ (by decide +kernel)

theorem flagging_inv {i : Instr} {x : Hold}
    (hx : x.Fits .net (State.reset.bank .net).msg i)
    (hl : x.lifted .net (State.reset.setPendFlags .net (List.replicate 4 (.set .connected))) = false) :
    (flagging i x).Inv :=
  (reset_inv.setPendFlags .net _ (by decide) (by decide) (by decide)).hold .net (fun h => nomatch h) i x hx hl

/-- One Message and one flag operation in flight at the start; and from a state of the invariant each of the
four holds that a landing ends. -/
theorem w_PendingMutationsLand :
    (∃ (e : Nat → Event) (σ : Nat → State), Run e σ ∧ LanderFair e σ ∧ Powered e
      ∧ (σ 0).pendQueue .ctl .ui = [] ++ image0 :: []
      ∧ (σ 0).pendFlags .net = [] ++ FlagOp.set .connected :: [])
    ∧ ∀ s ∈ [receiving, flagging .flagGet .ownFlags,
        flagging (.flagSet 3) (.depth [.set .connected, .set .reconnect]), gated],
      ∃ (e : Nat → Event) (σ : Nat → State), σ 0 = s ∧ s.Inv ∧ Run e σ ∧ LanderFair e σ ∧ PortFair e σ ∧ Powered e
        ∧ ∃ p i x, (s.bank p).current = some ⟨i, some x⟩ ∧ (∀ q, x ≠ .credit q)
          ∧ (x = .entry .ui → s.pendQueue .ctl .ui ≠ []) := by
  have run : ∀ s, Run inTurn (runFrom inTurn s) ∧ LanderFair inTurn (runFrom inTurn s)
      ∧ PortFair inTurn (runFrom inTurn s) ∧ Powered inTurn :=
    fun s => ⟨inTurn_run s, inTurn_landerFair _, inTurn_portFair _, inTurn_powered⟩
  refine ⟨⟨inTurn, runFrom inTurn (oneInFlight.setPendFlags .net [.set .connected]), (run _).1, (run _).2.1,
    (run oneInFlight).2.2.2, rfl, rfl⟩, fun s hs => ?_⟩
  have hinv : s.Inv ∧ ∃ p i x, (s.bank p).current = some ⟨i, some x⟩ ∧ (∀ q, x ≠ .credit q)
      ∧ (x = .entry .ui → s.pendQueue .ctl .ui ≠ []) := by
    simp only [List.mem_cons, List.not_mem_nil, or_false] at hs
    rcases hs with rfl | rfl | rfl | rfl
    · exact ⟨receiving_inv, .ui, _, _, rfl, nofun, fun _ => by decide +kernel⟩
    · exact ⟨flagging_inv rfl (by decide), .net, _, _, rfl, nofun, nofun⟩
    · exact ⟨flagging_inv ⟨⟨3, .inl ⟨rfl, by decide⟩⟩, by decide, by decide⟩ (by decide), .net, _, _, rfl, nofun,
        nofun⟩
    · exact ⟨gated_inv, .ctl, _, _, rfl, nofun, nofun⟩
  exact ⟨inTurn, runFrom inTurn s, rfl, hinv.1, (run s).1, (run s).2.1, (run s).2.2.1, (run s).2.2.2, hinv.2⟩

theorem seqStep_idle {s : State} (h : s.seq = .idle) :
    runEvent (.sequencer true 0) (advance s) = .next (advance s) := by
  rw [runEvent, seqStep, show (advance s).seq = .idle from h]

/-- The sequencer writes one byte, settles and stays idle. -/
theorem w_StoreCommandsEnd : ∃ (e : Nat → Event) (σ : Nat → State), (σ 0).Inv ∧ Run e σ ∧ SequencerFair e σ
    ∧ Powered e ∧ (σ 0).seq ≠ .idle := by
  refine ⟨fun _ => .sequencer true 0, runFrom (fun _ => .sequencer true 0) rawWriting, rawWriting_inv,
    run_runFrom fun n => ?_, fun n _ => ⟨n, Nat.le_refl n, true, 0, rfl⟩, fun _ _ _ h => (nomatch h), nofun⟩
  have h2 : ∀ k, (runFrom (fun _ => .sequencer true 0) rawWriting (k + 2)).seq = .idle := by
    intro k
    induction k with
    | zero => decide +kernel
    | succ k ih =>
      have hs : runEvent (.sequencer true 0)
          (advance (runFrom (fun _ => .sequencer true 0) rawWriting (k + 2)))
          = .next (advance (runFrom (fun _ => .sequencer true 0) rawWriting (k + 2))) := by
        exact seqStep_idle ih
      rw [show k + 1 + 2 = (k + 2) + 1 by rfl, runFrom, hs]
      exact ih
  match n with
  | 0 => exact ⟨_, rfl⟩
  | 1 => exact ⟨_, rfl⟩
  | k + 2 => exact ⟨_, seqStep_idle (h2 k)⟩

end Sys2Proof.Tests
end

section
/-! SUPPORT. A port step of a held command is that command issued again (O36). Issuing a command that
passes its checks comes down to its `hold until`, and neither the condition nor the statements after it
read the port's current command or the issuer. -/

namespace Sys2Proof.Machine

/-! ### Issuing a command that passes its checks -/

theorem queueOf_number (q : QueueId) : queueOf q.number = some q := queueOf_eq_some.2 rfl

theorem sendChecked_of_maySend {q : QueueId} {run : QueueId → State → State} {s : State}
    (hp : maySend s.issuer q = true) (ht : legalTag (s.bank s.issuer).msg = true) :
    sendChecked q.number run s = .next (run q s) := by
  simp only [sendChecked, queueOf_number, ht, hp, checked_run]

theorem receiveChecked_of_receiver {q : QueueId} {run : QueueId → State → State} {s : State}
    (hp : s.issuer = receiver q) : receiveChecked q.number run s = .next (run q s) := by
  simp only [receiveChecked, queueOf_number, decide_eq_true hp, checked_run]

theorem postOps_of_allowed {i : Instr} {ops : List FlagOp} {s : State} (hne : ops ≠ [])
    (ho : ops.all (allowed s.issuer) = true) :
    postOps i ops s = .next (awaitHold s.issuer i (.depth ops) s) := by
  rw [postOps, ho, checked_run, if_neg (by simpa using hne)]

/-- Issuing a command that may be held on `h` runs the `hold until` of its rule (43_dispatch.md R183 to
R192). -/
theorem exec_of_fits {i : Instr} {h : Hold} {s : State} (hf : h.Fits s.issuer (s.bank s.issuer).msg i) :
    exec i s = .next (awaitHold s.issuer i h s) := by
  cases h with
  | credit q | gate q =>
    obtain ⟨rfl, hp, ht⟩ := hf
    exact sendChecked_of_maySend hp ht
  | entry q =>
    obtain ⟨rfl, hp⟩ := hf
    exact receiveChecked_of_receiver hp
  | depth ops =>
    obtain ⟨⟨mask, ⟨rfl, rfl⟩ | ⟨rfl, rfl⟩⟩, hne, ho⟩ := hf <;> exact postOps_of_allowed hne ho
  | ownFlags =>
    obtain rfl : i = .flagGet := hf
    rfl

/-! ### A port freed of its current command -/

/-- Port p has no current command, and is the port that issues. -/
def State.freed (s : State) (p : PortId) : State :=
  { (s.updBank p fun b => { b with current := none }) with issuer := p }

@[simp] theorem freed_issuer (s : State) (p : PortId) : (s.freed p).issuer = p := rfl

@[simp] theorem bank_freed (s : State) (p : PortId) :
    (s.freed p).bank p = { s.bank p with current := none } :=
  bank_updBank s p fun b => { b with current := none }

theorem updBank_of_fixed {s : State} {p : PortId} {f : Bank → Bank} (h : f (s.bank p) = s.bank p) :
    s.updBank p f = s := by
  rw [State.updBank, ports_get, h, ← ports_get, PerPort.set_get]

/-- An update that sets the current command itself does not see that the port was freed. -/
theorem updBank_freed {s : State} {p : PortId} {f : Bank → Bank}
    (hf : f { s.bank p with current := none } = f (s.bank p)) :
    (s.freed p).updBank p f = { s.updBank p f with issuer := p } := by
  simp [State.freed, State.updBank, hf]

theorem lifted_freed (h : Hold) (s : State) (p : PortId) : h.lifted p (s.freed p) = h.lifted p s := by
  cases h <;> rfl

theorem postMessage_freed (p : PortId) (q : QueueId) (s : State) :
    postMessage p q (s.freed p) = (postMessage p q s).freed p := by
  rw [postMessage, bank_freed]; rfl

theorem finish_freed (p : PortId) (r : ResultCode) (s : State) :
    finish p r (s.freed p) = { finish p r s with issuer := p } := updBank_freed rfl

/-- The statements after a `hold until` go on in a freed port as in the held one. -/
theorem resume_freed {h : Hold} {p : PortId} {s : State} (hl : h.lifted p s = true) :
    h.resume p (s.freed p) = { h.resume p s with issuer := p } := by
  cases h with
  | credit q => rw [Hold.resume, postMessage_freed, finish_freed]; rfl
  | gate q =>
    have hflag : (s.freed p).flag .connected = s.flag .connected := rfl
    rw [Hold.resume, Hold.resume, hflag, postMessage_freed, finish_freed, finish_freed]
    split <;> rfl
  | entry q =>
    obtain ⟨m, rest, hq⟩ := List.exists_cons_of_ne_nil (lifted_entry.1 hl)
    have hq' : (s.freed p).queue q = m :: rest := hq
    rw [Hold.resume, Hold.resume, receive_cons hq, receive_cons hq']
    exact updBank_freed (s := s.setQueue q rest) rfl
  | depth ops => exact finish_freed p .ok (postFlags p ops s)
  | ownFlags =>
    simp only [Hold.resume, finish_eq, setRes0_eq, updBank_updBank]
    exact updBank_freed rfl

/-- Holding the command again gives back the state in which it was held. -/
theorem holdOn_freed {i : Instr} {h : Hold} {p : PortId} {s : State}
    (hc : (s.bank p).current = some ⟨i, some h⟩) : holdOn p i h (s.freed p) = { s with issuer := p } := by
  rw [holdOn_eq, updBank_freed rfl, updBank_of_fixed (by rw [← hc])]

/-- The `hold until` of a held command, run again in its freed port, is a step of the port. -/
theorem awaitHold_freed {i : Instr} {h : Hold} {p : PortId} {s : State}
    (hc : (s.bank p).current = some ⟨i, some h⟩) :
    awaitHold p i h (s.freed p) = { retest p s with issuer := p } := by
  rw [awaitHold, lifted_freed, holdOn_freed hc]
  simp only [retest, hc]
  split
  · exact resume_freed ‹_›
  · rfl

/-- Settles O36: issued from the freed port, the command passes the checks it passed before and reaches its
`hold until`, which is what the port's step tests. -/
theorem retestIsIssuingAgain : Obligations.RetestIsIssuingAgain := by
  unfold Obligations.RetestIsIssuingAgain
  intro s p i h hc hf
  have hf' : h.Fits (s.freed p).issuer ((s.freed p).bank (s.freed p).issuer).msg i := by
    rwa [freed_issuer, bank_freed]
  show exec i (s.freed p) = .next { retest p s with issuer := p }
  rw [exec_of_fits hf', freed_issuer, awaitHold_freed hc]

end Sys2Proof.Machine
end

section
/-! SUPPORT. A host access that is not held: the write that issues a command (O4), the accesses a BUSY port
holds (O45), and the read of STATUS, which it does not (O46). -/

namespace Sys2Proof.Machine

/-! ### The word at STATUS (10_state.md R25; 20_memory.md R71) -/

/-- Bit i of the word is in the byte of lane i / 8. -/
theorem littleEndian_lanes (w : Word) : littleEndian ((List.range 4).map (lane w)) = w := by
  apply BitVec.eq_of_getLsbD_eq
  intro i hi
  simp only [List.range, List.range.loop, List.map_cons, List.map_nil, littleEndian, lane, BitVec.getLsbD_or,
    BitVec.getLsbD_shiftLeft, BitVec.getLsbD_setWidth, BitVec.getLsbD_extractLsb']
  grind

theorem bankRead_status (b : Bank) : bankRead b 0x004 4 = statusWord b.rc b.current.isSome := by
  have lanes : (List.range 4).map (fun i => bankByte b (0x004 + i))
      = (List.range 4).map (lane (statusWord b.rc b.current.isSome)) := rfl
  rw [bankRead, lanes, littleEndian_lanes]

theorem toNat_statusWord (r : ResultCode) (busy : Bool) :
    (statusWord r busy).toNat = 16 * r.code.toNat + if busy then 1 else 0 := by
  cases r <;> cases busy <;> rfl

theorem isStatusRead_eq_false {off : Nat} {op : AccessOp} (h : op ≠ .read ∨ off < 4 ∨ 8 ≤ off) :
    isStatusRead off op = false := by
  unfold isStatusRead
  rcases h with h | h | h
  · simp [h]
  · simp [Nat.not_le.2 h]
  · simp [Nat.not_lt.2 h]

/-! ### Taking the host's first access -/

theorem answer_eq {p : PortId} {s : State} {a : Access} {rest : List Access}
    (hh : (s.bank p).host = a :: rest) (r : Reply) :
    answer p r s = s.updBank p fun b => { b with host := rest, reply := r } := by
  simp [answer, State.updBank, hh]

theorem bankAccess_read {off : Nat} {w : Width} (h : off % w.bytes = 0) (p : PortId) (addr : Nat) (s : State) :
    bankAccess p off ⟨addr, w, .read⟩ s = .next (answer p (.data (bankRead (s.bank p) off w.bytes)) s) :=
  if_neg (not_not.2 h)

theorem bankAccess_write {off : Nat} {w : Width} (h : off % w.bytes = 0) (p : PortId) (addr : Nat) (v : Word)
    (s : State) : bankAccess p off ⟨addr, w, .write v⟩ s = bankWrite p off w v (answer p .written s) :=
  if_neg (not_not.2 h)

theorem hostStep_cmdWrite {s : State} {p : PortId} {w : Word} {rest : List Access}
    (hh : (s.bank p).host = cmdWrite s.cfg p w :: rest) (hb : s.busy p = false) :
    hostStep p s = issue p w (answer p .written s) := by
  have ho : bankOffset s.cfg p (cmdWrite s.cfg p w).addr = some 0 :=
    bankOffset_base (k := 0) (by omega)
  rw [hostStep_access hh ho (by rw [hb, Bool.false_and])]
  exact bankAccess_write rfl p _ w s

theorem issue_instr {p : PortId} {w : Word} {i : Instr} (h : decode w = .instr i) (s : State) :
    issue p w s = exec i { s with issuer := p } := by
  simp only [issue, h]

theorem step_of_script {s : State} {e : Event} {es : List Event} (hl : ConfigLegal s.cfg)
    (hs : s.script = e :: es) : step s = runEvent e (advance s) := by
  rw [step, if_pos hl, nextEvent, hs]

theorem hostStep_statusRead {s : State} {p : PortId} {rest : List Access}
    (hh : (s.bank p).host = ⟨bankBase s.cfg p + 4, .w32, .read⟩ :: rest) :
    hostStep p s = .next (answer p (.data (statusWord (s.bank p).rc (s.busy p))) s) := by
  have ho : bankOffset s.cfg p (bankBase s.cfg p + 4) = some 4 := bankOffset_base (by omega)
  rw [hostStep_access hh ho (Bool.and_false _), State.busy, ← bankRead_status]
  exact bankAccess_read rfl p _ s

/-- Settles O4: the write lies at offset 0 of the port's bank and is not held, so it issues its word. -/
theorem stepRunsDecodedCommand : Obligations.StepRunsDecodedCommand := by
  unfold Obligations.StepRunsDecodedCommand
  intro s p w i es rest hl hs hh hb hd
  have hh' : ((advance s).bank p).host = cmdWrite (advance s).cfg p w :: rest := hh
  calc step s = hostStep p (advance s) := step_of_script hl hs
    _ = issue p w (answer p .written (advance s)) := hostStep_cmdWrite hh' hb
    _ = exec i { answer p .written (advance s) with issuer := p } := issue_instr hd _
    _ = _ := by rw [answer_eq hh', advance, hs]; rfl

/-- Settles O45: only a read inside STATUS passes the hold of a BUSY port. -/
theorem busyPortHoldsAccesses : Obligations.BusyPortHoldsAccesses := by
  unfold Obligations.BusyPortHoldsAccesses
  intro s p a off rest hb hh ho hop
  exact hostStep_held hh ho (by rw [hb, isStatusRead_eq_false hop]; rfl)

/-- Settles O46: the read passes the hold, and its answer changes the host's list and last reply alone. -/
theorem statusReadAnswersAlways : Obligations.StatusReadAnswersAlways := by
  unfold Obligations.StatusReadAnswersAlways
  intro s p rest hh
  refine ⟨_, statusWord (s.bank p).rc (s.busy p), hostStep_statusRead hh, ?_⟩
  rw [answer_eq hh, bank_updBank]
  exact ⟨rfl, toNat_statusWord _ _, rfl, rfl, rfl, rfl, rfl, rfl, rfl, onlyBank_updBank s p _⟩

end Sys2Proof.Machine
end

section
/-! SUPPORT. The state after the first power-up, read through its queries: its values (O50) and the
invariant (O53). -/

namespace Sys2Proof.Machine

section Launch
variable (c : Config) (p : PortId) (q : QueueId)

theorem bank_launch :
    (State.launch c).bank p = Bank.atReset (List.replicate 256 0) (List.replicate 128 0) [] := by
  cases p <;> rfl

theorem queue_launch : (State.launch c).queue q = [] := by cases q <;> rfl

theorem pendQueue_launch : (State.launch c).pendQueue p q = [] := by cases p <;> cases q <;> rfl

theorem pendFlags_launch : (State.launch c).pendFlags p = [] := by cases p <;> rfl

theorem current_launch : ((State.launch c).bank p).current = none := by rw [bank_launch]; rfl

theorem load_launch : (State.launch c).load q = 0 := by
  simp [State.load, queue_launch, pendQueue_launch]

end Launch

/-- Settles O50: no part of the state but the parameters and the device depends on the configuration. -/
theorem resetValues : Obligations.ResetValues := by
  unfold Obligations.ResetValues
  refine ⟨rfl, fun c => ⟨fun p => ?_, rfl, queue_launch c, rfl, rfl, rfl⟩⟩
  rw [State.busy, bank_launch]
  exact ⟨rfl, rfl, rfl, rfl, rfl, pendFlags_launch c p, pendQueue_launch c p⟩

/-- Settles O53: queues and buffers are empty and no command is current; the device's form is the legality of
DEV_INIT. -/
theorem invariantAtReset : Obligations.InvariantAtReset := by
  unfold Obligations.InvariantAtReset
  intro c hc
  obtain ⟨-, -, -, -, -, -, -, hform, hrange⟩ := id hc
  exact {
    legal := hc
    bufLength := fun p => by rw [bank_launch]; exact List.length_replicate
    msgLength := fun p => by rw [bank_launch]; exact List.length_replicate
    scrLength := List.length_replicate
    devForm := hform
    devRange := hrange
    capacity := fun q => by rw [load_launch]; exact Nat.zero_le _
    depth := fun p => by rw [pendFlags_launch]; exact Nat.zero_le _
    landed := fun q => by rw [queue_launch]; exact nofun
    pending := fun p q => by rw [pendQueue_launch]; exact nofun
    senders := fun p q h => absurd (pendQueue_launch c p q) h
    flagOwner := fun p => by rw [pendFlags_launch]; exact nofun
    sequencer := trivial
    current := fun p cur h => by rw [current_launch] at h; cases h
    gates := fun p i q h => by rw [current_launch] at h; cases h }

end Sys2Proof.Machine
end

section
/-! SUPPORT. Which steps change a bank (O56), and of those which change its accumulator (O12). -/

namespace Sys2Proof.Machine

/-! ### The other banks -/

theorem sameOthers_updBank (s : State) (p : PortId) (f : Bank → Bank) : SameOthers p s (s.updBank p f) :=
  fun _ hr => bank_updBank_other s p f hr

theorem sameOthers_receive (p : PortId) (q : QueueId) (s : State) : SameOthers p s (receive p q s) := by
  cases h : s.queue q with
  | nil => rw [receive_nil h]; exact fun _ _ => rfl
  | cons m rest => rw [receive_cons h]; exact sameOthers_updBank (s.setQueue q rest) p _

theorem sameOthers_resume (h : Hold) (p : PortId) (s : State) : SameOthers p s (h.resume p s) := by
  rcases resume_cases h p s with ⟨q, -, e⟩ | ⟨q, -, -, e⟩ | ⟨q, -, e⟩ | ⟨ops, -, e⟩ | ⟨-, e⟩ <;> rw [e]
  · exact sameOthers_updBank (postMessage p q s) p _
  · exact sameOthers_updBank s p _
  · exact sameOthers_receive p q s
  · exact sameOthers_updBank (postFlags p ops s) p _
  · rw [finish_eq, setRes0_eq, updBank_updBank]; exact sameOthers_updBank s p _

theorem sameOthers_retest (p : PortId) (s : State) : SameOthers p s (retest p s) := by
  rcases retest_cases p s with e | ⟨_, h, _, _, e⟩ <;> rw [e]
  · exact fun _ _ => rfl
  · exact sameOthers_resume h p s

/-- Settles O56: a host step, a port step and a sequencer step leave the other banks alone, and a landing
changes a bank by a drop alone. -/
theorem banksArePrivate : Obligations.BanksArePrivate := by
  unfold Obligations.BanksArePrivate
  intro e s t p he hne
  have own : ∀ {r}, SameOthers r s t → p = r := fun ho => by_contra fun hr => hne (ho p hr)
  cases e with
  | host r => exact .inl (by rw [own (onlyPort_hostStep he).others])
  | port r =>
    cases he
    exact .inr (.inl (by rw [own (sameOthers_retest r s)]))
  | sequencer ok took => exact .inr (.inr (.inl ⟨own (storeFrame_seqStep he).others, ok, took, rfl⟩))
  | land r x =>
    cases he
    obtain hb | ⟨rfl, hg, -, hb⟩ := bank_land r x s p
    · exact absurd hb hne
    · refine .inr (.inr (.inr (.inl ⟨⟨r, rfl⟩, hg, ⟨by rw [hb], by rw [State.busy, hb]; rfl⟩, ?_⟩)))
      constructor <;> rw [hb]
  | powerLoss took boot => exact .inr (.inr (.inr (.inr ⟨took, boot, rfl⟩)))

/-! ### The accumulator (10_state.md R27) -/

/-- The three commands that write the accumulator (40_crc.md R126 to R128). -/
def WritesAccumulator (i : Instr) : Prop := i = .crcInit ∨ (∃ b, i = .crcByte b) ∨ ∃ n, i = .crcBuf n

theorem crc_receive (p : PortId) (q : QueueId) (s : State) :
    ((receive p q s).bank p).crc = (s.bank p).crc := by
  cases h : s.queue q with
  | nil => rw [receive_nil h]
  | cons m rest => simp [receive_cons h]

theorem crc_resume (h : Hold) (p : PortId) (s : State) : ((h.resume p s).bank p).crc = (s.bank p).crc := by
  rcases resume_cases h p s with ⟨q, -, e⟩ | ⟨q, -, -, e⟩ | ⟨q, -, e⟩ | ⟨ops, -, e⟩ | ⟨-, e⟩ <;> rw [e]
  case inr.inr.inl => exact crc_receive p q s
  all_goals simp

theorem crc_retest (p : PortId) (s : State) : ((retest p s).bank p).crc = (s.bank p).crc := by
  rcases retest_cases p s with e | ⟨_, h, _, _, e⟩ <;> rw [e]
  exact crc_resume h p s

theorem crc_awaitHold (p : PortId) (i : Instr) (h : Hold) (s : State) :
    ((awaitHold p i h s).bank p).crc = (s.bank p).crc := by
  unfold awaitHold
  split
  · exact crc_resume h p s
  · simp

theorem crc_checked {argOk permOk : Bool} {run : State → State} {s t : State}
    (he : checked argOk permOk run s = .next t)
    (h : ((run s).bank s.issuer).crc = (s.bank s.issuer).crc) :
    (t.bank s.issuer).crc = (s.bank s.issuer).crc := by
  rcases checked_cases he with ⟨-, rfl⟩ | ⟨-, -, rfl⟩ | ⟨-, -, rfl⟩
  · simp
  · simp
  · exact h

theorem crc_postOps {i : Instr} {ops : List FlagOp} {s t : State} (he : postOps i ops s = .next t) :
    (t.bank s.issuer).crc = (s.bank s.issuer).crc := by
  refine crc_checked he ?_
  split
  · simp
  · exact crc_awaitHold _ _ _ s

theorem crc_exec {i : Instr} {s t : State} (he : exec i s = .next t) (hi : ¬WritesAccumulator i) :
    (t.bank s.issuer).crc = (s.bank s.issuer).crc := by
  cases i with
  | crcInit => exact absurd (.inl rfl) hi
  | crcByte b => exact absurd (.inr (.inl ⟨b, rfl⟩)) hi
  | crcBuf n => exact absurd (.inr (.inr ⟨n, rfl⟩)) hi
  | crcSeal m => exact crc_checked he (by simp [sealBuf])
  | crcCheck m =>
    refine crc_checked he ?_
    unfold checkBuf
    split <;> simp
  | stRawRead | stRawWrite =>
    simp only [exec, execStRawRead, execStRawWrite] at he
    refine crc_checked he ?_
    split <;> simp [finishEmptyTransfer]
  | stWriteStatus | stReadStatus | logWrite | logRead | logDelete =>
    exact crc_checked he (by simp)
  | qSend q | qSendc q =>
    rcases sendChecked_cases he with rfl | rfl | ⟨x, -, -, -, rfl⟩
    · simp
    · simp
    · exact crc_awaitHold _ _ _ s
  | qTryrecv q =>
    rcases receiveChecked_cases he with rfl | rfl | ⟨x, -, -, rfl⟩
    · simp
    · simp
    · split
      · simp
      · exact crc_receive _ x s
  | qRecv q =>
    rcases receiveChecked_cases he with rfl | rfl | ⟨x, -, -, rfl⟩
    · simp
    · simp
    · exact crc_awaitHold _ _ _ s
  | flagSet m | flagClear m => exact crc_postOps he
  | flagGet => cases he; exact crc_awaitHold _ _ _ s

theorem crc_answer (p : PortId) (r : Reply) (s : State) : ((answer p r s).bank p).crc = (s.bank p).crc := by
  simp [answer]

/-- The one host access that changes the accumulator (10_state.md R23, R27). -/
theorem crc_hostStep {p : PortId} {s t : State} (he : hostStep p s = .next t) :
    (t.bank p).crc = (s.bank p).crc
      ∨ s.busy p = false ∧ ∃ w i, (s.bank p).host.head? = some (cmdWrite s.cfg p w) ∧ decode w = .instr i
        ∧ WritesAccumulator i := by
  rcases hostStep_cases he with rfl | ⟨r, rfl⟩ | ⟨a, rest, v, off, hh, -, -, hn, h⟩
  · exact .inl rfl
  · exact .inl (crc_answer p r s)
  have ha := crc_answer p .written s
  rcases h with ⟨rfl, i, hd, h⟩ | ⟨-, why, -, rfl⟩ | rfl | rfl
  · by_cases hi : WritesAccumulator i
    · exact .inr ⟨by rw [State.busy, hn]; rfl, v, i, by rw [hh]; rfl, hd, hi⟩
    · exact .inl ((crc_exec h hi).trans ha)
  · exact .inl (by rw [raise_eq, bank_updBank]; exact ha)
  · exact .inl (by rw [bank_updBank]; exact ha)
  · exact .inl (by rw [bank_updBank]; exact ha)

/-- Settles O12: of the steps that change a bank (O56), all but a host step and a power loss keep its
accumulator. -/
theorem accumulatorWrittenOnlyByCrcCommands : Obligations.AccumulatorWrittenOnlyByCrcCommands := by
  unfold Obligations.AccumulatorWrittenOnlyByCrcCommands
  intro e s t p he hne
  obtain rfl | rfl | ⟨rfl, ok, took, rfl⟩ | ⟨-, -, -, hst⟩ | hpower :=
    banksArePrivate e s t p he fun hb => hne (by rw [hb])
  · obtain hk | hw := crc_hostStep he
    · exact absurd hk hne
    · exact .inr ⟨rfl, hw⟩
  · cases he
    exact absurd (crc_retest p s) hne
  · exact absurd (storeFrame_seqStep he).crc hne
  · exact absurd hst.crc hne
  · exact .inl hpower

end Sys2Proof.Machine
end

section
/-! SUPPORT. One device transaction: the bytes it sends (O23), the settle after a write (O22), and how a
command ends whose transaction fails (O20, O21). -/

namespace Sys2Proof.Machine

/-! ### The sequencer's step, by what is pending -/

section Pending
variable {s : State} {cmd : Instr} (ok : Bool) (took : BitVec 256)

theorem seqStep_memRead {addr n : Nat} {k : AfterRead} (hs : s.seq = .active cmd (.memRead addr n k))
    (hin : inDevice s.cfg addr n = true) :
    seqStep ok took s
      = .next (if ok then afterRead cmd k (memRead ok addr n s) else seqFinish .bus (memRead ok addr n s)) := by
  simp only [seqStep, hs, hin, if_true]

theorem seqStep_memWrite {addr : Nat} {data : List Byte} {k : AfterWrite}
    (hs : s.seq = .active cmd (.memWrite addr data k)) (hin : inDevice s.cfg addr data.length = true) :
    seqStep ok took s
      = .next (seqGo cmd (settleOf ok addr data s.dev k) (memWrite ok took addr data s)) := by
  simp only [seqStep, hs, hin, if_true]

theorem seqStep_settle {w : Outstanding} {k : AfterWrite} (hs : s.seq = .active cmd (.settle w k)) :
    seqStep ok took s = .next (if w.ok then afterWrite cmd k s else seqFinish .bus s) := by
  simp only [seqStep, hs]

end Pending

/-- A MemWrite that answers a next state stays in the device, and its settle is next. -/
theorem eq_of_seqStep_memWrite {s t : State} {cmd : Instr} {addr : Nat} {data : List Byte} {k : AfterWrite}
    {ok : Bool} {took : BitVec 256} (hs : s.seq = .active cmd (.memWrite addr data k))
    (he : seqStep ok took s = .next t) :
    t = seqGo cmd (settleOf ok addr data s.dev k) (memWrite ok took addr data s) := by
  obtain ⟨h, -⟩ | ⟨_, _, _, _, h, -⟩ | ⟨_, _, _, _, h, hin, -⟩ | ⟨_, _, _, h, -⟩ := seqStep_cases he <;>
    cases hs.symm.trans h
  exact (Host.Outcome.next.inj ((seqStep_memWrite ok took hs hin).symm.trans he)).symm

/-- A MemRead that answers a next state stays in the device. -/
theorem eq_of_seqStep_memRead {s t : State} {cmd : Instr} {addr n : Nat} {k : AfterRead} {ok : Bool}
    {took : BitVec 256} (hs : s.seq = .active cmd (.memRead addr n k)) (he : seqStep ok took s = .next t) :
    t = if ok then afterRead cmd k (memRead ok addr n s) else seqFinish .bus (memRead ok addr n s) := by
  obtain ⟨h, -⟩ | ⟨_, _, _, _, h, hin, -⟩ | ⟨_, _, _, _, h, -⟩ | ⟨_, _, _, h, -⟩ := seqStep_cases he <;>
    cases hs.symm.trans h
  exact (Host.Outcome.next.inj ((seqStep_memRead ok took hs hin).symm.trans he)).symm

/-- Settles O22: a MemWrite, whatever its draw, makes its own settle the pending step. -/
theorem everyWriteIsSettled : Obligations.EveryWriteIsSettled := by
  unfold Obligations.EveryWriteIsSettled
  intro s t cmd addr data k ok took hs he
  rw [eq_of_seqStep_memWrite hs he]
  exact ⟨⟨_, rfl, rfl, rfl, rfl⟩, rfl⟩

/-! ### The bytes on the device bus (20_memory.md R62, R70) -/

theorem addressBytes_ofBytes (hi lo : Byte) : addressBytes (hi.toNat * 256 + lo.toNat) = [hi, lo] := by
  have hhi := hi.isLt
  have hlo := lo.isLt
  have h1 : hiByte (BitVec.ofNat 16 (hi.toNat * 256 + lo.toNat)) = hi := by
    apply BitVec.eq_of_toNat_eq
    simp only [hiByte, BitVec.extractLsb'_toNat, BitVec.toNat_ofNat, Nat.shiftRight_eq_div_pow]
    omega
  have h2 : loByte (BitVec.ofNat 16 (hi.toNat * 256 + lo.toNat)) = lo := by
    apply BitVec.eq_of_toNat_eq
    simp only [loByte, BitVec.extractLsb'_toNat, BitVec.toNat_ofNat, Nat.shiftRight_eq_div_pow]
    omega
  rw [addressBytes, bigEndian, h1, h2]

theorem bus_deliverRecord (m : Nat) (s : State) : (deliverRecord m s).bus = s.bus := by
  unfold deliverRecord
  split <;> rfl

/-- What a command does with the bytes it has read makes no transaction. -/
theorem bus_afterRead (cmd : Instr) (k : AfterRead) (s : State) : (afterRead cmd k s).bus = s.bus := by
  cases k with
  | readStatus m => exact bus_deliverRecord m s
  | rawRead n => rfl
  | logPointer => unfold afterRead; dsimp only; split <;> rfl
  | logScan i =>
    unfold afterRead
    dsimp only
    repeat' split
    all_goals rfl
  | logRead =>
    unfold afterRead
    dsimp only
    split
    · rfl
    · exact bus_deliverRecord slotBytes s

/-- Settles O23: the address is cut into its two bytes, and nothing after the transaction in its step is
sent. -/
theorem transactionsSendAddressHighByteFirst : Obligations.TransactionsSendAddressHighByteFirst := by
  unfold Obligations.TransactionsSendAddressHighByteFirst
  intro s t cmd hi lo ok took he
  refine ⟨fun data k hs => ?_, fun n k hs => ?_⟩
  · rw [eq_of_seqStep_memWrite hs he]
    show some (Transaction.write (addressBytes _ ++ data) ok) = _
    rw [addressBytes_ofBytes]
    rfl
  · have hbus : t.bus = (memRead ok (hi.toNat * 256 + lo.toNat) n s).bus := by
      rw [eq_of_seqStep_memRead hs he]
      split
      · exact bus_afterRead cmd k _
      · rfl
    rw [hbus, ← addressBytes_ofBytes]
    rfl

/-! ### Failed transactions (41_store.md R140(c)) -/

theorem inDevice_of_le {c : Config} {addr n : Nat} (h : addr + n ≤ c.devSize) : inDevice c addr n = true :=
  decide_eq_true h

/-- What a failed or torn write leaves in the device, byte by byte (20_memory.md R64). -/
theorem read_writeBytes_mix {m : Memory} (hm : Memory.wf m) (took : BitVec 256) (addr : Nat) (data : List Byte)
    {i : Nat} (h : i < data.length) :
    (m.writeBytes addr (mix took (m.readBytes addr data.length) data)).read (addr + i)
      = if took.getLsbD i then data[i] else m.read (addr + i) := by
  rw [Memory.read_writeBytes_inside hm addr _ (by simpa using h), getElem_mix _ _ _ _ (by simpa using h) h]
  simp [Memory.readBytes]

theorem read_writeBytes_mix_outside (m : Memory) (took : BitVec 256) {addr a : Nat} {data : List Byte}
    (h : a < addr ∨ addr + data.length ≤ a) :
    (m.writeBytes addr (mix took (m.readBytes addr data.length) data)).read a = m.read a :=
  Memory.read_writeBytes_outside (by simpa using h)

/-- Settles O20: the write leaves the mix of its draw, and the settle of a failed write finishes with BUS. -/
theorem failedWriteEndsInBus : Obligations.FailedWriteEndsInBus := by
  unfold Obligations.FailedWriteEndsInBus
  intro s cmd addr data k took took' ok' hs hin hwf
  refine ⟨_, _, seqStep_memWrite false took hs (inDevice_of_le hin), rfl, seqStep_settle ok' took' rfl,
    completed_seqFinish .bus _, rfl, fun i hi => ?_, fun a ha => ?_, ?_⟩
  · exact read_writeBytes_mix hwf took addr data hi
  · exact read_writeBytes_mix_outside s.dev took ha
  · exact storeFrameNoData_seqFinish _ (storeFrameNoData_seqGo _ _
      (storeFrameNoData_memWrite (storeFrameNoData_refl s) _ _ _ _))

/-- Settles O21: the step of a failed read finishes with BUS and writes SCR alone. -/
theorem failedReadEndsInBus : Obligations.FailedReadEndsInBus := by
  unfold Obligations.FailedReadEndsInBus
  intro s cmd addr n k took hs hin
  exact ⟨_, seqStep_memRead false took hs (inDevice_of_le hin), completed_seqFinish .bus _, rfl, fun _ => rfl,
    storeFrameNoData_seqFinish _ (storeFrameNoData_memRead (storeFrameNoData_refl s) _ _ _)⟩

end Sys2Proof.Machine
end

section
/-! SUPPORT. An aligned access of a host: what a read answers at each offset of the bank (O47), what a write
changes (O48); and the answer to a misaligned access (O49). -/

namespace Sys2Proof.Machine

/-! ### The accesses that are not held -/

theorem hostStep_notBusy {p : PortId} {s : State} {a : Access} {rest : List Access} {off : Nat}
    (hh : (s.bank p).host = a :: rest) (ho : bankOffset s.cfg p a.addr = some off) (hb : s.busy p = false) :
    hostStep p s = bankAccess p off a s :=
  hostStep_access hh ho (by rw [hb, Bool.false_and])

theorem isStatusRead_eq_true {off : Nat} (h : 4 ≤ off ∧ off < 8) : isStatusRead off .read = true := by
  simp [isStatusRead, h]

/-- Settles O49: the bus error is an answer, which changes the host's list and its last reply alone. -/
theorem misalignedAccessIsBusError : Obligations.MisalignedAccessIsBusError := by
  unfold Obligations.MisalignedAccessIsBusError
  intro s p a off rest hb hh ho hmis
  have he : hostStep p s = .next (answer p .busError s) := (hostStep_notBusy hh ho hb).trans (if_pos hmis)
  refine ⟨_, he, ?_⟩
  rw [answer_eq hh, bank_updBank]
  exact ⟨rfl, rfl, rfl, rfl, rfl, rfl, rfl, rfl, onlyBank_updBank s p _⟩

/-! ### The value of a read (20_memory.md R67, R71) -/

theorem toNat_littleEndian_cons (b : Byte) {bs : List Byte} (h : (littleEndian bs).toNat < 2 ^ 24) :
    (littleEndian (b :: bs)).toNat = b.toNat + 2 ^ 8 * (littleEndian bs).toNat := by
  have hb := b.isLt
  rw [littleEndian, BitVec.toNat_or, BitVec.toNat_shiftLeft, BitVec.toNat_setWidth, Nat.shiftLeft_eq,
    Nat.mod_eq_of_lt (a := b.toNat) (by omega), Nat.mod_eq_of_lt (by omega), Nat.mul_comm,
    ← Nat.two_pow_add_eq_or_of_lt hb, Nat.add_comm]

theorem toNat_littleEndian_one (a : Byte) : (littleEndian [a]).toNat = a.toNat :=
  toNat_littleEndian_cons a (bs := []) (by decide)

theorem toNat_littleEndian_two (a b : Byte) : (littleEndian [a, b]).toNat = a.toNat + 2 ^ 8 * b.toNat := by
  rw [toNat_littleEndian_cons a, toNat_littleEndian_one]
  rw [toNat_littleEndian_one]; omega

theorem toNat_littleEndian_three (a b c : Byte) :
    (littleEndian [a, b, c]).toNat = a.toNat + 2 ^ 8 * b.toNat + 2 ^ 16 * c.toNat := by
  rw [toNat_littleEndian_cons a, toNat_littleEndian_two]
  · omega
  · rw [toNat_littleEndian_two]; omega

theorem toNat_littleEndian_four (a b c d : Byte) :
    (littleEndian [a, b, c, d]).toNat
      = a.toNat + 2 ^ 8 * b.toNat + 2 ^ 16 * c.toNat + 2 ^ 24 * d.toNat := by
  rw [toNat_littleEndian_cons a, toNat_littleEndian_three]
  · omega
  · rw [toNat_littleEndian_three]; omega

section Read
variable (b : Bank) (off : Nat)

theorem toNat_bankRead_one : (bankRead b off 1).toNat = (bankByte b off).toNat :=
  toNat_littleEndian_one _

theorem toNat_bankRead_two :
    (bankRead b off 2).toNat = (bankRead b off 1).toNat + 2 ^ 8 * (bankRead b (off + 1) 1).toNat := by
  simp only [toNat_bankRead_one]
  exact toNat_littleEndian_two _ _

theorem toNat_bankRead_four :
    (bankRead b off 4).toNat = (bankRead b off 1).toNat + 2 ^ 8 * (bankRead b (off + 1) 1).toNat
      + 2 ^ 16 * (bankRead b (off + 2) 1).toNat + 2 ^ 24 * (bankRead b (off + 3) 1).toNat := by
  simp only [toNat_bankRead_one]
  exact toNat_littleEndian_four _ _ _ _

end Read

/-! ### The map of a bank (20_memory.md R66) -/

theorem toNat_lane_setWidth (h : Half) (i : Nat) :
    (lane (h.setWidth 32) i).toNat = h.toNat / 2 ^ (8 * i) % 2 ^ 8 := by
  have := h.isLt
  rw [lane, BitVec.extractLsb'_toNat, BitVec.toNat_setWidth, Nat.shiftRight_eq_div_pow,
    Nat.mod_eq_of_lt (a := h.toNat) (by omega)]

/-- A 32-bit read of a register that stands in its lanes answers the register. -/
theorem bankRead_of_lanes {b : Bank} {off : Nat} {v : Word}
    (h : ∀ i, i < 4 → bankByte b (off + i) = lane v i) : bankRead b off 4 = v := by
  rw [bankRead, ← littleEndian_lanes v]
  congr 1
  exact List.map_congr_left fun i hi => h i (List.mem_range.1 hi)

section Map
variable {b : Bank}

theorem bankByte_reserved {off : Nat} (h : (0x010 ≤ off ∧ off < 0x100) ∨ (0x280 ≤ off ∧ off < 0x400)) :
    bankByte b off = 0 := by
  unfold bankByte
  grind

theorem bankByte_cmd {off : Nat} (h : off < 4) : bankByte b off = 0 := if_pos h

theorem bankByte_res0 {i : Nat} (h : i < 4) : bankByte b (0x008 + i) = lane (b.res0.setWidth 32) i := by
  unfold bankByte
  grind

theorem bankByte_crc {i : Nat} (h : i < 4) : bankByte b (0x00C + i) = lane (b.crc.setWidth 32) i := by
  unfold bankByte
  grind

theorem bankByte_buf (hl : b.buf.length = 256) {i : Nat} (h : i < b.buf.length) :
    bankByte b (0x100 + i) = b.buf[i] := by
  unfold bankByte
  grind

theorem bankByte_msg (hl : b.msg.length = 128) {i : Nat} (h : i < b.msg.length) :
    bankByte b (0x200 + i) = b.msg[i] := by
  unfold bankByte
  grind

end Map

/-- Settles O47: a read is answered with `bankRead`, whose value is that of its bytes. -/
theorem bankReadsFollowTheMap : Obligations.BankReadsFollowTheMap := by
  unfold Obligations.BankReadsFollowTheMap
  refine ⟨fun s p off w rest hoff hal hb hh => ?_, fun b hbuf hmsg => ?_⟩
  · have hheld : (s.busy p && !isStatusRead off .read) = false := by
      rcases hb with hb | hb
      · rw [hb, Bool.false_and]
      · rw [isStatusRead_eq_true hb, Bool.not_true, Bool.and_false]
    have he := (hostStep_access hh (bankOffset_base hoff) hheld).trans (bankAccess_read hal p _ s)
    refine ⟨_, he, ?_⟩
    rw [answer_eq hh, bank_updBank]
    exact ⟨rfl, rfl, rfl, rfl, rfl, rfl, rfl, rfl, onlyBank_updBank s p _⟩
  · have hcrc := b.crc.isLt
    have hres := b.res0.isLt
    refine ⟨?_, ?_, ?_, ?_, ?_, ?_, fun off h => ?_, fun i h => ?_, fun i h => ?_,
      toNat_bankRead_two b, toNat_bankRead_four b⟩
    · exact bankRead_of_lanes (v := 0) fun i hi => (bankByte_cmd (by omega)).trans (by simp [lane])
    · rw [bankRead_status, toNat_statusWord]
    · rw [bankRead_of_lanes fun i hi => bankByte_res0 hi, BitVec.toNat_setWidth]; omega
    · rw [bankRead_of_lanes fun i hi => bankByte_crc hi, BitVec.toNat_setWidth]; omega
    · rw [toNat_bankRead_one, bankByte_crc (i := 0) (by omega), toNat_lane_setWidth]; omega
    · rw [toNat_bankRead_one, bankByte_crc (i := 1) (by omega), toNat_lane_setWidth]; omega
    · rw [bankRead_one, bankByte_reserved h]; rfl
    · rw [toNat_bankRead_one, bankByte_buf hbuf h]
    · rw [toNat_bankRead_one, bankByte_msg hmsg h]

/-! ### What a write changes (20_memory.md R66, R67, R69) -/

section Write
variable {p : PortId} {off : Nat} {w : Width} {v : Word} {s : State}

theorem bankWrite_ignored (hw : off < 4 → w ≠ .w32) (h : off < 0x100 ∨ 0x280 ≤ off) :
    bankWrite p off w v s = .next s := by
  unfold bankWrite
  grind

theorem bankWrite_buf (h1 : 0x100 ≤ off) (h2 : off < 0x200) :
    bankWrite p off w v s = .next (s.updBank p fun b =>
      { b with buf := spliceAt (off - 0x100) (laneBytes v w.bytes) b.buf }) := by
  rw [bankWrite, if_neg (by omega), if_neg (by omega), if_pos h2]

theorem bankWrite_msg (h1 : 0x200 ≤ off) (h2 : off < 0x280) :
    bankWrite p off w v s = .next (s.updBank p fun b =>
      { b with msg := spliceAt (off - 0x200) (laneBytes v w.bytes) b.msg }) := by
  rw [bankWrite, if_neg (by omega), if_neg (by omega), if_neg (by omega), if_pos h2]

end Write

/-- An aligned access ends before a multiple of 4 that lies past its offset. -/
theorem aligned_end {off k : Nat} {w : Width} (hal : off % w.bytes = 0) (h : off < k) (hk : 4 ∣ k) :
    off + w.bytes ≤ k := by
  cases w <;> simp only [Width.bytes] at hal ⊢ <;> omega

/-- Storing the bytes of a write in a buffer that begins at offset `base` of the bank. -/
theorem getElem?_store {buf : List Byte} {base off n : Nat} (v : Word) (h1 : base ≤ off)
    (h2 : off + n ≤ base + buf.length) (i : Nat) :
    (spliceAt (off - base) (laneBytes v n) buf)[i]?
      = if off ≤ base + i ∧ base + i < off + n then some (lane v (base + i - off)) else buf[i]? := by
  rw [getElem?_spliceAt i (by rw [length_laneBytes]; omega), length_laneBytes]
  by_cases hi : off ≤ base + i ∧ base + i < off + n
  · rw [if_pos (by omega), if_pos hi, getElem?_laneBytes v (by omega)]
    congr 2; omega
  · rw [if_neg (by omega), if_neg hi]

/-- Settles O48: the offset is in BUF, in MSG, or where a write is ignored; an aligned write does not reach
from one of them into the next. -/
theorem hostWritesFollowTheMap : Obligations.HostWritesFollowTheMap := by
  unfold Obligations.HostWritesFollowTheMap
  intro s p off w v rest hb hbuf hmsg hoff hal hcmd hh
  have he := (hostStep_notBusy hh (bankOffset_base hoff) hb).trans (bankAccess_write hal p _ v s)
  rw [answer_eq hh] at he
  obtain h | ⟨h1, h2⟩ | ⟨h1, h2⟩ : (off < 0x100 ∨ 0x280 ≤ off) ∨ (0x100 ≤ off ∧ off < 0x200)
      ∨ (0x200 ≤ off ∧ off < 0x280) := by omega
  · have hend : off < 0x100 → off + w.bytes ≤ 0x100 := fun h => aligned_end hal h (by decide)
    rw [bankWrite_ignored hcmd h] at he
    refine ⟨_, he, onlyBank_updBank s p _, ?_⟩
    rw [bank_updBank]
    exact ⟨rfl, rfl, rfl, rfl, rfl, rfl, hbuf, hmsg, fun i hi => (if_neg (by omega)).symm,
      fun i hi => (if_neg (by omega)).symm⟩
  · have hend : off + w.bytes ≤ 0x200 := aligned_end hal h2 (by decide)
    rw [bankWrite_buf h1 h2, updBank_updBank] at he
    refine ⟨_, he, onlyBank_updBank s p _, ?_⟩
    rw [bank_updBank]
    exact ⟨rfl, rfl, rfl, rfl, rfl, rfl, (length_spliceAt _ _ _).trans hbuf, hmsg,
      fun i _ => getElem?_store v h1 (by rw [hbuf]; exact hend) i, fun i hi => (if_neg (by omega)).symm⟩
  · have hend : off + w.bytes ≤ 0x280 := aligned_end hal h2 (by decide)
    rw [bankWrite_msg h1 h2, updBank_updBank] at he
    refine ⟨_, he, onlyBank_updBank s p _, ?_⟩
    rw [bank_updBank]
    exact ⟨rfl, rfl, rfl, rfl, rfl, rfl, hbuf, (length_spliceAt _ _ _).trans hmsg,
      fun i hi => (if_neg (by omega)).symm, fun i _ => getElem?_store v h1 (by rw [hmsg]; exact hend) i⟩

end Sys2Proof.Machine
end

section
/-! SUPPORT. What a step does to the queues and the pending buffers: a landing takes the front entry of one
buffer, and every other step takes a landed entry or adds a pending one (O41). -/

namespace Sys2Proof.Machine

/-! ### A command leaves the dispatcher alone or lets a hold go on -/

theorem sameDispatcher_refl (s : State) : SameDispatcher s s :=
  ⟨rfl, fun _ => rfl, fun _ _ => rfl, fun _ => rfl⟩

theorem sameDispatcher_updBank (s : State) (p : PortId) (f : Bank → Bank) : SameDispatcher s (s.updBank p f) :=
  (onlyBank_updBank s p f).dispatcher

theorem sameDispatcher_startSequencer (p : PortId) (i : Instr) (x : SeqStep) (s : State) :
    SameDispatcher s (startSequencer p i x s) := ⟨rfl, fun _ => rfl, fun _ _ => rfl, fun _ => rfl⟩

theorem sameDispatcher_raise (p : PortId) (r : ResultCode) (s : State) : SameDispatcher s (raise p r s) :=
  sameDispatcher_updBank s p fun b => { b with rc := r, current := none }

theorem sameDispatcher_finish (p : PortId) (r : ResultCode) (s : State) : SameDispatcher s (finish p r s) :=
  sameDispatcher_raise p r s

theorem sameDispatcher_setRes0 (p : PortId) (v : Half) (s : State) : SameDispatcher s (setRes0 p v s) :=
  sameDispatcher_updBank s p fun b => { b with res0 := v }

theorem sameDispatcher_checkBuf (p : PortId) (m : Nat) (s : State) : SameDispatcher s (checkBuf p m s) := by
  unfold checkBuf
  split
  · exact (sameDispatcher_setRes0 p _ s).trans (sameDispatcher_finish p _ _)
  · exact sameDispatcher_finish p _ s

/-- The state t is s with its dispatcher unchanged, or what a hold of port p goes on to make of s. -/
def SameOrResumed (p : PortId) (s t : State) : Prop := SameDispatcher s t ∨ ∃ h : Hold, t = h.resume p s

theorem sameOrResumed_awaitHold (p : PortId) (i : Instr) (h : Hold) (s : State) :
    SameOrResumed p s (awaitHold p i h s) := by
  unfold awaitHold
  split
  · exact .inr ⟨h, rfl⟩
  · exact .inl (sameDispatcher_updBank s p _)

theorem sameOrResumed_checked {argOk permOk : Bool} {run : State → State} {s t : State}
    (he : checked argOk permOk run s = .next t) (h : SameOrResumed s.issuer s (run s)) :
    SameOrResumed s.issuer s t := by
  obtain ⟨-, rfl⟩ | ⟨-, -, rfl⟩ | ⟨-, -, rfl⟩ := checked_cases he
  · exact .inl (sameDispatcher_raise _ _ s)
  · exact .inl (sameDispatcher_raise _ _ s)
  · exact h

theorem sameOrResumed_postOps {i : Instr} {ops : List FlagOp} {s t : State} (he : postOps i ops s = .next t) :
    SameOrResumed s.issuer s t := by
  refine sameOrResumed_checked he ?_
  split
  · exact .inl (sameDispatcher_finish _ _ s)
  · exact sameOrResumed_awaitHold _ _ _ s

theorem sameOrResumed_exec {i : Instr} {s t : State} (he : exec i s = .next t) :
    SameOrResumed s.issuer s t := by
  cases i with
  | crcInit | crcByte | crcBuf =>
    cases he
    simp only [finishCrc, finish_eq, setRes0_eq, setCrc_eq, updBank_updBank]
    exact .inl (sameDispatcher_updBank s _ _)
  | crcSeal m =>
    refine sameOrResumed_checked he (.inl ?_)
    simp only [sealBuf, finish_eq, setRes0_eq, setBuf_eq, updBank_updBank]
    exact sameDispatcher_updBank s _ _
  | crcCheck m => exact sameOrResumed_checked he (.inl (sameDispatcher_checkBuf _ m s))
  | stRawRead a m | stRawWrite a m =>
    simp only [exec, execStRawRead, execStRawWrite] at he
    refine sameOrResumed_checked he (.inl ?_)
    split
    · exact (sameDispatcher_setRes0 _ _ s).trans (sameDispatcher_finish _ _ _)
    · exact sameDispatcher_startSequencer _ _ _ s
  | stWriteStatus | stReadStatus | logWrite | logRead | logDelete =>
    exact sameOrResumed_checked he (.inl (sameDispatcher_startSequencer _ _ _ s))
  | qSend q | qSendc q =>
    obtain rfl | rfl | ⟨x, -, -, -, rfl⟩ := sendChecked_cases he
    · exact .inl (sameDispatcher_raise _ _ s)
    · exact .inl (sameDispatcher_raise _ _ s)
    · exact sameOrResumed_awaitHold _ _ _ s
  | qTryrecv q =>
    obtain rfl | rfl | ⟨x, -, -, rfl⟩ := receiveChecked_cases he
    · exact .inl (sameDispatcher_raise _ _ s)
    · exact .inl (sameDispatcher_raise _ _ s)
    · split
      · exact .inl (sameDispatcher_finish _ _ s)
      · exact .inr ⟨.entry x, rfl⟩
  | qRecv q =>
    obtain rfl | rfl | ⟨x, -, -, rfl⟩ := receiveChecked_cases he
    · exact .inl (sameDispatcher_raise _ _ s)
    · exact .inl (sameDispatcher_raise _ _ s)
    · exact sameOrResumed_awaitHold _ _ _ s
  | flagSet m | flagClear m => exact sameOrResumed_postOps he
  | flagGet => cases he; exact sameOrResumed_awaitHold _ _ _ s

/-! ### A step that lands nothing -/

/-- A step that lands nothing changes queues and pending buffers at their ends only: it takes the front entry of
a queue, or adds a Message at the back of a buffer, or adds flag operations at the back of theirs. -/
structure NoLanding (s t : State) : Prop where
  messages : ∀ p q, ∃ gone added, gone.length + added.length ≤ 1 ∧ s.queue q = gone ++ t.queue q
    ∧ t.pendQueue p q = s.pendQueue p q ++ added
  pendFlags : ∀ p, ∃ ops, t.pendFlags p = s.pendFlags p ++ ops

theorem SameDispatcher.noLanding {s t : State} (h : SameDispatcher s t) : NoLanding s t where
  messages p q := ⟨[], [], Nat.zero_le _, (h.queues q).symm, by rw [h.pendQueues, List.append_nil]⟩
  pendFlags p := ⟨[], by rw [h.pendFlags, List.append_nil]⟩

theorem SameDispatcher.noLanding_trans {s s' t : State} (h : SameDispatcher s s') (h' : NoLanding s' t) :
    NoLanding s t where
  messages p q := by
    rw [← h.queues, ← h.pendQueues]
    exact h'.messages p q
  pendFlags p := by
    rw [← h.pendFlags]
    exact h'.pendFlags p

theorem noLanding_postMessage (p : PortId) (q : QueueId) (s : State) : NoLanding s (postMessage p q s) where
  messages r x := by
    by_cases hrx : r = p ∧ x = q
    · obtain ⟨rfl, rfl⟩ := hrx
      exact ⟨[], [(s.bank r).msg], Nat.le_refl _, rfl, pendQueue_setPendQueue s r x _⟩
    · have hpend : (postMessage p q s).pendQueue r x = s.pendQueue r x := by
        by_cases hr : r = p
        · exact pendQueue_setPendQueue_queue s p q _ (fun hx => hrx ⟨hr, hx⟩) r
        · exact pendQueue_setPendQueue_port s p q _ hr x
      exact ⟨[], [], Nat.zero_le _, rfl, by rw [hpend, List.append_nil]⟩
  pendFlags r := ⟨[], by rw [postMessage, pendFlags_setPendQueue, List.append_nil]⟩

theorem noLanding_postFlags (p : PortId) (ops : List FlagOp) (s : State) : NoLanding s (postFlags p ops s) where
  messages r x := ⟨[], [], Nat.zero_le _, rfl, by rw [postFlags, pendQueue_setPendFlags, List.append_nil]⟩
  pendFlags r := by
    by_cases hr : r = p
    · subst hr; exact ⟨ops, pendFlags_setPendFlags s r _⟩
    · exact ⟨[], by rw [postFlags, pendFlags_setPendFlags_other s p _ hr, List.append_nil]⟩

theorem noLanding_receive (p : PortId) (q : QueueId) (s : State) : NoLanding s (receive p q s) := by
  cases h : s.queue q with
  | nil => rw [receive_nil h]; exact (sameDispatcher_refl s).noLanding
  | cons m rest =>
    rw [receive_cons h]
    refine ⟨fun r x => ?_, fun r => ⟨[], (List.append_nil _).symm⟩⟩
    by_cases hx : x = q
    · subst hx
      exact ⟨[m], [], Nat.le_refl _, by simp [h], (List.append_nil _).symm⟩
    · exact ⟨[], [], Nat.zero_le _, (queue_setQueue_other s q rest hx).symm, (List.append_nil _).symm⟩

theorem NoLanding.updBank {s t : State} (h : NoLanding s t) (p : PortId) (f : Bank → Bank) :
    NoLanding s (t.updBank p f) := ⟨h.messages, h.pendFlags⟩

theorem noLanding_resume (h : Hold) (p : PortId) (s : State) : NoLanding s (h.resume p s) := by
  obtain ⟨q, -, e⟩ | ⟨q, -, -, e⟩ | ⟨q, -, e⟩ | ⟨ops, -, e⟩ | ⟨-, e⟩ := resume_cases h p s <;> rw [e]
  · exact (noLanding_postMessage p q s).updBank p _
  · exact (sameDispatcher_finish p _ s).noLanding
  · exact noLanding_receive p q s
  · exact (noLanding_postFlags p ops s).updBank p _
  · exact ((sameDispatcher_setRes0 p _ s).trans (sameDispatcher_finish p _ _)).noLanding

theorem SameOrResumed.noLanding {p : PortId} {s t : State} (h : SameOrResumed p s t) : NoLanding s t := by
  obtain h | ⟨h, rfl⟩ := h
  · exact h.noLanding
  · exact noLanding_resume h p s

theorem noLanding_hostStep {p : PortId} {s t : State} (he : hostStep p s = .next t) : NoLanding s t := by
  have hans (r : Reply) : SameDispatcher s (answer p r s) := sameDispatcher_updBank s p _
  obtain rfl | ⟨r, rfl⟩ | ⟨a, rest, v, off, -, -, -, -, h⟩ := hostStep_cases he
  · exact (sameDispatcher_refl _).noLanding
  · exact (hans r).noLanding
  · have hiss : SameDispatcher s { answer p .written s with issuer := p } :=
      ⟨rfl, fun _ => rfl, fun _ _ => rfl, fun _ => rfl⟩
    obtain ⟨-, i, -, h⟩ | ⟨-, why, -, rfl⟩ | rfl | rfl := h
    · exact hiss.noLanding_trans (sameOrResumed_exec h).noLanding
    · exact (hiss.trans (sameDispatcher_raise p _ _)).noLanding
    · exact (hans _).noLanding.updBank p _
    · exact (hans _).noLanding.updBank p _

theorem noLanding_retest (p : PortId) (s : State) : NoLanding s (retest p s) := by
  obtain e | ⟨i, h, -, -, e⟩ := retest_cases p s <;> rw [e]
  · exact (sameDispatcher_refl s).noLanding
  · exact noLanding_resume h p s

/-- Every step but a landing and a power loss. -/
theorem noLanding_runEvent {e : Event} {s t : State} (he : runEvent e s = .next t)
    (hland : ∀ p r, e ≠ .land p r) (hpower : ∀ took boot, e ≠ .powerLoss took boot) : NoLanding s t := by
  cases e with
  | host p => exact noLanding_hostStep he
  | port p => cases he; exact noLanding_retest p s
  | sequencer ok took => exact (storeFrame_seqStep he).dispatcher.noLanding
  | land p r => exact absurd rfl (hland p r)
  | powerLoss took boot => exact absurd rfl (hpower took boot)

/-! ### The sequence of a queue with one sender (20_memory.md R78, R79) -/

theorem eq_ctl_of_maySend {p : PortId} {q : QueueId} (h : maySend p q = true) (hq : q ≠ .ctl) : p = .ctl := by
  cases q with
  | ctl => exact absurd rfl hq
  | ui | net => exact of_decide_eq_true h

/-- A landing moves nothing in the sequence of a queue that CTL alone sends to. -/
theorem sequence_land {s : State} (hs : s.Inv) {q : QueueId} (hq : q ≠ .ctl) (p : PortId) (r : Resource) :
    (land p r s).queue q ++ (land p r s).pendQueue .ctl q = s.queue q ++ s.pendQueue .ctl q := by
  cases r with
  | flags => exact congrArg₂ _ (queue_landFlag p s q) (pendQueue_landFlag p .ctl s q)
  | queue x =>
    show (landMessage p x s).queue q ++ (landMessage p x s).pendQueue .ctl q = _
    rw [queue_landMessage, pendQueue_landMessage]
    by_cases hx : q = x
    · subst hx
      by_cases hp : p = .ctl
      · subst hp
        rw [if_pos rfl, if_pos ⟨rfl, rfl⟩, List.append_assoc]
        cases s.pendQueue .ctl q <;> rfl
      · have hnone : s.pendQueue p q = [] := by_contra fun h => hp (eq_ctl_of_maySend (hs.senders p q h) hq)
        rw [if_pos rfl, if_neg fun h => hp h.1.symm, hnone, List.take_nil, List.append_nil]
    · rw [if_neg hx, if_neg fun h => hx h.2]

/-- A state that meets the invariant steps by its next event. -/
theorem runEvent_of_step {s t : State} (hs : s.Inv) (he : step s = .next t) :
    runEvent (nextEvent s) (advance s) = .next t := by
  rwa [step, if_pos hs.legal] at he

/-- Settles O41: landings keep the sequence, and every other step takes its first entry or adds one at its
back. -/
theorem singleSenderOrderIsKept : Obligations.SingleSenderOrderIsKept := by
  unfold Obligations.SingleSenderOrderIsKept
  intro s t q hs hq he hpower
  have hrun := runEvent_of_step hs he
  by_cases hland : ∃ p r, nextEvent s = .land p r
  · obtain ⟨p, r, hev⟩ := hland
    rw [hev] at hrun
    cases hrun
    exact ⟨[], _, [], rfl, (sequence_land hs.advance hq p r).trans (List.append_nil _).symm, Nat.zero_le _⟩
  · have hno := noLanding_runEvent hrun (fun p r h => hland ⟨p, r, h⟩) hpower
    obtain ⟨gone, added, hlen, hqueue, hpend⟩ := hno.messages .ctl q
    refine ⟨gone, t.queue q ++ s.pendQueue .ctl q, added, ?_, ?_, hlen⟩
    · rw [← List.append_assoc, ← hqueue]; rfl
    · rw [hpend, List.append_assoc]; rfl

end Sys2Proof.Machine
end

section
/-! SUPPORT. Every step but a power loss keeps the invariant: the issuing step of each command, a host access,
and a sequencer step. -/

namespace Sys2Proof.Machine

/-! ### The issuing step of a command -/

theorem lenFits_iff {len : Nat} : lenFits len = true ↔ len ≤ 255 := by
  rw [lenFits, decide_eq_true_eq]; omega

theorem recordLength_iff {len : Nat} : recordLength len = true ↔ 3 ≤ len := decide_eq_true_iff

theorem length_namedOps_le (mk : FlagBit → FlagOp) (mask : BitVec 2) : (namedOps mk mask).length ≤ 2 := by
  unfold namedOps
  split <;> split <;> simp

section Issue
variable {s : State} (h : s.Inv) (hi : s.issuer = .ctl → s.seq = .idle)
include h hi

/-- The issuing port completes, its registers keeping their form. -/
theorem inv_complete {f : Bank → Bank} (hb : ∀ b, (f b).buf.length = b.buf.length)
    (hm : ∀ b, (f b).msg = b.msg) (hc : ∀ b, (f b).current = none) : (s.updBank s.issuer f).Inv :=
  h.complete _ hi f ((hb _).trans (h.bufLength _)) ((congrArg _ (hm _)).trans (h.msgLength _)) (hc _)

theorem inv_checked {argOk permOk : Bool} {run : State → State} {t : State}
    (he : checked argOk permOk run s = .next t) (hr : argOk = true → permOk = true → (run s).Inv) : t.Inv := by
  obtain ⟨-, rfl⟩ | ⟨-, -, rfl⟩ | ⟨ha, hp, rfl⟩ := checked_cases he
  · exact h.finish _ .errArg hi
  · exact h.finish _ .errPerm hi
  · exact hr ha hp

/-- A store or log command that CTL may issue starts the sequencer, its first transaction being one its rule
lists. -/
theorem inv_checked_start {argOk : Bool} {i : Instr} {first : SeqStep} {t : State}
    (he : checked argOk (s.issuer = .ctl) (startSequencer s.issuer i first) s = .next t)
    (hf : argOk = true → first.Fits s.cfg i) : t.Inv :=
  inv_checked h hi he fun ha hp => by
    rw [of_decide_eq_true hp]
    exact h.startSequencer (hf ha)

/-- A raw transfer of no bytes completes at once, any other starts the sequencer. -/
theorem inv_checked_transfer {addr : Half} {len : Nat} {i : Instr} {first : SeqStep} {t : State}
    (he : checked (inDevice s.cfg addr.toNat len) (s.issuer = .ctl)
      (fun s => if len = 0 then finishEmptyTransfer s.issuer s else startSequencer s.issuer i first s) s = .next t)
    (hf : inDevice s.cfg addr.toNat len = true → first.Fits s.cfg i) : t.Inv := by
  refine inv_checked h hi he fun ha hp => ?_
  split
  · rw [finishEmptyTransfer, finish_eq, setRes0_eq, updBank_updBank]
    exact inv_complete h hi (fun _ => rfl) (fun _ => rfl) fun _ => rfl
  · rw [of_decide_eq_true hp]
    exact h.startSequencer (hf ha)

theorem inv_sendChecked {q : Nat} {i : Instr} {hold : QueueId → Hold} {t : State}
    (he : sendChecked q (fun x s => awaitHold s.issuer i (hold x) s) s = .next t)
    (hf : ∀ x, q = x.number → legalTag (s.bank s.issuer).msg = true → maySend s.issuer x = true →
      (hold x).Fits s.issuer (s.bank s.issuer).msg i) : t.Inv := by
  obtain rfl | rfl | ⟨x, hq, ht, hp, rfl⟩ := sendChecked_cases he
  · exact h.finish _ .errArg hi
  · exact h.finish _ .errPerm hi
  · exact h.awaitHold _ hi _ (hf x (queueOf_eq_some.1 hq) ht hp)

theorem inv_receiveChecked {q : Nat} {run : QueueId → State → State} {t : State}
    (he : receiveChecked q run s = .next t)
    (hr : ∀ x, q = x.number → s.issuer = receiver x → (run x s).Inv) : t.Inv := by
  obtain rfl | rfl | ⟨x, hq, hp, rfl⟩ := receiveChecked_cases he
  · exact h.finish _ .errArg hi
  · exact h.finish _ .errPerm hi
  · exact hr x (queueOf_eq_some.1 hq) hp

theorem inv_postOps {i : Instr} {ops : List FlagOp} {t : State} (he : postOps i ops s = .next t)
    (hf : ∃ mask, (i = .flagSet mask ∧ ops = namedOps .set mask)
      ∨ (i = .flagClear mask ∧ ops = namedOps .clr mask)) : t.Inv := by
  refine inv_checked h hi he fun _ hp => ?_
  split
  · exact h.finish _ .ok hi
  · rename_i hne
    exact h.awaitHold _ hi _ ⟨hf, by simpa using hne, hp⟩

theorem inv_checkBuf (m : Nat) : (checkBuf s.issuer m s).Inv := by
  unfold checkBuf
  split
  · rw [finish_eq, setRes0_eq, updBank_updBank]
    exact inv_complete h hi (fun _ => rfl) (fun _ => rfl) fun _ => rfl
  · exact h.finish _ .corrupt hi

/-- The issuing step of a command whose operands fit their fields, at a port the sequencer runs nothing for. -/
theorem inv_exec {i : Instr} {t : State} (hw : i.wellFormed = true) (he : exec i s = .next t) : t.Inv := by
  cases i with
  | crcInit | crcByte | crcBuf =>
    cases he
    simp only [finishCrc, finish_eq, setRes0_eq, setCrc_eq, updBank_updBank]
    exact inv_complete h hi (fun _ => rfl) (fun _ => rfl) fun _ => rfl
  | crcSeal m =>
    refine inv_checked h hi he fun _ _ => ?_
    simp only [sealBuf, finish_eq, setRes0_eq, setBuf_eq, updBank_updBank]
    exact inv_complete h hi (fun _ => length_splice _ _) (fun _ => rfl) fun _ => rfl
  | crcCheck m => exact inv_checked h hi he fun _ _ => inv_checkBuf h hi m
  | stWriteStatus a m =>
    refine inv_checked_start h hi he fun ha => ?_
    obtain ⟨hlen, hin⟩ := Bool.and_eq_true_iff.1 ha
    have hseal := length_sealRecord (length_text_add (s.bank s.issuer).buf (recordLength_iff.1 hlen))
    exact ⟨by rw [hseal]; exact hin, .inl ⟨a, m, .inl rfl, rfl, hseal, lenFits_iff.1 hw⟩⟩
  | stReadStatus a m =>
    refine inv_checked_start h hi he fun ha => ?_
    obtain ⟨hlen, hin⟩ := Bool.and_eq_true_iff.1 ha
    exact ⟨hin, rfl, recordLength_iff.1 hlen, lenFits_iff.1 hw, a, rfl, rfl⟩
  | stRawRead a m =>
    exact inv_checked_transfer h hi he fun hin => ⟨hin, rfl, lenFits_iff.1 hw, a, rfl, rfl⟩
  | stRawWrite a m =>
    refine inv_checked_transfer h hi he fun hin => ?_
    have hm := lenFits_iff.1 hw
    have hlen : ((s.bank s.issuer).buf.take m).length = m := by
      rw [List.length_take, h.bufLength]; omega
    exact ⟨by rw [hlen]; exact hin, .inl ⟨a, m, .inr rfl, rfl, hlen, hm⟩⟩
  | logWrite => exact inv_checked_start h hi he fun _ => ⟨pointer_in_device h.legal, rfl, rfl, rfl⟩
  | logRead slot =>
    refine inv_checked_start h hi he fun ha => ?_
    have hslot := of_decide_eq_true ha
    exact ⟨slot_in_device h.legal hslot (Nat.le_refl _), rfl, slot, hslot, rfl, rfl⟩
  | logDelete =>
    have h0 : 0 < s.cfg.logCount := h.legal.1.1
    exact inv_checked_start h hi he fun _ => ⟨slot_in_device h.legal h0 (by decide), rfl, h0, rfl, rfl⟩
  | qSend q | qSendc q =>
    exact inv_sendChecked h hi he fun x hq ht hp => ⟨by rw [hq], hp, ht⟩
  | qTryrecv q =>
    refine inv_receiveChecked h hi he fun x _ _ => ?_
    split
    · exact h.finish _ .empty hi
    · exact h.receive _ hi x
  | qRecv q =>
    exact inv_receiveChecked h hi he fun x hq hp => h.awaitHold _ hi _ ⟨by rw [hq], hp⟩
  | flagSet mask => exact inv_postOps h hi he ⟨mask, .inl ⟨rfl, rfl⟩⟩
  | flagClear mask => exact inv_postOps h hi he ⟨mask, .inr ⟨rfl, rfl⟩⟩
  | flagGet => cases he; exact h.awaitHold _ hi _ rfl

end Issue

/-! ### A host access -/

theorem inv_answer {s : State} (h : s.Inv) (p : PortId) (r : Reply) : (answer p r s).Inv :=
  h.updBank p _ (h.bufLength p) (h.msgLength p) (fun hp => by subst hp; exact h.sequencer) (h.current p)
    (h.gates p)

theorem inv_hostStep {p : PortId} {s t : State} (h : s.Inv) (he : hostStep p s = .next t) : t.Inv := by
  obtain rfl | ⟨r, rfl⟩ | ⟨a, rest, v, off, -, -, -, hn, hw⟩ := hostStep_cases he
  · exact h
  · exact inv_answer h p r
  have hidle : p = .ctl → s.seq = .idle := fun hp => h.seq_idle (hp ▸ hn)
  have ha := inv_answer h p .written
  have hna : ((answer p .written s).bank p).current = none := by rw [answer, bank_updBank]; exact hn
  -- a write to BUF or MSG of a port without a command changes that buffer alone
  have store {f : Bank → Bank} (hb : ∀ b, (f b).buf.length = b.buf.length)
      (hm : ∀ b, (f b).msg.length = b.msg.length) (hc : ∀ b, (f b).current = b.current) :
      ((answer p .written s).updBank p f).Inv :=
    ha.complete p hidle f ((hb _).trans (ha.bufLength p)) ((hm _).trans (ha.msgLength p)) ((hc _).trans hna)
  obtain ⟨-, i, hd, hx⟩ | ⟨-, why, -, rfl⟩ | rfl | rfl := hw
  · exact inv_exec (ha.withIssuer p) hidle (decode_wellFormed hd) hx
  · exact (ha.withIssuer p).finish p .errOpc hidle
  · exact store (fun _ => length_spliceAt _ _ _) (fun _ => rfl) fun _ => rfl
  · exact store (fun _ => rfl) (fun _ => length_spliceAt _ _ _) fun _ => rfl

/-! ### A sequencer step -/

section Store
variable {s : State} (h : s.Inv)
include h

/-- The sequencer's pending step fits the command that it runs. -/
theorem fits_of_seq {cmd : Instr} {todo : SeqStep} (hs : s.seq = .active cmd todo) : todo.Fits s.cfg cmd := by
  have hf := h.sequencer
  rw [hs] at hf
  exact hf.2

/-- The sequencer goes on, the state as it is. -/
theorem inv_seqGo {cmd : Instr} {old next : SeqStep} (hs : s.seq = .active cmd old)
    (hf : next.Fits s.cfg cmd) : (seqGo cmd next s).Inv :=
  h.seqGo hs rfl (fun _ => rfl) rfl rfl rfl h.scrLength h.devForm h.devRange hf

/-- LOG_WRITE goes on to its record write. -/
theorem inv_writeAt {old : SeqStep} (hs : s.seq = .active .logWrite old) {p : Nat}
    (hp : validPointer s.cfg p = true) (scanned wiped : Bool) : (writeAt .logWrite p scanned wiped s).Inv := by
  have hlen := length_sealRecord (length_text_add (s.bank .ctl).buf (m := slotBytes) (by decide))
  refine inv_seqGo h hs ⟨?_, hlen, rfl, hp, rfl⟩
  obtain ⟨i, hi, rfl⟩ := validPointer_slot h.legal hp
  rw [hlen]
  exact slot_in_device h.legal hi (Nat.le_refl _)

/-- The sequencer ends the command, CTL's registers changing within their form. -/
theorem inv_seqFinish (r : ResultCode) {f : Bank → Bank} (hb : ∀ b, (f b).buf.length = b.buf.length)
    (hm : ∀ b, (f b).msg = b.msg) : (seqFinish r (s.updBank .ctl f)).Inv :=
  h.seqFinish r f rfl (fun _ => rfl) rfl rfl rfl h.scrLength h.devForm h.devRange
    ((hb _).trans (h.bufLength .ctl)) ((congrArg _ (hm _)).trans (h.msgLength .ctl))

theorem inv_seqFinish_self (r : ResultCode) : (seqFinish r s).Inv := by
  rw [← updBank_self s .ctl]
  exact inv_seqFinish h r (fun _ => rfl) fun _ => rfl

theorem inv_deliver (n : Nat) (v : Half) : (deliver n v s).Inv := by
  rw [deliver, setRes0_eq, setBuf_eq, updBank_updBank]
  exact inv_seqFinish h .ok (fun _ => length_splice _ _) fun _ => rfl

theorem inv_deliverRecord (m : Nat) : (deliverRecord m s).Inv := by
  unfold deliverRecord
  split
  · exact inv_deliver h _ _
  · exact inv_seqFinish_self h .corrupt

theorem inv_memRead (ok : Bool) (addr n : Nat) : (memRead ok addr n s).Inv :=
  ⟨h.legal, h.bufLength, h.msgLength, (length_memRead_scr ok addr n s).trans h.scrLength, h.devForm, h.devRange,
    h.capacity, h.depth, h.landed, h.pending, h.senders, h.flagOwner, h.sequencer, h.current, h.gates⟩

theorem inv_afterRead {cmd : Instr} {addr n : Nat} {k : AfterRead}
    (hs : s.seq = .active cmd (.memRead addr n k)) : (afterRead cmd k s).Inv := by
  obtain ⟨-, hk⟩ := fits_of_seq h hs
  have hn : 0 < s.cfg.logCount := h.legal.1.1
  cases k with
  | readStatus m => exact inv_deliverRecord h m
  | rawRead m => exact inv_deliver h m _
  | logPointer =>
    obtain ⟨-, -, rfl⟩ := hk
    unfold afterRead
    dsimp only
    split
    · exact inv_writeAt h hs ‹_› false false
    · exact inv_seqGo h hs ⟨slot_in_device h.legal hn (by decide), rfl, hn, rfl, rfl⟩
  | logScan i =>
    obtain ⟨-, hi, -, rfl⟩ := hk
    unfold afterRead
    dsimp only
    split
    · exact inv_writeAt h hs (slot_validPointer hi) true false
    split
    · exact inv_seqGo h hs ⟨slot_in_device h.legal ‹_› (by decide), rfl, ‹_›, rfl, rfl⟩
    · exact inv_seqGo h hs ⟨slot_in_device h.legal hn (by decide), rfl, hn, rfl, rfl⟩
  | logRead =>
    unfold afterRead
    dsimp only
    split
    · exact inv_seqFinish_self h .empty
    · exact inv_deliverRecord h slotBytes

theorem inv_afterWrite {cmd : Instr} {w : Outstanding} {k : AfterWrite}
    (hs : s.seq = .active cmd (.settle w k)) : (afterWrite cmd k s).Inv := by
  obtain ⟨-, -, hk⟩ := fits_of_seq h hs
  cases k with
  | done v =>
    unfold afterWrite
    dsimp only
    rw [setRes0_eq]
    exact inv_seqFinish h .ok (fun _ => rfl) fun _ => rfl
  | wipeSlot i resume =>
    obtain ⟨-, -, -, rfl⟩ := hk
    unfold afterWrite
    dsimp only
    split
    · exact inv_seqGo h hs ⟨slot_in_device h.legal ‹_› (by decide), rfl, ‹_›, rfl, rfl⟩
    · exact inv_seqGo h hs ⟨pointer_in_device h.legal, rfl, rfl, rfl⟩
  | wipePointer resume =>
    obtain ⟨-, -, rfl⟩ := hk
    cases resume with
    | false => exact inv_seqFinish_self h .ok
    | true => exact inv_writeAt h hs (slot_validPointer (i := 0) h.legal.1.1) true true
  | slotRecord p scanned wiped =>
    obtain ⟨-, -, -, rfl⟩ := hk
    exact inv_seqGo h hs ⟨pointer_in_device h.legal, .inr ⟨rfl, rfl, rfl⟩⟩

theorem inv_memWrite {cmd : Instr} {addr : Nat} {data : List Byte} {k : AfterWrite}
    (hs : s.seq = .active cmd (.memWrite addr data k)) (ok : Bool) (took : BitVec 256) :
    (seqGo cmd (settleOf ok addr data s.dev k) (memWrite ok took addr data s)).Inv := by
  obtain ⟨hin, hk⟩ := fits_of_seq h hs
  refine h.seqGo hs rfl (fun _ => rfl) rfl rfl rfl h.scrLength (Memory.wf_writeBytes h.devForm _ _)
    (fun c hc => ?_) ⟨hin, Memory.length_readBytes _ _ _, hk⟩
  obtain hc | ⟨-, hc⟩ := Memory.mem_writeBytes hc
  · exact h.devRange c hc
  · rw [length_landedBytes _ _ (Memory.length_readBytes _ _ _)] at hc
    exact Nat.lt_of_lt_of_le hc (of_decide_eq_true hin)

theorem inv_seqStep {ok : Bool} {took : BitVec 256} {t : State} (he : seqStep ok took s = .next t) : t.Inv := by
  obtain ⟨-, rfl⟩ | ⟨cmd, addr, n, k, hs, -, ⟨-, rfl⟩ | ⟨-, rfl⟩⟩ | ⟨cmd, addr, data, k, hs, -, rfl⟩
    | ⟨cmd, w, k, hs, ⟨-, rfl⟩ | ⟨-, rfl⟩⟩ := seqStep_cases he
  · exact h
  · exact inv_afterRead (inv_memRead h true addr n) hs
  · exact inv_seqFinish_self (inv_memRead h false addr n) .bus
  · exact inv_memWrite h hs ok took
  · exact inv_afterWrite h hs
  · exact inv_seqFinish_self h .bus

end Store

/-- Every step but a power loss keeps the invariant. -/
theorem inv_runEvent {e : Event} {s t : State} (h : s.Inv) (he : runEvent e s = .next t)
    (hpower : ∀ took boot, e ≠ .powerLoss took boot) : t.Inv := by
  cases e with
  | host p => exact inv_hostStep h he
  | port p => cases he; exact h.retest p
  | sequencer ok took => exact inv_seqStep h he
  | land p r => cases he; exact h.land p r
  | powerLoss took boot => exact absurd rfl (hpower took boot)

end Sys2Proof.Machine
end

section
/-! SUPPORT. The sequencer comes to an end (O60): a bound on the steps it has left falls in every step of its
own, and no other agent moves it. -/

namespace Sys2Proof.Machine

/-! ### Descent along a run -/

/-- A number that never rises along an unending run cannot fall again and again. -/
theorem no_endless_descent {rank : Nat → Nat} {n : Nat} (hle : ∀ m, n ≤ m → rank (m + 1) ≤ rank m)
    (hlt : ∀ m, n ≤ m → ∃ k, m ≤ k ∧ rank (k + 1) < rank k) : False := by
  have antitone {m k : Nat} (hm : n ≤ m) (hk : m ≤ k) : rank k ≤ rank m :=
    Nat.le_induction (Nat.le_refl _) (fun j hj ih => (hle j (hm.trans hj)).trans ih) k hk
  have bound : ∀ r m, n ≤ m → r ≤ rank m := by
    intro r
    induction r with
    | zero => exact fun _ _ => Nat.zero_le _
    | succ r ih =>
      intro m hm
      obtain ⟨k, hk, hfall⟩ := hlt m hm
      have hkm := antitone hm hk
      have := ih (k + 1) (by omega)
      omega
  exact absurd (bound (rank n + 1) n (Nat.le_refl n)) (by omega)

/-- The invariant holds along a powered run. -/
theorem Run.inv {e : Nat → Event} {σ : Nat → State} (hrun : Run e σ) (h0 : (σ 0).Inv) (hpower : Powered e)
    (n : Nat) : (σ n).Inv := by
  induction n with
  | zero => exact h0
  | succ n ih => exact inv_runEvent ih.advance (hrun n) (hpower n)

/-! ### The steps the sequencer has left -/

/-- How many writes the sequencer has still to make after this one, at most (42_log.md R163, R164). -/
def AfterWrite.rank (c : Config) : AfterWrite → Nat
  | .done _ => 0
  | .slotRecord _ _ _ => 1
  | .wipePointer _ => 2
  | .wipeSlot i _ => 2 + (c.logCount - i)

/-- How many reads the sequencer has still to make before the wipe, at most (42_log.md R162). -/
def AfterRead.rank (c : Config) : AfterRead → Nat
  | .logPointer => c.logCount + 1
  | .logScan i => c.logCount - i
  | .readStatus _ | .rawRead _ | .logRead => 0

/-- How many steps the sequencer has still to take, at most: two for each write, and one for each read, which
comes before the wipe of every slot. -/
def Seq.rank (c : Config) : Seq → Nat
  | .idle => 0
  | .active _ (.settle _ k) => 2 * k.rank c + 1
  | .active _ (.memWrite _ _ k) => 2 * k.rank c + 2
  | .active _ (.memRead _ _ k) => 2 * (c.logCount + 3) + k.rank c

theorem seq_deliverRecord (m : Nat) (s : State) : (deliverRecord m s).seq = .idle := by
  unfold deliverRecord
  split <;> rfl

section Rank
variable {s : State} (h : s.Inv) {cmd : Instr}
include h

theorem rank_afterRead_lt {addr n : Nat} {k : AfterRead} (hs : s.seq = .active cmd (.memRead addr n k)) :
    (afterRead cmd k s).seq.rank s.cfg < s.seq.rank s.cfg := by
  obtain ⟨-, hk⟩ := fits_of_seq h hs
  rw [hs]
  cases k with
  | readStatus m => rw [afterRead, seq_deliverRecord]; simp only [Seq.rank]; omega
  | rawRead m => simp only [afterRead, deliver, seqFinish_seq, Seq.rank]; omega
  | logPointer =>
    unfold afterRead
    dsimp only
    split <;> simp only [writeAt, writeSlot, scanSlot, seqGo_seq, Seq.rank, AfterWrite.rank, AfterRead.rank] <;>
      omega
  | logScan i =>
    obtain ⟨-, hi, -, -⟩ := hk
    unfold afterRead
    dsimp only
    split
    · simp only [writeAt, writeSlot, seqGo_seq, Seq.rank, AfterWrite.rank]; omega
    split <;> simp only [scanSlot, wipeSlot, seqGo_seq, Seq.rank, AfterWrite.rank, AfterRead.rank] <;> omega
  | logRead =>
    unfold afterRead
    dsimp only
    split
    · simp only [seqFinish_seq, Seq.rank]; omega
    · rw [seq_deliverRecord]; simp only [Seq.rank]; omega

theorem rank_afterWrite_lt {w : Outstanding} {k : AfterWrite} (hs : s.seq = .active cmd (.settle w k)) :
    (afterWrite cmd k s).seq.rank s.cfg < s.seq.rank s.cfg := by
  obtain ⟨-, -, hk⟩ := fits_of_seq h hs
  rw [hs]
  cases k with
  | done v => exact Nat.succ_pos _
  | wipeSlot i resume =>
    obtain ⟨-, hi, -, -⟩ := hk
    unfold afterWrite
    dsimp only
    split <;> simp only [wipeSlot, wipePointer, seqGo_seq, Seq.rank, AfterWrite.rank] <;> omega
  | wipePointer resume =>
    cases resume with
    | false => exact Nat.succ_pos _
    | true => exact (by decide : 4 < 5)
  | slotRecord p scanned wiped => exact (by decide : 2 < 3)

/-- A step of the sequencer that has work leaves it less. -/
theorem rank_seqStep_lt {ok : Bool} {took : BitVec 256} {t : State} (hs : s.seq ≠ .idle)
    (he : seqStep ok took s = .next t) : t.seq.rank t.cfg < s.seq.rank s.cfg := by
  rw [(storeFrame_seqStep he).outside.cfg]
  obtain ⟨hi, -⟩ | ⟨cmd, addr, n, k, hq, -, ⟨-, rfl⟩ | ⟨-, rfl⟩⟩ | ⟨cmd, addr, data, k, hq, -, rfl⟩
    | ⟨cmd, w, k, hq, ⟨-, rfl⟩ | ⟨-, rfl⟩⟩ := seqStep_cases he
  · exact absurd hi hs
  · exact rank_afterRead_lt (inv_memRead h true addr n) hq
  · rw [hq, seqFinish_seq]; simp only [Seq.rank]; omega
  · rw [hq]; exact Nat.lt_succ_self _
  · exact rank_afterWrite_lt h hq
  · rw [hq]; exact Nat.succ_pos _

end Rank

/-! ### No other agent moves a working sequencer -/

theorem seq_receive (p : PortId) (q : QueueId) (s : State) : (receive p q s).seq = s.seq := by
  unfold receive
  split <;> rfl

theorem seq_resume (h : Hold) (p : PortId) (s : State) : (h.resume p s).seq = s.seq := by
  obtain ⟨q, -, e⟩ | ⟨q, -, -, e⟩ | ⟨q, -, e⟩ | ⟨ops, -, e⟩ | ⟨-, e⟩ := resume_cases h p s <;> rw [e]
  case inr.inr.inl => exact seq_receive p q s
  all_goals rfl

theorem seq_retest (p : PortId) (s : State) : (retest p s).seq = s.seq := by
  obtain e | ⟨_, h, _, _, e⟩ := retest_cases p s <;> rw [e]
  exact seq_resume h p s

theorem seq_awaitHold (p : PortId) (i : Instr) (h : Hold) (s : State) :
    (awaitHold p i h s).seq = s.seq := by
  unfold awaitHold
  split
  · exact seq_resume h p s
  · rfl

theorem seq_checked {argOk permOk : Bool} {run : State → State} {s t : State}
    (he : checked argOk permOk run s = .next t) (hr : permOk = true → (run s).seq = s.seq) : t.seq = s.seq := by
  obtain ⟨-, rfl⟩ | ⟨-, -, rfl⟩ | ⟨-, hp, rfl⟩ := checked_cases he
  · rfl
  · rfl
  · exact hr hp

theorem seq_postOps {i : Instr} {ops : List FlagOp} {s t : State} (he : postOps i ops s = .next t) :
    t.seq = s.seq := by
  refine seq_checked he fun _ => ?_
  split
  · rfl
  · exact seq_awaitHold _ _ _ s

/-- A command of another port than CTL does not reach the sequencer (10_state.md R34). -/
theorem seq_exec {i : Instr} {s t : State} (hs : s.issuer ≠ .ctl) (he : exec i s = .next t) :
    t.seq = s.seq := by
  cases i with
  | crcInit | crcByte | crcBuf => cases he; rfl
  | crcSeal m => exact seq_checked he fun _ => rfl
  | crcCheck m =>
    refine seq_checked he fun _ => ?_
    unfold checkBuf
    split <;> rfl
  | stRawRead a m | stRawWrite a m =>
    simp only [exec, execStRawRead, execStRawWrite] at he
    exact seq_checked he fun hp => absurd (of_decide_eq_true hp) hs
  | stWriteStatus | stReadStatus | logWrite | logRead | logDelete =>
    exact seq_checked he fun hp => absurd (of_decide_eq_true hp) hs
  | qSend q | qSendc q =>
    obtain rfl | rfl | ⟨x, -, -, -, rfl⟩ := sendChecked_cases he
    · rfl
    · rfl
    · exact seq_awaitHold _ _ _ s
  | qTryrecv q =>
    obtain rfl | rfl | ⟨x, -, -, rfl⟩ := receiveChecked_cases he
    · rfl
    · rfl
    · split
      · rfl
      · exact seq_receive _ x s
  | qRecv q =>
    obtain rfl | rfl | ⟨x, -, -, rfl⟩ := receiveChecked_cases he
    · rfl
    · rfl
    · exact seq_awaitHold _ _ _ s
  | flagSet m | flagClear m => exact seq_postOps he
  | flagGet => cases he; exact seq_awaitHold _ _ _ s

/-- CTL is BUSY while the sequencer works. -/
theorem busy_of_seq {s : State} (h : s.Inv) (hs : s.seq ≠ .idle) : s.busy .ctl = true := by
  rw [State.busy, Option.isSome_iff_ne_none]
  exact fun hn => hs (h.seq_idle hn)

theorem seq_hostStep {p : PortId} {s t : State} (h : s.Inv) (hs : s.seq ≠ .idle)
    (he : hostStep p s = .next t) : t.seq = s.seq := by
  by_cases hp : p = .ctl
  · subst hp
    obtain rfl | ⟨r, rfl⟩ := hostStep_busy he (busy_of_seq h hs) <;> rfl
  · obtain rfl | ⟨r, rfl⟩ | ⟨a, rest, v, off, -, -, -, -, hw⟩ := hostStep_cases he
    · rfl
    · rfl
    obtain ⟨-, i, -, hx⟩ | ⟨-, why, -, rfl⟩ | rfl | rfl := hw
    · exact seq_exec (s := { answer p .written s with issuer := p }) hp hx
    · rfl
    · rfl
    · rfl

theorem seq_land (p : PortId) (r : Resource) (s : State) : (land p r s).seq = s.seq := by
  cases r with
  | queue q => unfold land landMessage; dsimp only; split <;> rfl
  | flags => unfold land landFlag; dsimp only; split <;> rfl

theorem onlyPort_retest {s : State} (h : s.Inv) (p : PortId) : OnlyPort p s (retest p s) := by
  obtain e | ⟨i, x, hc, -, e⟩ := retest_cases p s <;> rw [e]
  · exact onlyPort_refl p s
  · refine onlyPort_resume fun q hq => ?_
    subst hq
    exact (h.current p _ hc).2

/-- Along a powered run the work of a busy sequencer never grows. -/
theorem rank_runEvent_le {e : Event} {s t : State} (h : s.Inv) (hs : s.seq ≠ .idle)
    (he : runEvent e s = .next t) (hpower : ∀ took boot, e ≠ .powerLoss took boot) :
    t.seq.rank t.cfg ≤ s.seq.rank s.cfg := by
  cases e with
  | host p => rw [seq_hostStep h hs he, (onlyPort_hostStep he).cfg]
  | port p => cases he; rw [seq_retest, (onlyPort_retest h p).cfg]
  | sequencer ok took => exact Nat.le_of_lt (rank_seqStep_lt h hs he)
  | land p r => cases he; rw [seq_land, cfg_land]
  | powerLoss took boot => exact absurd rfl (hpower took boot)

/-- Settles O60: a sequencer that worked for ever would take steps again and again, each with less left. -/
theorem storeCommandsEnd : Obligations.StoreCommandsEnd := by
  unfold Obligations.StoreCommandsEnd
  intro e σ h0 hrun hfair hpower n
  by_contra hnone
  have hwork : ∀ m, n ≤ m → (σ m).seq ≠ .idle := fun m hm hi => hnone ⟨m, hm, hi⟩
  have hinv := hrun.inv h0 hpower
  refine no_endless_descent (rank := fun m => (σ m).seq.rank (σ m).cfg) (n := n)
    (fun m hm => rank_runEvent_le (s := advance (σ m)) (hinv m).advance (hwork m hm) (hrun m) (hpower m)) fun m hm => ?_
  obtain ⟨k, hk, ok, took, hev⟩ := hfair m fun j hj => hwork j (hm.trans hj)
  have he := hrun k
  rw [hev] at he
  exact ⟨k, hk, rank_seqStep_lt (s := advance (σ k)) (hinv k).advance (hwork k (hm.trans hk)) he⟩

end Sys2Proof.Machine
end

section
/-! SUPPORT. Fair runs of the dispatcher (O59): every pending entry comes to the front of its buffer and lands,
and a hold that waits for a landing goes on in a step of its port. -/

namespace Sys2Proof.Machine

/-! ### A buffer that is emptied from the front -/

section Buffer
variable {α : Type} {buf : Nat → List α} {lands : Nat → Prop}
  (hgrow : ∀ m, ¬lands m → ∃ l, buf (m + 1) = buf m ++ l)
include hgrow

theorem append_of_no_landing {n m : Nat} (hm : n ≤ m) (hno : ∀ j, n ≤ j → j < m → ¬lands j) :
    ∃ l, buf m = buf n ++ l := by
  induction m, hm using Nat.le_induction with
  | base => exact ⟨[], (List.append_nil _).symm⟩
  | succ m hm ih =>
    obtain ⟨l, hl⟩ := ih fun j hj hjm => hno j hj (Nat.lt_succ_of_lt hjm)
    obtain ⟨l', hl'⟩ := hgrow m (hno m hm (Nat.lt_succ_self m))
    exact ⟨l ++ l', by rw [hl', hl, List.append_assoc]⟩

/-- The next landing from a non-empty buffer finds its entries in front. -/
theorem next_landing (hfair : ∀ n, (∀ m, n ≤ m → buf m ≠ []) → ∃ m, n ≤ m ∧ lands m) {n : Nat}
    (hne : buf n ≠ []) : ∃ k, n ≤ k ∧ lands k ∧ ∃ l, buf k = buf n ++ l := by
  classical
  have hex : ∃ k, n ≤ k ∧ lands k := by
    by_contra hnone
    refine hnone (hfair n fun m hm hnil => hne ?_)
    obtain ⟨l, hl⟩ := append_of_no_landing hgrow hm fun j hj _ hland => hnone ⟨j, hj, hland⟩
    exact List.append_eq_nil_iff.1 (hl.symm.trans hnil) |>.1
  obtain ⟨hk, hland⟩ := Nat.find_spec hex
  exact ⟨_, hk, hland, append_of_no_landing hgrow hk fun j hj hlt hl => Nat.find_min hex hlt ⟨hj, hl⟩⟩

/-- Every entry of the buffer is at its front in a moment of landing. -/
theorem entry_lands (hland : ∀ m, lands m → buf (m + 1) = (buf m).tail)
    (hfair : ∀ n, (∀ m, n ≤ m → buf m ≠ []) → ∃ m, n ≤ m ∧ lands m) (before : List α) :
    ∀ {n : Nat} {x : α} {after : List α}, buf n = before ++ x :: after →
      ∃ k, n ≤ k ∧ lands k ∧ ∃ rest, buf k = x :: rest := by
  induction before with
  | nil =>
    intro n x after hn
    obtain ⟨k, hk, hl, l, he⟩ := next_landing hgrow hfair (n := n) (by rw [hn]; exact List.cons_ne_nil _ _)
    exact ⟨k, hk, hl, after ++ l, by rw [he, hn]; rfl⟩
  | cons y before ih =>
    intro n x after hn
    obtain ⟨k, hk, hl, l, he⟩ := next_landing hgrow hfair (n := n) (by rw [hn]; exact List.cons_ne_nil _ _)
    have hnext : buf (k + 1) = before ++ x :: (after ++ l) := by
      rw [hland k hl, he, hn, List.cons_append, List.cons_append, List.tail_cons, List.append_assoc,
        List.cons_append]
    obtain ⟨k', hk', hrest⟩ := ih hnext
    exact ⟨k', by omega, hrest⟩

end Buffer

/-! ### The pending buffers -/

section Step
variable {e : Event} {s t : State} (he : runEvent e s = .next t)
  (hpower : ∀ took boot, e ≠ .powerLoss took boot) (p : PortId)
include he hpower

/-- A step that does not land a Message of this buffer adds at its back at most. -/
theorem pendQueue_grows (q : QueueId) (hne : e ≠ .land p (.queue q)) :
    ∃ l, t.pendQueue p q = s.pendQueue p q ++ l := by
  by_cases hland : ∃ r x, e = .land r x
  · obtain ⟨r, x, rfl⟩ := hland
    cases he
    refine ⟨[], ?_⟩
    rw [List.append_nil]
    cases x with
    | flags => exact pendQueue_landFlag r p s q
    | queue y =>
      refine (pendQueue_landMessage r p y q s).trans (if_neg ?_)
      rintro ⟨rfl, rfl⟩
      exact hne rfl
  · obtain ⟨-, added, -, -, h⟩ :=
      (noLanding_runEvent he (fun r x h => hland ⟨r, x, h⟩) hpower).messages p q
    exact ⟨added, h⟩

/-- A step that does not land an operation of this buffer adds at its back at most. -/
theorem pendFlags_grows (hne : e ≠ .land p .flags) : ∃ l, t.pendFlags p = s.pendFlags p ++ l := by
  by_cases hland : ∃ r x, e = .land r x
  · obtain ⟨r, x, rfl⟩ := hland
    cases he
    refine ⟨[], ?_⟩
    rw [List.append_nil]
    cases x with
    | queue y => exact pendFlags_landMessage r p y s
    | flags =>
      refine (pendFlags_landFlag r p s).trans (if_neg ?_)
      rintro rfl
      exact hne rfl
  · exact (noLanding_runEvent he (fun r x h => hland ⟨r, x, h⟩) hpower).pendFlags p

end Step

theorem flags_landFlag {p : PortId} {s : State} {op : FlagOp} {rest : List FlagOp}
    (h : s.pendFlags p = op :: rest) : (landFlag p s).flags = op.apply s.flags := by
  rw [landFlag_cons h]; rfl

/-- A held command that goes on has left the port. -/
theorem current_resume {h : Hold} {p : PortId} {s : State} (hl : h.lifted p s = true) :
    ((h.resume p s).bank p).current = none := by
  obtain ⟨q, -, e⟩ | ⟨q, -, -, e⟩ | ⟨q, rfl, e⟩ | ⟨ops, -, e⟩ | ⟨-, e⟩ := resume_cases h p s <;> rw [e]
  case inr.inr.inl =>
    obtain ⟨m, rest, hq⟩ := List.exists_cons_of_ne_nil (lifted_entry.1 hl)
    rw [receive_cons hq, bank_updBank]
  all_goals simp

/-- All but a held Q_SENDC complete with OK. -/
theorem completed_resume {h : Hold} {p : PortId} {s : State} (hl : h.lifted p s = true)
    (hg : ∀ q, h ≠ .gate q) : Completed p .ok (h.resume p s) := by
  refine ⟨?_, by rw [State.busy, current_resume hl]; rfl⟩
  obtain ⟨q, -, e⟩ | ⟨q, rfl, -, -⟩ | ⟨q, rfl, e⟩ | ⟨ops, -, e⟩ | ⟨-, e⟩ := resume_cases h p s
  case inr.inl => exact absurd rfl (hg q)
  case inr.inr.inl =>
    obtain ⟨m, rest, hq⟩ := List.exists_cons_of_ne_nil (lifted_entry.1 hl)
    rw [e, receive_cons hq, bank_updBank]
  all_goals rw [e]; simp

/-! ### Landing in a fair run -/

theorem Run.land {e : Nat → Event} {σ : Nat → State} (hrun : Run e σ) {k : Nat} {p : PortId} {r : Resource}
    (hk : e k = .land p r) : σ (k + 1) = Machine.land p r (advance (σ k)) := by
  have he := hrun k
  rw [hk] at he
  exact (Host.Outcome.next.inj he).symm

/-- From moment n on, port p is held in command i on h. -/
def HeldFrom (σ : Nat → State) (n : Nat) (p : PortId) (i : Instr) (h : Hold) : Prop :=
  ∀ m, n ≤ m → ((σ m).bank p).current = some ⟨i, some h⟩

section Run
variable {e : Nat → Event} {σ : Nat → State} (hrun : Run e σ) (hland : LanderFair e σ) (hpower : Powered e)
  {n : Nat} {p : PortId}
include hrun hland hpower

theorem message_lands {q : QueueId} {before after : List Image} {m : Image}
    (h : (σ n).pendQueue p q = before ++ m :: after) :
    ∃ k l, n ≤ k ∧ e k = .land p (.queue q) ∧ (σ (k + 1)).queue q = l ++ [m] := by
  have hstep {k : Nat} (hk : e k = .land p (.queue q)) : σ (k + 1) = landMessage p q (advance (σ k)) := hrun.land hk
  obtain ⟨k, hk, hev, rest, hfront⟩ := entry_lands (buf := fun m => (σ m).pendQueue p q)
    (fun m hm => pendQueue_grows (hrun m) (hpower m) p q hm)
    (fun m hm => by
      rw [hstep hm, pendQueue_landMessage, if_pos ⟨rfl, rfl⟩]
      rfl)
    (fun m => hland p (.queue q) m) before h
  have hfront' : (advance (σ k)).pendQueue p q = m :: rest := hfront
  refine ⟨k, (σ k).queue q, hk, hev, ?_⟩
  rw [hstep hev, queue_landMessage, if_pos rfl, hfront']
  rfl

theorem flagOp_lands {before after : List FlagOp} {op : FlagOp}
    (h : (σ n).pendFlags p = before ++ op :: after) :
    ∃ k, n ≤ k ∧ e k = .land p .flags ∧ (σ (k + 1)).flags = op.apply (σ k).flags := by
  have hstep {k : Nat} (hk : e k = .land p .flags) : σ (k + 1) = landFlag p (advance (σ k)) := hrun.land hk
  obtain ⟨k, hk, hev, rest, hfront⟩ := entry_lands (buf := fun m => (σ m).pendFlags p)
    (fun m hm => pendFlags_grows (hrun m) (hpower m) p hm)
    (fun m hm => by
      rw [hstep hm, pendFlags_landFlag, if_pos rfl]
      rfl)
    (fun m => hland p .flags m) before h
  refine ⟨k, hk, hev, ?_⟩
  rw [hstep hev]
  exact flags_landFlag (s := advance (σ k)) hfront

/-! ### Holds in a fair run -/

variable (hinv : ∀ m, (σ m).Inv) {i : Instr} {h : Hold}
include hinv

omit hland in
theorem stillHeld_of_heldFrom (hheld : HeldFrom σ n p i h) {m : Nat} (hm : n ≤ m) :
    StillHeld p (e m) (σ m) (σ (m + 1)) ∧ (e m = .port p → h.lifted p (σ m) = false) := by
  have hnext := hheld (m + 1) (by omega)
  obtain ⟨-, hl, ht⟩ | ⟨-, ⟨-, hb⟩, -⟩ | ⟨hs, hl⟩ :=
    held_cases (hinv m).advance (hrun m) (hheld m hm) (hpower m)
  · rw [ht, current_resume hl] at hnext
    cases hnext
  · rw [State.busy, hnext] at hb
    cases hb
  · exact ⟨⟨hs.cfg, hs.current, hs.pendFlags, hs.queues, hs.pending⟩, hl⟩

/-- The flag operations of a held port all land. -/
theorem pendFlags_drain (hheld : HeldFrom σ n p i h) : ∃ k, n ≤ k ∧ (σ k).pendFlags p = [] := by
  by_contra hnone
  have hne : ∀ m, n ≤ m → (σ m).pendFlags p ≠ [] := fun m hm hnil => hnone ⟨m, hm, hnil⟩
  have hstep {m : Nat} (hm : n ≤ m) := (stillHeld_of_heldFrom hrun hpower hinv hheld hm).1.pendFlags
  refine no_endless_descent (rank := fun m => ((σ m).pendFlags p).length) (n := n) (fun m hm => ?_)
    fun m hm => ?_
  · rw [hstep hm]
    split
    · rw [List.length_tail]; exact Nat.sub_le _ _
    · exact Nat.le_refl _
  · obtain ⟨k, hk, hev⟩ := hland p .flags m fun j hj => hne j (hm.trans hj)
    have hpos := List.length_pos_iff.2 (hne k (hm.trans hk))
    refine ⟨k, hk, ?_⟩
    rw [hstep (hm.trans hk), if_pos hev, List.length_tail]
    omega

/-- From some moment on, a port that stays held has no flag operations pending. -/
theorem pendFlags_drained (hheld : HeldFrom σ n p i h) :
    ∃ k, n ≤ k ∧ ∀ m, k ≤ m → (σ m).pendFlags p = [] := by
  obtain ⟨k, hk, hnil⟩ := pendFlags_drain hrun hland hpower hinv hheld
  refine ⟨k, hk, fun m hm => ?_⟩
  induction m, hm using Nat.le_induction with
  | base => exact hnil
  | succ m hm ih =>
    rw [(stillHeld_of_heldFrom hrun hpower hinv hheld (hk.trans hm)).1.pendFlags, ih, List.tail_nil, ite_self]

/-- The own-flag wait of a held Q_SENDC ends: a Q_SENDC that goes on or is dropped has ended it. -/
theorem gate_wait_ends {q : QueueId} (hc : ((σ n).bank p).current = some ⟨i, some (.gate q)⟩) :
    ∃ k, n ≤ k ∧ (σ k).pendFlags p = [] := by
  by_contra hnone
  refine hnone (pendFlags_drain hrun hland hpower hinv (i := i) (h := .gate q) fun m hm => ?_)
  induction m, hm using Nat.le_induction with
  | base => exact hc
  | succ m hm ih =>
    obtain ⟨-, hl, -⟩ | ⟨-, -, hnil⟩ | ⟨hs, -⟩ := held_cases (hinv m).advance (hrun m) ih (hpower m)
    · exact absurd ⟨m, hm, (lifted_gate.1 hl).1⟩ hnone
    · exact absurd ⟨m + 1, by omega, hnil⟩ hnone
    · exact hs.current.trans ih

/-- The queue of a held Q_RECV has an entry from some moment on, if one is landed or pending. -/
theorem queue_filled {q : QueueId} (hheld : HeldFrom σ n p i (.entry q))
    (hentry : (σ n).queue q ≠ [] ∨ ∃ r, (σ n).pendQueue r q ≠ []) :
    ∃ k, n ≤ k ∧ ∀ m, k ≤ m → (σ m).queue q ≠ [] := by
  have hfit := (hinv n).current p _ (hheld n (Nat.le_refl n))
  obtain ⟨k, hk, hne⟩ : ∃ k, n ≤ k ∧ (σ k).queue q ≠ [] := by
    obtain hne | ⟨r, hne⟩ := hentry
    · exact ⟨n, Nat.le_refl n, hne⟩
    · obtain ⟨m, rest, hm⟩ := List.exists_cons_of_ne_nil hne
      obtain ⟨k, l, hk, -, hq⟩ := message_lands hrun hland hpower (before := []) hm
      exact ⟨k + 1, by omega, by rw [hq]; exact List.append_ne_nil_of_right_ne_nil _ (List.cons_ne_nil _ _)⟩
  refine ⟨k, hk, fun m hm => ?_⟩
  induction m, hm using Nat.le_induction with
  | base => exact hne
  | succ m hm ih =>
    obtain ⟨l, hl⟩ :=
      (stillHeld_of_heldFrom hrun hpower hinv hheld (hk.trans hm)).1.queues q hfit.2.symm
    rw [hl]
    exact List.append_ne_nil_of_left_ne_nil ih _

omit hland in
/-- A hold other than a gate completes with OK if its condition, the port staying held, comes true for good. -/
theorem hold_completes (hport : PortFair e σ) (hc : ((σ n).bank p).current = some ⟨i, some h⟩)
    (hg : ∀ q, h ≠ .gate q)
    (hl : HeldFrom σ n p i h → ∃ k, n ≤ k ∧ ∀ m, k ≤ m → h.lifted p (σ m) = true) :
    ∃ k, n ≤ k ∧ Completed p .ok (σ k) := by
  by_contra hnone
  have hheld : HeldFrom σ n p i h := by
    intro m hm
    induction m, hm using Nat.le_induction with
    | base => exact hc
    | succ m hm ih =>
      obtain ⟨-, hl, ht⟩ | ⟨⟨q, hq⟩, -⟩ | ⟨hs, -⟩ := held_cases (hinv m).advance (hrun m) ih (hpower m)
      · exact absurd ⟨m + 1, by omega, ht ▸ completed_resume hl hg⟩ hnone
      · exact absurd hq (hg q)
      · exact hs.current.trans ih
  obtain ⟨k, hk, hlift⟩ := hl hheld
  obtain ⟨m, hm, hev⟩ := hport p k fun j hj => ⟨i, h, hheld j (hk.trans hj), hlift j hj⟩
  have hfalse := (stillHeld_of_heldFrom hrun hpower hinv hheld (hk.trans hm)).2 hev
  rw [hlift m hm] at hfalse
  cases hfalse

end Run

/-- The operations of a held FLAG_SET or FLAG_CLEAR fit an empty buffer. -/
theorem lifted_depth_of_empty {s : State} (hs : s.Inv) {p : PortId} {i : Instr} {ops : List FlagOp}
    (hc : (s.bank p).current = some ⟨i, some (.depth ops)⟩) (hnil : s.pendFlags p = []) :
    (Hold.depth ops).lifted p s = true := by
  obtain ⟨⟨mask, hops⟩, -⟩ := hs.current p _ hc
  have hlen : ops.length ≤ 2 := by
    obtain ⟨-, rfl⟩ | ⟨-, rfl⟩ := hops <;> exact length_namedOps_le _ mask
  have hdepth : 2 ≤ s.cfg.flagPendDepth := hs.legal.2.2.2.1
  rw [lifted_depth, hnil, List.length_nil, Nat.zero_add]
  exact hlen.trans hdepth

/-- Settles O59: each pending entry comes to the front of its buffer, and the condition of a hold that waits for
a landing comes true and stays true until its port steps. -/
theorem pendingMutationsLand : Obligations.PendingMutationsLand := by
  unfold Obligations.PendingMutationsLand
  refine ⟨fun e σ hrun hland hpower n p => ⟨fun q before after m h => message_lands hrun hland hpower h,
    fun before after op h => flagOp_lands hrun hland hpower h⟩, ?_⟩
  intro e σ h0 hrun hland hport hpower n p i
  have hinv := hrun.inv h0 hpower
  refine ⟨fun q hc hentry => ?_, fun hc => ?_, fun ops hc => ?_, fun q hc => ?_⟩
  · refine hold_completes hrun hpower hinv hport hc nofun fun hheld => ?_
    obtain ⟨k, hk, hne⟩ := queue_filled hrun hland hpower hinv hheld hentry
    exact ⟨k, hk, fun m hm => lifted_entry.2 (hne m hm)⟩
  · refine hold_completes hrun hpower hinv hport hc nofun fun hheld => ?_
    obtain ⟨k, hk, hnil⟩ := pendFlags_drained hrun hland hpower hinv hheld
    exact ⟨k, hk, fun m hm => lifted_ownFlags.2 (hnil m hm)⟩
  · refine hold_completes hrun hpower hinv hport hc nofun fun hheld => ?_
    obtain ⟨k, hk, hnil⟩ := pendFlags_drained hrun hland hpower hinv hheld
    exact ⟨k, hk, fun m hm => lifted_depth_of_empty (hinv m) (hheld m (hk.trans hm)) (hnil m hm)⟩
  · exact gate_wait_ends hrun hland hpower hinv hc

end Sys2Proof.Machine
end

section
/-! SUPPORT. The encoding: the fields of an encoded word read back the operands (O1), a word that decodes is
the word of its command and lies in its row of the opcode table, and a word in a row decodes (O2); sample words
(O3); the step of a word that does not decode (O5). -/

namespace Sys2Proof

/-! ### A word in three fields -/

section Fields
variable {a b c : Nat}

theorem extract_top (x : BitVec a) (y : BitVec b) (z : BitVec c) :
    (x ++ y ++ z).extractLsb' (b + c) a = x := by
  rw [BitVec.extractLsb'_append_eq_of_le (Nat.le_add_left c b), Nat.add_sub_cancel,
    BitVec.extractLsb'_append_eq_left]

theorem extract_middle (x : BitVec a) (y : BitVec b) (z : BitVec c) :
    (x ++ y ++ z).extractLsb' c b = y := by
  rw [BitVec.extractLsb'_append_eq_of_le le_rfl, Nat.sub_self, BitVec.extractLsb'_append_eq_right]

/-- The two fields are all of the word's bits: none is dropped. -/
theorem append_eq_of_fields {w : BitVec (a + b)} {x : BitVec a} {y : BitVec b} (hx : w.extractLsb' b a = x)
    (hy : w.extractLsb' 0 b = y) : x ++ y = w := by
  subst hx hy
  rw [BitVec.extractLsb'_append_extractLsb'_eq_extractLsb' (Nat.zero_add b).symm, BitVec.extractLsb'_eq_self]

theorem append_append_eq_of_fields {w : BitVec (a + b + c)} {x : BitVec a} {y : BitVec b} {z : BitVec c}
    (hx : w.extractLsb' (b + c) a = x) (hy : w.extractLsb' c b = y) (hz : w.extractLsb' 0 c = z) :
    x ++ y ++ z = w := by
  subst hx hy
  rw [BitVec.extractLsb'_append_extractLsb'_eq_extractLsb' (Nat.add_comm b c), append_eq_of_fields rfl hz]

theorem eq_ofNat_of_toNat {n k : Nat} {x : BitVec n} (h : x.toNat = k) : x = BitVec.ofNat n k := by
  rw [← h, BitVec.ofNat_toNat, BitVec.setWidth_eq]

/-- A number is read back from a field it fits. -/
theorem toNat_field {n k : Nat} {x : BitVec n} (hx : x = BitVec.ofNat n k) (hk : k < 2 ^ n) : x.toNat = k := by
  rw [hx, BitVec.toNat_ofNat, Nat.mod_eq_of_lt hk]

end Fields

/-! ### The formats' decoders (R111) -/

section Formats
variable {w : Word} {i : Instr}

theorem ite_eq_instr {p : Prop} [Decidable p] {j : Instr} {why : Illegal} :
    (if p then Decoded.instr j else .illegal why) = .instr i ↔ p ∧ j = i := by
  by_cases hp : p <;> simp [hp]

theorem decodeN_eq_instr {j : Instr} : decodeN w j = .instr i ↔ w.extractLsb' 0 24 = 0 ∧ j = i :=
  ite_eq_instr

theorem decodeB_eq_instr {f : Byte → Instr} :
    decodeB w f = .instr i ↔ w.extractLsb' 8 16 = 0 ∧ f (immOf w) = i := ite_eq_instr

theorem decodeL_eq_instr {f : Nat → Instr} :
    decodeL w f = .instr i ↔ w.extractLsb' 0 16 = 0 ∧ f (lenOf w) = i := ite_eq_instr

theorem decodeAL_eq_instr {f : Half → Nat → Instr} :
    decodeAL w f = .instr i ↔ f (addrOf w) (lenOf w) = i := by
  rw [decodeAL, Decoded.instr.injEq]

theorem decodeS_eq_instr {f : Nat → Instr} :
    decodeS w f = .instr i ↔ w.extractLsb' 8 16 = 0 ∧ f (slotOf w) = i := ite_eq_instr

theorem decodeQ_eq_instr {f : Nat → Instr} :
    decodeQ w f = .instr i ↔ w.extractLsb' 2 22 = 0 ∧ f (queueFieldOf w) = i := ite_eq_instr

theorem decodeF_eq_instr {f : BitVec 2 → Instr} :
    decodeF w f = .instr i ↔ w.extractLsb' 2 22 = 0 ∧ f (maskOf w) = i := ite_eq_instr

end Formats

/-! ### Decoding an encoded word -/

section Words
variable (o : Byte)

@[simp] theorem opcOf_wordN : opcOf (wordN o) = o.toNat :=
  congrArg BitVec.toNat (BitVec.extractLsb'_append_eq_left (b := 0#24))

@[simp] theorem opcOf_wordB (imm8 : Byte) : opcOf (wordB o imm8) = o.toNat :=
  congrArg BitVec.toNat (extract_top o 0#16 imm8)

@[simp] theorem opcOf_wordAL (addr : Half) (len : Nat) : opcOf (wordAL o addr len) = o.toNat :=
  congrArg BitVec.toNat (extract_top o (BitVec.ofNat 8 len) addr)

@[simp] theorem opcOf_wordL (len : Nat) : opcOf (wordL o len) = o.toNat := opcOf_wordAL o 0#16 len

@[simp] theorem opcOf_wordS (slot : Nat) : opcOf (wordS o slot) = o.toNat :=
  opcOf_wordB o (BitVec.ofNat 8 slot)

@[simp] theorem opcOf_wordF (mask : BitVec 2) : opcOf (wordF o mask) = o.toNat :=
  congrArg BitVec.toNat (extract_top o 0#22 mask)

@[simp] theorem opcOf_wordQ (q : Nat) : opcOf (wordQ o q) = o.toNat := opcOf_wordF o (BitVec.ofNat 2 q)

@[simp] theorem decodeN_wordN (i : Instr) : decodeN (wordN o) i = .instr i :=
  decodeN_eq_instr.2 ⟨BitVec.extractLsb'_append_eq_right (a := o), rfl⟩

@[simp] theorem decodeB_wordB (imm8 : Byte) (f : Byte → Instr) : decodeB (wordB o imm8) f = .instr (f imm8) :=
  decodeB_eq_instr.2 ⟨extract_middle o 0#16 imm8,
    congrArg f (BitVec.extractLsb'_append_eq_right (a := o ++ 0#16))⟩

@[simp] theorem decodeF_wordF (mask : BitVec 2) (f : BitVec 2 → Instr) :
    decodeF (wordF o mask) f = .instr (f mask) :=
  decodeF_eq_instr.2 ⟨extract_middle o 0#22 mask,
    congrArg f (BitVec.extractLsb'_append_eq_right (a := o ++ 0#22))⟩

theorem lenOf_wordAL (addr : Half) {len : Nat} (h : lenFits len = true) : lenOf (wordAL o addr len) = len :=
  toNat_field (extract_middle o (BitVec.ofNat 8 len) addr) (of_decide_eq_true h)

theorem addrOf_wordAL (addr : Half) (len : Nat) : addrOf (wordAL o addr len) = addr :=
  BitVec.extractLsb'_append_eq_right (a := o ++ BitVec.ofNat 8 len)

theorem decodeAL_wordAL (addr : Half) {len : Nat} (h : lenFits len = true) (f : Half → Nat → Instr) :
    decodeAL (wordAL o addr len) f = .instr (f addr len) :=
  decodeAL_eq_instr.2 (congrArg₂ f (addrOf_wordAL o addr len) (lenOf_wordAL o addr h))

theorem decodeL_wordL {len : Nat} (h : lenFits len = true) (f : Nat → Instr) :
    decodeL (wordL o len) f = .instr (f len) :=
  decodeL_eq_instr.2 ⟨addrOf_wordAL o 0#16 len, congrArg f (lenOf_wordAL o 0#16 h)⟩

theorem decodeS_wordS {slot : Nat} (h : slotFits slot = true) (f : Nat → Instr) :
    decodeS (wordS o slot) f = .instr (f slot) :=
  decodeS_eq_instr.2 ⟨extract_middle o 0#16 (BitVec.ofNat 8 slot), congrArg f
    (toNat_field (BitVec.extractLsb'_append_eq_right (a := o ++ 0#16)) (of_decide_eq_true h))⟩

theorem decodeQ_wordQ {q : Nat} (h : queueFits q = true) (f : Nat → Instr) :
    decodeQ (wordQ o q) f = .instr (f q) :=
  decodeQ_eq_instr.2 ⟨extract_middle o 0#22 (BitVec.ofNat 2 q), congrArg f
    (toNat_field (BitVec.extractLsb'_append_eq_right (a := o ++ 0#22)) (of_decide_eq_true h))⟩

end Words

theorem decode_encode {i : Instr} (h : i.wellFormed = true) : decode (encode i) = .instr i := by
  cases i with
  | crcInit | logWrite | logDelete | flagGet => simp [encode, decode]
  | crcByte imm8 => simp [encode, decode]
  | crcBuf len | crcSeal len | crcCheck len => simp [encode, decode, decodeL_wordL _ h]
  | stWriteStatus addr len | stReadStatus addr len | stRawRead addr len | stRawWrite addr len =>
    simp [encode, decode, decodeAL_wordAL _ addr h]
  | logRead slot => simp [encode, decode, decodeS_wordS _ h]
  | qSend q | qSendc q | qTryrecv q | qRecv q => simp [encode, decode, decodeQ_wordQ _ h]
  | flagSet mask | flagClear mask => simp [encode, decode]

/-- Settles O1: the opcode and the operands are read back from the fields they were written to. -/
theorem decodeOfEncode : Obligations.DecodeOfEncode := by
  unfold Obligations.DecodeOfEncode
  exact fun _ => decode_encode

/-! ### The word of a decoded command, by format -/

section Decoded
variable {w : Word} {o : Byte} {i : Instr}

theorem encode_of_decodeN {j : Instr} (h : decodeN w j = .instr i) (hj : encode j = wordN o)
    (ho : opcOf w = o.toNat) : encode i = w := by
  obtain ⟨hzero, rfl⟩ := decodeN_eq_instr.1 h
  rw [hj]
  exact append_eq_of_fields (BitVec.eq_of_toNat_eq ho) hzero

theorem encode_of_decodeB {f : Byte → Instr} (h : decodeB w f = .instr i)
    (hf : ∀ imm8, encode (f imm8) = wordB o imm8) (ho : opcOf w = o.toNat) : encode i = w := by
  obtain ⟨hzero, rfl⟩ := decodeB_eq_instr.1 h
  rw [hf]
  exact append_append_eq_of_fields (BitVec.eq_of_toNat_eq ho) hzero rfl

theorem encode_of_decodeL {f : Nat → Instr} (h : decodeL w f = .instr i)
    (hf : ∀ len, encode (f len) = wordL o len) (ho : opcOf w = o.toNat) : encode i = w := by
  obtain ⟨hzero, rfl⟩ := decodeL_eq_instr.1 h
  rw [hf]
  exact append_append_eq_of_fields (BitVec.eq_of_toNat_eq ho) (eq_ofNat_of_toNat rfl) hzero

theorem encode_of_decodeAL {f : Half → Nat → Instr} (h : decodeAL w f = .instr i)
    (hf : ∀ addr len, encode (f addr len) = wordAL o addr len) (ho : opcOf w = o.toNat) : encode i = w := by
  obtain rfl := decodeAL_eq_instr.1 h
  rw [hf]
  exact append_append_eq_of_fields (BitVec.eq_of_toNat_eq ho) (eq_ofNat_of_toNat rfl) rfl

theorem encode_of_decodeS {f : Nat → Instr} (h : decodeS w f = .instr i)
    (hf : ∀ slot, encode (f slot) = wordS o slot) (ho : opcOf w = o.toNat) : encode i = w := by
  obtain ⟨hzero, rfl⟩ := decodeS_eq_instr.1 h
  rw [hf]
  exact append_append_eq_of_fields (BitVec.eq_of_toNat_eq ho) hzero (eq_ofNat_of_toNat rfl)

theorem encode_of_decodeQ {f : Nat → Instr} (h : decodeQ w f = .instr i)
    (hf : ∀ q, encode (f q) = wordQ o q) (ho : opcOf w = o.toNat) : encode i = w := by
  obtain ⟨hzero, rfl⟩ := decodeQ_eq_instr.1 h
  rw [hf]
  exact append_append_eq_of_fields (BitVec.eq_of_toNat_eq ho) hzero (eq_ofNat_of_toNat rfl)

theorem encode_of_decodeF {f : BitVec 2 → Instr} (h : decodeF w f = .instr i)
    (hf : ∀ mask, encode (f mask) = wordF o mask) (ho : opcOf w = o.toNat) : encode i = w := by
  obtain ⟨hzero, rfl⟩ := decodeF_eq_instr.1 h
  rw [hf]
  exact append_append_eq_of_fields (BitVec.eq_of_toNat_eq ho) hzero rfl

/-- The cases are numbered in the order of the decoder's rows, and taken together by format. -/
theorem encode_of_decode (h : decode w = .instr i) : encode i = w := by
  unfold decode at h
  split at h
  case h_1 ho | h_10 ho | h_12 ho | h_19 ho => exact encode_of_decodeN h rfl ho
  case h_2 ho => exact encode_of_decodeB h (fun _ => rfl) ho
  case h_3 ho | h_4 ho | h_5 ho => exact encode_of_decodeL h (fun _ => rfl) ho
  case h_6 ho | h_7 ho | h_8 ho | h_9 ho => exact encode_of_decodeAL h (fun _ _ => rfl) ho
  case h_11 ho => exact encode_of_decodeS h (fun _ => rfl) ho
  case h_13 ho | h_14 ho | h_15 ho | h_16 ho => exact encode_of_decodeQ h (fun _ => rfl) ho
  case h_17 ho | h_18 ho => exact encode_of_decodeF h (fun _ => rfl) ho
  case h_20 => cases h

end Decoded

/-! ### The rows of the opcode table (R108 to R110) -/

theorem tableRow : ∀ i, Laws.TableRow.Statement i
  | .crcInit => Laws.TableRow.crcInit
  | .crcByte imm8 => Laws.TableRow.crcByte imm8
  | .crcBuf len => Laws.TableRow.crcBuf len
  | .crcSeal len => Laws.TableRow.crcSeal len
  | .crcCheck len => Laws.TableRow.crcCheck len
  | .stWriteStatus addr len => Laws.TableRow.stWriteStatus addr len
  | .stReadStatus addr len => Laws.TableRow.stReadStatus addr len
  | .stRawRead addr len => Laws.TableRow.stRawRead addr len
  | .stRawWrite addr len => Laws.TableRow.stRawWrite addr len
  | .logWrite => Laws.TableRow.logWrite
  | .logRead slot => Laws.TableRow.logRead slot
  | .logDelete => Laws.TableRow.logDelete
  | .qSend q => Laws.TableRow.qSend q
  | .qSendc q => Laws.TableRow.qSendc q
  | .qTryrecv q => Laws.TableRow.qTryrecv q
  | .qRecv q => Laws.TableRow.qRecv q
  | .flagSet mask => Laws.TableRow.flagSet mask
  | .flagClear mask => Laws.TableRow.flagClear mask
  | .flagGet => Laws.TableRow.flagGet

section Rows
variable {w : Word}

/-- A field that a row's mask covers has the value of the row's pattern. -/
theorem field_of_row {m p : Word} (h : w &&& m = p) (start len : Nat)
    (hm : m.extractLsb' start len = BitVec.allOnes len) :
    w.extractLsb' start len = p.extractLsb' start len := by
  rw [← h, BitVec.extractLsb'_and, hm, BitVec.and_allOnes]

theorem decodable_of_row {i : Instr} (h : w &&& i.row.mask = i.row.pattern) : ∃ j, decode w = .instr j := by
  have ho : opcOf w = (i.row.pattern.extractLsb' 24 8).toNat :=
    congrArg BitVec.toNat (field_of_row h 24 8 (by cases i <;> simp [Instr.row]))
  cases i with
  | crcInit | logWrite | logDelete | flagGet =>
    simp only [Instr.row] at h ho
    simp [decode, ho, decodeN_eq_instr, field_of_row h 0 24 rfl]
  | crcByte imm8 =>
    simp only [Instr.row] at h ho
    simp [decode, ho, decodeB_eq_instr, field_of_row h 8 16 rfl]
  | crcBuf len | crcSeal len | crcCheck len =>
    simp only [Instr.row] at h ho
    simp [decode, ho, decodeL_eq_instr, field_of_row h 0 16 rfl]
  | stWriteStatus addr len | stReadStatus addr len | stRawRead addr len | stRawWrite addr len =>
    simp only [Instr.row] at ho
    simp [decode, ho, decodeAL_eq_instr]
  | logRead slot =>
    simp only [Instr.row] at h ho
    simp [decode, ho, decodeS_eq_instr, field_of_row h 8 16 rfl]
  | qSend q | qSendc q | qTryrecv q | qRecv q =>
    simp only [Instr.row] at h ho
    simp [decode, ho, decodeQ_eq_instr, field_of_row h 2 22 rfl]
  | flagSet mask | flagClear mask =>
    simp only [Instr.row] at h ho
    simp [decode, ho, decodeF_eq_instr, field_of_row h 2 22 rfl]

end Rows

/-- Settles O2: a decoded word is the word of its command, which lies in that command's row; and a row fixes
the opcode and the must-be-zero bits of its words, which is what the decoder tests. -/
theorem decodableIffTableRow : Obligations.DecodableIffTableRow := by
  unfold Obligations.DecodableIffTableRow
  intro w
  have hword : ∀ i, decode w = .instr i →
      w &&& i.row.mask = i.row.pattern ∧ i.wellFormed = true ∧ encode i = w := by
    intro i h
    have hwf := Machine.decode_wellFormed h
    have henc := encode_of_decode h
    exact ⟨by rw [← henc]; exact tableRow i hwf, hwf, henc⟩
  exact ⟨⟨fun ⟨i, h⟩ => ⟨i, (hword i h).1⟩, fun ⟨_, h⟩ => decodable_of_row h⟩, hword⟩

/-- Settles O3: each word is decoded by evaluation. -/
theorem sampleWordsDecode : Obligations.SampleWordsDecode := by
  unfold Obligations.SampleWordsDecode
  decide

end Sys2Proof

namespace Sys2Proof.Machine

/-- The bank of a port after an illegal word: the host's write is answered and STATUS takes ERR_OPC. -/
def illegalWritten (rest : List Access) (b : Bank) : Bank :=
  { b with host := rest, reply := .written, rc := .errOpc, current := none }

theorem raise_answer {s : State} {p : PortId} {a : Access} {rest : List Access}
    (hh : (s.bank p).host = a :: rest) :
    raise p .errOpc (answer p .written s) = s.updBank p (illegalWritten rest) := by
  rw [answer_eq hh, raise_eq, updBank_updBank]
  rfl

theorem issue_illegal {p : PortId} {w : Word} {why : Illegal} (h : decode w = .illegal why) (s : State) :
    issue p w s = .next { raise p .errOpc s with issuer := p } := by
  simp only [issue, h]
  rfl

/-- The step of an illegal word is that of a command (O4) up to what the word issues. -/
theorem step_illegal {s : State} {p : PortId} {w : Word} {why : Illegal} {es : List Event} {rest : List Access}
    (hl : ConfigLegal s.cfg) (hs : s.script = .host p :: es) (hh : (s.bank p).host = cmdWrite s.cfg p w :: rest)
    (hb : s.busy p = false) (hd : decode w = .illegal why) :
    step s = .next { s.updBank p (illegalWritten rest) with issuer := p, script := es, tick := s.tick + 1 } := by
  have hh' : ((advance s).bank p).host = cmdWrite (advance s).cfg p w :: rest := hh
  calc step s = hostStep p (advance s) := step_of_script hl hs
    _ = issue p w (answer p .written (advance s)) := hostStep_cmdWrite hh' hb
    _ = .next { raise p .errOpc (answer p .written (advance s)) with issuer := p } := issue_illegal hd _
    _ = _ := by rw [raise_answer hh', advance, hs]; rfl

/-- Settles O5: the write issues a word that decodes to no command, and what it raises changes STATUS alone. -/
theorem illegalWordRaisesErrOpc : Obligations.IllegalWordRaisesErrOpc := by
  unfold Obligations.IllegalWordRaisesErrOpc
  intro s p w why es rest hl hs hh hb hd
  have hbank := bank_updBank s p (illegalWritten rest)
  have hothers := fun r hr => bank_updBank_other s (q := r) p (illegalWritten rest) hr
  exact ⟨_, step_illegal hl hs hh hb hd, ⟨(congrArg (·.rc) hbank :), (congrArg (·.current.isSome) hbank :)⟩,
    (congrArg (·.res0) hbank :), (congrArg (·.crc) hbank :), (congrArg (·.buf) hbank :),
    (congrArg (·.msg) hbank :), ⟨rfl, fun _ => rfl, fun _ _ => rfl, fun _ => rfl⟩,
    ⟨rfl, rfl, fun _ => rfl, rfl⟩, hothers⟩

end Sys2Proof.Machine
end

section
/-! SUPPORT. The CRC step: one shift loses no bit of the register, eight shifts are the nibble-based form
(O6), so a step tells apart any two bytes and any two registers. -/

namespace Sys2Proof.Machine

/-! ### Shifts (40_crc.md R120) -/

/-- The polynomial has the constant term 1, so the bit shifted out is the new lowest bit. -/
theorem getLsbD_zero_crcShift (c : Half) : (crcShift c).getLsbD 0 = c.getLsbD 15 := by
  unfold crcShift
  split
  next h => simpa [crcPoly] using h.symm
  next h => simpa using h

theorem crcShift_injective : Function.Injective crcShift := by
  intro c d h
  have hout : c.getLsbD 15 = d.getLsbD 15 := by
    rw [← getLsbD_zero_crcShift c, h, getLsbD_zero_crcShift d]
  have hin : c <<< 1 = d <<< 1 := by
    unfold crcShift at h
    rw [hout] at h
    split at h
    · exact (BitVec.xor_left_inj crcPoly).1 h
    · exact h
  apply BitVec.eq_of_getElem_eq
  intro i hi
  obtain rfl | h15 := Nat.eq_or_lt_of_le (show i ≤ 15 by omega)
  · exact hout
  · have hbit := congrArg (·.getLsbD (i + 1)) hin
    simpa [show i + 1 < 16 by omega] using hbit

/-- The bit shifted out comes back at the exponents 12, 5 and 0 of the polynomial. -/
theorem crcShift_eq (c : Half) :
    crcShift c = (c <<< 1) ^^^ ((c >>> 15) <<< 12) ^^^ ((c >>> 15) <<< 5) ^^^ (c >>> 15) := by
  apply BitVec.eq_of_getLsbD_eq
  intro i hi
  unfold crcShift
  split
  next h =>
    have hout : (c)[15] = true := by simpa using h
    interval_cases i <;> simp [hout, crcPoly]
  next h =>
    have hout : (c)[15] = false := by simpa using h
    interval_cases i <;> simp [hout]

/-- A nibble shifted out comes back in the same way: from the exponent 12 it does not reach the top again. -/
theorem crcShift_four (c : Half) :
    crcShift (crcShift (crcShift (crcShift c)))
      = (c <<< 4) ^^^ ((c >>> 12) <<< 12) ^^^ ((c >>> 12) <<< 5) ^^^ (c >>> 12) := by
  apply BitVec.eq_of_getLsbD_eq
  intro i hi
  interval_cases i <;> simp [crcShift_eq]

/-! ### The step (R121) -/

/-- The register with a byte fed into its top half. -/
def crcFeed (c : Half) (b : Byte) : Half := c ^^^ (b.setWidth 16 <<< 8)

theorem crcStepBitwise_eq (c : Half) (b : Byte) : crcStepBitwise c b = crcShift^[8] (crcFeed c b) := rfl

/-- The nibble-based form, too, sees the byte only in the register's top half. -/
theorem crcStep_eq_crcFeed (c : Half) (b : Byte) : crcStep c b = crcStep (crcFeed c b) 0 := by
  have hhigh : (crcFeed c b).extractLsb' 8 8 ^^^ 0 = c.extractLsb' 8 8 ^^^ b := by
    apply BitVec.eq_of_getElem_eq
    intro i hi
    simp [crcFeed, show 8 + i < 16 by omega, BitVec.getLsbD_eq_getElem hi]
  have hlow : crcFeed c b <<< 8 = c <<< 8 := by
    simp [crcFeed, BitVec.shiftLeft_xor_distrib, ← BitVec.shiftLeft_add]
  simp only [crcStep, hhigh, hlow]

/-- The nibble-based form feeds back the top nibble and then the next one. -/
theorem crcStep_zero (c : Half) : crcStep c 0 = crcShift^[8] c := by
  show crcStep c 0 = crcShift (crcShift (crcShift (crcShift
    (crcShift (crcShift (crcShift (crcShift c)))))))
  rw [crcShift_four, crcShift_four]
  apply BitVec.eq_of_getLsbD_eq
  intro i hi
  unfold crcStep
  interval_cases i <;> simp [Bool.xor_comm, Bool.xor_left_comm]

/-- Settles O6: both forms feed the byte into the top half, and from there the nibble-based form is eight
shifts. -/
theorem nibbleStepIsBitwiseStep : Obligations.NibbleStepIsBitwiseStep := by
  unfold Obligations.NibbleStepIsBitwiseStep
  intro c b
  rw [crcStep_eq_crcFeed, crcStep_zero, crcStepBitwise_eq]

theorem crcFeed_eq_of_crcStep_eq {c d : Half} {b e : Byte} (h : crcStep c b = crcStep d e) :
    crcFeed c b = crcFeed d e := by
  rw [nibbleStepIsBitwiseStep, nibbleStepIsBitwiseStep, crcStepBitwise_eq, crcStepBitwise_eq] at h
  exact crcShift_injective.iterate 8 h

theorem crcStep_left_injective (b : Byte) : Function.Injective (crcStep · b) := fun _ _ h =>
  (BitVec.xor_left_inj _).1 (crcFeed_eq_of_crcStep_eq h)

theorem crcStep_right_injective (c : Half) : Function.Injective (crcStep c) := by
  intro b e h
  have hfeed := (BitVec.xor_right_inj c).1 (crcFeed_eq_of_crcStep_eq h)
  apply BitVec.eq_of_getLsbD_eq
  intro i hi
  have hbit := congrArg (·.getLsbD (i + 8)) hfeed
  simpa [hi, show i + 8 < 16 by omega, show i < 16 by omega] using hbit

/-- A byte equal to the register's high byte cancels it. -/
theorem crcStep_hiByte (c : Half) : crcStep c (hiByte c) = c <<< 8 := by
  simp [crcStep, hiByte]

theorem hiByte_shiftLeft (c : Half) : hiByte (c <<< 8) = loByte c := by
  unfold hiByte loByte
  apply BitVec.eq_of_getElem_eq
  intro i hi
  simp [show i < 16 by omega, show 8 + i < 16 by omega]

end Sys2Proof.Machine
end

section
/-! SUPPORT. The CRC of a byte sequence: chaining (O7), the residue (O9), and that one changed byte changes
it. -/

namespace Sys2Proof.Machine

theorem crcRun_append (c : Half) (s t : List Byte) : crcRun c (s ++ t) = crcRun (crcRun c s) t := by
  induction s generalizing c with
  | nil => rfl
  | cons b s ih => exact ih (crcStep c b)

/-- Settles O7: chaining by induction on the first sequence, the reference values by evaluation. -/
theorem crcRunChains : Obligations.CrcRunChains := by
  unfold Obligations.CrcRunChains
  exact ⟨crcRun_nil, crcRun_append, by decide, by decide, by decide⟩

theorem crcRun_left_injective (s : List Byte) : Function.Injective (crcRun · s) := by
  induction s with
  | nil => exact Function.injective_id
  | cons b s ih => exact ih.comp (crcStep_left_injective b)

/-- The change of the register at position j stays up to the end (40_crc.md R132). -/
theorem crcRun_set_ne (c : Half) {s : List Byte} {j : Nat} {b : Byte} (hj : j < s.length) (hb : s[j] ≠ b) :
    crcRun c (s.set j b) ≠ crcRun c s := by
  induction s generalizing c j with
  | nil => cases hj
  | cons x s ih =>
    cases j with
    | zero => exact fun h => hb (crcStep_right_injective c (crcRun_left_injective s h)).symm
    | succ j => exact ih (crcStep c x) (by simpa using hj) (by simpa using hb)

/-- A register followed by its own two bytes, high byte first, is zero (R133). -/
theorem crcRun_own_bytes (c : Half) : crcRun c [hiByte c, loByte c] = 0 := by
  rw [crcRun_cons, crcRun_cons, crcRun_nil, crcStep_hiByte, ← hiByte_shiftLeft, crcStep_hiByte]
  simp [← BitVec.shiftLeft_add]

theorem crcRun_residue (c : Half) (s : List Byte) :
    crcRun c (s ++ [hiByte (crcRun c s), loByte (crcRun c s)]) = 0 := by
  rw [crcRun_append, crcRun_own_bytes]

/-- A record that validates holds, after its terminator, the CRC up to there. -/
theorem take_of_validate_ok {r : List Byte} {m t : Nat} (h : validate r m = .ok t) :
    r.take (t + 3) = r.take (t + 1)
      ++ [hiByte (crcRun crcSeed (r.take (t + 1))), loByte (crcRun crcSeed (r.take (t + 1)))] := by
  obtain ⟨-, -, -, hhi, hlo⟩ := validate_eq_ok h
  rw [List.take_add_one, List.take_add_one (i := t + 1), hhi, hlo]
  simp

/-- Settles O9: the two bytes of the CRC cancel the register. -/
theorem recordResidueIsZero : Obligations.RecordResidueIsZero := by
  unfold Obligations.RecordResidueIsZero
  refine ⟨crcRun_residue crcSeed, fun r m t h => ?_⟩
  rw [take_of_validate_ok h]
  exact crcRun_residue crcSeed _

end Sys2Proof.Machine
end

section
/-! SUPPORT. Sealed records: they validate (O8), and what one changed byte does to them (O10). -/

namespace Sys2Proof.Machine

/-- Settles O8: the image is the layout that validates. -/
theorem sealedRecordValidates : Obligations.SealedRecordValidates := by
  unfold Obligations.SealedRecordValidates
  intro t m ht hm
  refine ⟨length_sealRecord hm, ?_, ?_⟩ <;> rw [sealRecord_eq]
  · exact validate_of_layout ht hm
  · exact List.take_left

/-- A record with other bytes in the place of its CRC is corrupt. -/
theorem validate_of_other_crc {t rest : List Byte} {hi lo : Byte} {m : Nat} (ht : ∀ b ∈ t, b ≠ 0)
    (hne : hi = hiByte (recordCrc t) → lo ≠ loByte (recordCrc t)) :
    validate (t ++ 0 :: hi :: lo :: rest) m = .corrupt := by
  cases h : validate (t ++ 0 :: hi :: lo :: rest) m with
  | corrupt => rfl
  | ok k =>
    obtain ⟨hk, -, -, hhi, hlo⟩ := validate_eq_ok h
    rw [nulIndex_append ht] at hk
    subst hk
    have htake : (t ++ 0 :: hi :: lo :: rest).take (t.length + 1) = t ++ [0] := by
      simp [List.take_append]
    rw [htake, ← recordCrc] at hhi hlo
    exact absurd (by simpa using hlo) (hne (by simpa using hhi))

theorem half_eq_of_bytes {x y : Half} (hhi : hiByte x = hiByte y) (hlo : loByte x = loByte y) : x = y := by
  rw [← ofBigEndian_bytes x, hhi, hlo, ofBigEndian_bytes]

theorem recordCrc_set_ne {t : List Byte} {j : Nat} {b : Byte} (hj : j < t.length) (hb : t[j] ≠ b) :
    recordCrc (t.set j b) ≠ recordCrc t := by
  unfold recordCrc
  rw [crcRun_append, crcRun_append]
  exact fun h => crcRun_set_ne crcSeed hj hb (crcRun_left_injective [0] h)

/-- The terminator stays where it is, and the stored CRC is that of the old payload (40_crc.md R132). -/
theorem validate_set_payload {t : List Byte} {m j : Nat} {b : Byte} (ht : ∀ x ∈ t, x ≠ 0)
    (hj : j < t.length) (hb : b ≠ 0) (hne : (sealRecord t m)[j]? ≠ some b) :
    validate ((sealRecord t m).set j b) m = .corrupt := by
  rw [sealRecord_eq] at hne ⊢
  rw [List.getElem?_append_left hj, List.getElem?_eq_getElem hj] at hne
  rw [List.set_append_left _ _ hj]
  refine validate_of_other_crc (fun x hx => ?_) fun hhi hlo =>
    recordCrc_set_ne hj (fun h => hne (congrArg some h)) (half_eq_of_bytes hhi hlo).symm
  obtain hx | rfl := List.mem_or_eq_of_mem_set hx
  · exact ht x hx
  · exact hb

/-- The computed CRC stays what it is, and a stored byte differs (R132). -/
theorem validate_set_crc {t : List Byte} {m j : Nat} {b : Byte} (ht : ∀ x ∈ t, x ≠ 0)
    (hj : j = t.length + 1 ∨ j = t.length + 2) (hne : (sealRecord t m)[j]? ≠ some b) :
    validate ((sealRecord t m).set j b) m = .corrupt := by
  rw [sealRecord_eq] at hne ⊢
  rcases hj with rfl | rfl <;> rw [List.set_append_right _ _ (by omega)]
  · have hhi : hiByte (recordCrc t) ≠ b := by simpa using hne
    simpa using validate_of_other_crc ht fun h => absurd h.symm hhi
  · have hlo : loByte (recordCrc t) ≠ b := by simpa using hne
    simpa using validate_of_other_crc ht fun _ h => hlo h.symm

/-- Settles O10: a changed payload has another CRC, a changed CRC is no longer the payload's; the rule's
example is evaluated. -/
theorem singleByteCorruptionDetected : Obligations.SingleByteCorruptionDetected := by
  unfold Obligations.SingleByteCorruptionDetected
  refine ⟨fun t m j b ht _ hne hj => ?_, by decide, by decide⟩
  rcases hj with ⟨hj, hb⟩ | hj
  · exact validate_set_payload ht hj hb hne
  · exact validate_set_crc ht hj hne

end Sys2Proof.Machine
end

section
/-! SUPPORT. The CRC commands: each is one change of the issuer's bank (O11, O13, O14). -/

namespace Sys2Proof.Machine

theorem accumulatorSet_finishCrc (v : Half) (s : State) :
    AccumulatorSet v s (.next (finishCrc s.issuer v s)) := by
  simp only [finishCrc, finish_eq, setRes0_eq, setCrc_eq, updBank_updBank]
  exact ⟨_, rfl, by simp [Completed, State.busy], by simp, by simp, by simp, by simp,
    onlyBank_updBank s _ _⟩

/-- Settles O11: each command is `finishCrc` of its value. -/
theorem accumulatorCommandsResult : Obligations.AccumulatorCommandsResult := by
  unfold Obligations.AccumulatorCommandsResult
  exact fun s => ⟨accumulatorSet_finishCrc _ s, fun _ => accumulatorSet_finishCrc _ s,
    fun _ => accumulatorSet_finishCrc _ s⟩

theorem exec_crcSeal {m : Nat} (h : 3 ≤ m) (s : State) :
    exec (.crcSeal m) s = .next (sealBuf s.issuer m s) := by
  show checked (recordLength m) true (sealBuf s.issuer m) s = _
  rw [recordLength_iff.2 h, checked_run]

theorem exec_crcCheck {m : Nat} (h : 3 ≤ m) (s : State) :
    exec (.crcCheck m) s = .next (checkBuf s.issuer m s) := by
  show checked (recordLength m) true (checkBuf s.issuer m) s = _
  rw [recordLength_iff.2 h, checked_run]

theorem sealBuf_eq (p : PortId) (m : Nat) (s : State) :
    sealBuf p m s = s.updBank p fun b => { b with
      rc := .ok, current := none, res0 := BitVec.ofNat 16 (text (s.bank p).buf m).length,
      buf := splice (sealRecord (text (s.bank p).buf m) m) b.buf } := by
  simp [sealBuf]

/-- Settles O13: the image fits into BUF, so splicing it in leaves the bytes from m on. -/
theorem crcSealResult : Obligations.CrcSealResult := by
  unfold Obligations.CrcSealResult
  intro s m h3 h255 hbuf
  have hlen := length_sealRecord (length_text_add (s.bank s.issuer).buf h3)
  have hsplice := splice_of_le (xs := sealRecord (text (s.bank s.issuer).buf m) m)
    (buf := (s.bank s.issuer).buf) (by omega)
  rw [hlen] at hsplice
  refine ⟨_, exec_crcSeal h3 s, ?_⟩
  rw [sealBuf_eq]
  exact ⟨by simp [Completed, State.busy], by simpa using hsplice, by simp, by simp, by simp,
    onlyBank_updBank s _ _⟩

/-- Settles O14: by the two answers of `validate`, each one change of the issuer's bank. -/
theorem crcCheckResult : Obligations.CrcCheckResult := by
  unfold Obligations.CrcCheckResult
  intro s m h3
  refine ⟨_, exec_crcCheck h3 s, ?_⟩
  unfold checkBuf
  cases validate ((s.bank s.issuer).buf.take m) m with
  | ok k =>
    simp only [finish_eq, setRes0_eq, updBank_updBank]
    refine ⟨fun k' hk => ?_, nofun, by simp, by simp, by simp, onlyBank_updBank s _ _⟩
    cases hk
    exact ⟨by simp [Completed, State.busy], by simp⟩
  | corrupt =>
    refine ⟨nofun, fun _ => ⟨completed_finish _ _ s, by simp⟩, by simp, by simp, by simp, ?_⟩
    exact onlyBank_updBank s _ _

end Sys2Proof.Machine
end

section
/-! SUPPORT. A store or log command comes to an end within the steps of R172 (O31): no sequencer step has more to
do than LOG_WRITE's first, and none leaves the device. -/

namespace Sys2Proof.Machine

/-- LOG_WRITE's first read has the most steps left: one scan read and one wipe write with its settle for every
slot, beside the reading of the pointer, the pointer of the wipe, the record and its pointer. -/
theorem Seq.rank_le (c : Config) (q : Seq) : q.rank c ≤ 3 * c.logCount + 7 := by
  have hread (k : AfterRead) : k.rank c ≤ c.logCount + 1 := by
    cases k <;> simp only [AfterRead.rank] <;> omega
  have hwrite (k : AfterWrite) : k.rank c ≤ c.logCount + 2 := by
    cases k <;> simp only [AfterWrite.rank] <;> omega
  match q with
  | .idle => exact Nat.zero_le _
  | .active _ (.settle _ k) => have := hwrite k; simp only [Seq.rank]; omega
  | .active _ (.memWrite _ _ k) => have := hwrite k; simp only [Seq.rank]; omega
  | .active _ (.memRead _ _ k) => have := hread k; simp only [Seq.rank]; omega

theorem Seq.eq_idle_of_rank {c : Config} {q : Seq} (h : q.rank c = 0) : q = .idle := by
  match q, h with
  | .idle, _ => rfl
  | .active _ (.settle _ _), h | .active _ (.memWrite _ _ _), h | .active _ (.memRead _ _ _), h =>
    simp [Seq.rank] at h

/-- The sequencer's transactions are inside the device, so its step is no fault. -/
theorem exists_seqStep {s : State} (h : s.Inv) (ok : Bool) (took : BitVec 256) :
    ∃ t, seqStep ok took s = .next t := by
  match hs : s.seq with
  | .idle => exact ⟨s, by simp only [seqStep, hs]⟩
  | .active cmd (.memRead addr n k) => exact ⟨_, seqStep_memRead ok took hs (fits_of_seq h hs).1⟩
  | .active cmd (.memWrite addr data k) => exact ⟨_, seqStep_memWrite ok took hs (fits_of_seq h hs).1⟩
  | .active cmd (.settle w k) => exact ⟨_, seqStep_settle ok took hs⟩

/-- An idle sequencer stays idle, and any other has less to do after its step. -/
theorem rank_seqStep_le_pred {s t : State} (h : s.Inv) {ok : Bool} {took : BitVec 256}
    (he : seqStep ok took s = .next t) : t.seq.rank t.cfg ≤ s.seq.rank s.cfg - 1 := by
  by_cases hs : s.seq = .idle
  · obtain rfl : s = t := by simpa [seqStep, hs] using he
    simp [hs, Seq.rank]
  · have := rank_seqStep_lt h hs he
    omega

/-- A run of as many steps as the sequencer has left ends idle. -/
theorem seqRun_idle_of_rank_le {draws : List (Bool × BitVec 256)} {s : State} (h : s.Inv)
    (hr : s.seq.rank s.cfg ≤ draws.length) : ∃ u, seqRun draws s = .next u ∧ u.seq = .idle := by
  induction draws generalizing s with
  | nil => exact ⟨s, rfl, Seq.eq_idle_of_rank (Nat.le_zero.1 hr)⟩
  | cons d ds ih =>
    obtain ⟨ok, took⟩ := d
    obtain ⟨t, ht⟩ := exists_seqStep h ok took
    have hlt := rank_seqStep_le_pred h ht
    simp only [List.length_cons] at hr
    simp only [seqRun, ht]
    exact ih (inv_seqStep h ht) (by omega)

/-- Settles O31: the steps left are at most the bound, and every step of a sequencer at work leaves less. -/
theorem sequencerEndsWithinBound : Obligations.SequencerEndsWithinBound := by
  unfold Obligations.SequencerEndsWithinBound
  intro s draws h hlen
  exact seqRun_idle_of_rank_le h (hlen ▸ Seq.rank_le s.cfg s.seq)

end Sys2Proof.Machine
end

section
/-! SUPPORT. The status-record and raw store commands: a command that passes its checks starts its one
transaction (R140(b)), and the successful transaction completes it (O15 to O18). A record that was written is read
back (O19). -/

namespace Sys2Proof.Machine

/-! ### The issuing step of a command that passes its checks -/

section Issue
variable {s : State} {addr : Half} {m : Nat} (hc : s.issuer = .ctl) (hin : addr.toNat + m ≤ s.cfg.devSize)
include hc hin

theorem exec_stWriteStatus (h3 : 3 ≤ m) :
    exec (.stWriteStatus addr m) s = .next (startSequencer .ctl (.stWriteStatus addr m)
      (.memWrite addr.toNat (sealRecord (text (s.bank .ctl).buf m) m)
        (.done (BitVec.ofNat 16 (text (s.bank .ctl).buf m).length))) s) := by
  simp only [exec, execStWriteStatus, recordLength_iff.2 h3, inDevice_of_le hin, hc, Bool.and_self, decide_true,
    checked_run]

theorem exec_stReadStatus (h3 : 3 ≤ m) :
    exec (.stReadStatus addr m) s = .next (startSequencer .ctl (.stReadStatus addr m)
      (.memRead addr.toNat m (.readStatus m)) s) := by
  simp only [exec, execStReadStatus, recordLength_iff.2 h3, inDevice_of_le hin, hc, Bool.and_self, decide_true,
    checked_run]

theorem exec_stRawRead :
    exec (.stRawRead addr m) s = .next (if m = 0 then finishEmptyTransfer .ctl s
      else startSequencer .ctl (.stRawRead addr m) (.memRead addr.toNat m (.rawRead m)) s) := by
  simp only [exec, execStRawRead, inDevice_of_le hin, hc, decide_true, checked_run]

theorem exec_stRawWrite :
    exec (.stRawWrite addr m) s = .next (if m = 0 then finishEmptyTransfer .ctl s
      else startSequencer .ctl (.stRawWrite addr m)
        (.memWrite addr.toNat ((s.bank .ctl).buf.take m) (.done (BitVec.ofNat 16 m))) s) := by
  simp only [exec, execStRawWrite, inDevice_of_le hin, hc, decide_true, checked_run]

end Issue

/-- A transfer of no bytes makes no transaction and changes STATUS and RES0 alone (R143, R144). -/
theorem emptyTransfer_completes (s : State) :
    Completed .ctl .ok (finishEmptyTransfer .ctl s) ∧ ((finishEmptyTransfer .ctl s).bank .ctl).res0 = 0
      ∧ ((finishEmptyTransfer .ctl s).bank .ctl).buf = (s.bank .ctl).buf ∧ SameStore s (finishEmptyTransfer .ctl s)
      ∧ StoreFrame s (finishEmptyTransfer .ctl s) := by
  rw [finishEmptyTransfer, setRes0_eq]
  refine ⟨completed_finish .ctl .ok _, by simp, by simp, ?_⟩
  rw [finish_eq, updBank_updBank]
  obtain ⟨hd, hs, ho, hx⟩ := onlyBank_updBank s .ctl fun b => { b with rc := .ok, current := none, res0 := 0 }
  exact ⟨hs, by simp, by simp, hd, ho, hx⟩

/-! ### The write commands (R141, R144) -/

/-- A command of one write: the write and its settle, both successful, complete it. -/
theorem seqRun_startedWrite {s : State} {i : Instr} {addr : Nat} {data : List Byte} {v : Half}
    (hin : addr + data.length ≤ s.cfg.devSize) (hwf : Memory.wf s.dev) :
    ∃ u, seqRun (allSucceed 2) (startSequencer .ctl i (.memWrite addr data (.done v)) s) = .next u
      ∧ Completed .ctl .ok u ∧ u.seq = .idle ∧ DeviceWritten addr data s u ∧ (u.bank .ctl).res0 = v
      ∧ (u.bank .ctl).buf = (s.bank .ctl).buf ∧ StoreFrame s u := by
  refine ⟨_, seqRun_write rfl (inDevice_of_le hin), completed_seqFinish .ok _, rfl,
    ⟨fun j hj => ?_, fun a ha => ?_⟩, by simp [afterWrite], ?_, ?_⟩
  · exact Memory.read_writeBytes_inside hwf addr data hj
  · exact Memory.read_writeBytes_outside ha
  · simp [afterWrite, memWrite]
  · have hf := storeFrameNoData_seqGo i (settleOf true addr data s.dev (.done v)) (storeFrameNoData_memWrite
      (storeFrameNoData_started (started_startSequencer i (.memWrite addr data (.done v)) s)) true 0 addr data)
    exact storeFrame_seqFinish .ok (f := fun b => { b with res0 := v }) (fun _ => ⟨rfl, rfl⟩) hf.toStoreFrame

/-- Settles O15: the sealed text is the data of the command's one write. -/
theorem statusWriteCompletes : Obligations.StatusWriteCompletes := by
  unfold Obligations.StatusWriteCompletes
  intro s addr m hc h3 _ hin hwf
  have hlen := length_sealRecord (length_text_add (s.bank .ctl).buf h3)
  obtain ⟨u, hu⟩ := seqRun_startedWrite (i := .stWriteStatus addr m) (hlen.symm ▸ hin) hwf
  exact ⟨_, u, exec_stWriteStatus hc hin h3, started_startSequencer _ _ s, hu⟩

/-- Settles O18: no bytes are no transaction; else the front of BUF is the data of the command's one write. -/
theorem rawWriteCompletes : Obligations.RawWriteCompletes := by
  unfold Obligations.RawWriteCompletes
  intro s addr n hc h255 hin hwf hbuf
  have hexec := exec_stRawWrite hc hin
  refine ⟨fun hn => ?_, fun hn => ?_⟩
  · rw [if_pos hn] at hexec
    exact ⟨_, hexec, emptyTransfer_completes s⟩
  · rw [if_neg hn] at hexec
    have hlen : ((s.bank .ctl).buf.take n).length = n := by rw [List.length_take]; omega
    obtain ⟨u, hu⟩ := seqRun_startedWrite (i := .stRawWrite addr n) (hlen.symm ▸ hin) hwf
    exact ⟨_, u, hexec, started_startSequencer _ _ s, hu⟩

/-! ### The read commands (R142, R143) -/

theorem deliverRecord_of_ok {m k : Nat} {s : State} (h : validate (s.scr.take m) m = .ok k) :
    deliverRecord m s = deliver (k + 1) (BitVec.ofNat 16 k) s := by
  rw [deliverRecord, h]

theorem deliverRecord_of_corrupt {m : Nat} {s : State} (h : validate (s.scr.take m) m = .corrupt) :
    deliverRecord m s = seqFinish .corrupt s := by
  rw [deliverRecord, h]

theorem dev_deliverRecord (m : Nat) (s : State) : (deliverRecord m s).dev = s.dev := by
  unfold deliverRecord
  split <;> rfl

theorem completed_deliver (n : Nat) (v : Half) (s : State) : Completed .ctl .ok (deliver n v s) :=
  completed_seqFinish .ok _

@[simp] theorem res0_deliver (n : Nat) (v : Half) (s : State) : ((deliver n v s).bank .ctl).res0 = v := by
  simp [deliver]

section StartedRead
variable {s : State} (i : Instr) (x : SeqStep) (a : Nat) {m : Nat} (hscr : m ≤ s.scr.length)
include hscr

theorem take_scr_startedRead :
    (memRead true a m (startSequencer .ctl i x s)).scr.take m = s.dev.readBytes a m :=
  take_memRead_scr (s := startSequencer .ctl i x s) hscr

/-- The first n of the bytes read go to the front of BUF. -/
theorem buf_deliver_startedRead (v : Half) {n : Nat} (hn : n ≤ m) (hbuf : m ≤ (s.bank .ctl).buf.length) :
    ((deliver n v (memRead true a m (startSequencer .ctl i x s))).bank .ctl).buf
      = (s.dev.readBytes a m).take n ++ (s.bank .ctl).buf.drop n := by
  have htake : (memRead true a m (startSequencer .ctl i x s)).scr.take n = (s.dev.readBytes a m).take n := by
    rw [← take_scr_startedRead i x a hscr, List.take_take, Nat.min_eq_left hn]
  have hlen : ((s.dev.readBytes a m).take n).length = n := by simpa using hn
  have hsplice := splice_of_le (xs := (s.dev.readBytes a m).take n) (buf := (s.bank .ctl).buf) (by omega)
  rw [hlen] at hsplice
  simpa [deliver, htake] using hsplice

end StartedRead

/-- Settles O16: what SCR holds after the read is the record, and `validate` has two answers. -/
theorem statusReadCompletes : Obligations.StatusReadCompletes := by
  unfold Obligations.StatusReadCompletes
  intro s addr m hc h3 h255 hin hscr hbuf
  have hstart := started_startSequencer (.stReadStatus addr m) (.memRead addr.toNat m (.readStatus m)) s
  have hframe := storeFrameNoData_memRead (storeFrameNoData_started hstart) true addr.toNat m
  have hm : m ≤ s.scr.length := by omega
  refine ⟨_, _, exec_stReadStatus hc hin h3, hstart, seqRun_read rfl (inDevice_of_le hin), seq_deliverRecord m _,
    fun a => by rw [afterRead, dev_deliverRecord]; rfl, storeFrame_deliverRecord m hframe, fun k hk => ?_,
    fun hk => ?_⟩
  · obtain ⟨-, -, hkm, -, -⟩ := validate_eq_ok hk
    rw [afterRead, deliverRecord_of_ok (by rwa [take_scr_startedRead _ _ _ hm])]
    exact ⟨completed_deliver _ _ _, res0_deliver _ _ _,
      buf_deliver_startedRead _ _ _ hm _ (by omega) (by omega)⟩
  · rw [afterRead, deliverRecord_of_corrupt (by rwa [take_scr_startedRead _ _ _ hm])]
    exact ⟨completed_seqFinish .corrupt _, storeFrameNoData_seqFinish .corrupt hframe⟩

/-- Settles O17: no bytes are no transaction; else the bytes of the command's one read are handed over. -/
theorem rawReadCompletes : Obligations.RawReadCompletes := by
  unfold Obligations.RawReadCompletes
  intro s addr n hc h255 hin hscr hbuf
  have hexec := exec_stRawRead hc hin
  refine ⟨fun hn => ?_, fun hn => ?_⟩
  · rw [if_pos hn] at hexec
    exact ⟨_, hexec, emptyTransfer_completes s⟩
  · rw [if_neg hn] at hexec
    have hstart := started_startSequencer (.stRawRead addr n) (.memRead addr.toNat n (.rawRead n)) s
    have hframe := storeFrameNoData_memRead (storeFrameNoData_started hstart) true addr.toNat n
    refine ⟨_, _, hexec, hstart, seqRun_read rfl (inDevice_of_le hin), completed_deliver _ _ _, rfl, ?_,
      res0_deliver _ _ _, fun _ => rfl, storeFrame_deliver _ _ hframe.toStoreFrame⟩
    rw [afterRead, buf_deliver_startedRead _ _ _ (by omega) _ (Nat.le_refl n) (by omega),
      List.take_of_length_le (by simp)]

/-! ### Round trip (R145) -/

theorem readBytes_eq_of_read {m : Memory} {a : Nat} {bs : List Byte}
    (h : ∀ i (hi : i < bs.length), m.read (a + i) = bs[i]) : m.readBytes a bs.length = bs := by
  refine List.ext_getElem (by simp) fun i h1 h2 => ?_
  simpa [Memory.readBytes] using h i h2

theorem take_sealRecord (t : List Byte) (m : Nat) : (sealRecord t m).take (t.length + 1) = t ++ [0] := by
  simp [sealRecord_eq, List.take_append]

/-- Settles O19: the record is read back as the image that was written, which validates (O8). -/
theorem statusRecordRoundTrip : Obligations.StatusRecordRoundTrip := by
  unfold Obligations.StatusRecordRoundTrip
  intro s t u v addr m hc h3 h255 hin hwf ht hu hvc hcfg hscr hbuf hsame
  obtain ⟨t', u', ht', -, hu', -, -, hdev, -⟩ := statusWriteCompletes s addr m hc h3 h255 hin hwf
  cases ht.symm.trans ht'
  cases hu.symm.trans hu'
  obtain ⟨x, y, hx, -, hy, -, -, -, hok, -⟩ := statusReadCompletes v addr m hvc h3 h255 (hcfg ▸ hin) hscr hbuf
  obtain ⟨hlen, hvalid, -⟩ := sealedRecordValidates (text (s.bank .ctl).buf m) m (fun _ => text_ne_zero)
    (length_text_add _ h3)
  have hrecord : v.dev.readBytes addr.toNat m = sealRecord (text (s.bank .ctl).buf m) m := by
    have := readBytes_eq_of_read fun i hi => (hsame i (hlen ▸ hi)).trans (hdev.1 i hi)
    rwa [hlen] at this
  rw [hrecord] at hok
  obtain ⟨hdone, hres, hbuf'⟩ := hok _ hvalid
  refine ⟨x, y, hx, hy, hdone, hres, ?_⟩
  rw [hbuf', take_sealRecord]
  exact List.take_left' (by simp)

end Sys2Proof.Machine
end

section
/-! SUPPORT. The log commands: the valid pointers (O24), the record and the pointer of LOG_WRITE (O25), its scan
(O26) and its wipe (O27), LOG_DELETE (O28), LOG_READ (O29), and the bytes a log command can change (O30). -/

namespace Sys2Proof.Machine

/-! ### The ring's geometry (42_log.md R160, R161) -/

theorem validPointer_iff_slot {c : Config} (hc : ConfigLegal c) {p : Nat} :
    validPointer c p = true ↔ ∃ i, i < c.logCount ∧ p = slotAddr c i :=
  ⟨validPointer_slot hc, fun ⟨_, hi, hp⟩ => hp ▸ slot_validPointer hi⟩

/-- A value from the end of the ring on is no valid pointer. -/
theorem validPointer_of_logEnd_le {c : Config} (hc : ConfigLegal c) {p : Nat} (hp : logEnd c ≤ p) :
    validPointer c p = false := by
  by_contra h
  obtain ⟨i, hi, rfl⟩ := validPointer_slot hc (Bool.eq_true_of_not_eq_false h)
  unfold logEnd slotAddr slotBytes at hp
  omega

/-- The ring ends below its pointer, and the pointer is no address past 0xFFFF. -/
theorem logEnd_lt_pointerEmpty {c : Config} (hc : ConfigLegal c) : logEnd c < pointerEmpty := by
  obtain ⟨-, hend, ⟨hptr, hsize⟩, -⟩ := hc
  unfold logEnd slotAddr pointerEmpty
  omega

/-- Settles O24: a valid pointer is a slot address, and the sentinel and END lie past the last slot. -/
theorem validPointersAreSlots : Obligations.ValidPointersAreSlots := by
  unfold Obligations.ValidPointersAreSlots
  intro c hc
  refine ⟨fun p => ?_, fun p => validPointer_iff_slot hc,
    validPointer_of_logEnd_le hc (Nat.le_of_lt (logEnd_lt_pointerEmpty hc)),
    validPointer_of_logEnd_le hc (Nat.le_refl _), Nat.ne_of_lt (logEnd_lt_pointerEmpty hc)⟩
  simp only [validPointer, Bool.and_eq_true, decide_eq_true_eq, and_assoc]
  rfl

/-! ### The issuing step at CTL (42_log.md R164 to R166) -/

section Issue
variable {s : State} (hs : s.issuer = .ctl)
include hs

theorem exec_logWrite :
    exec .logWrite s
      = .next (startSequencer .ctl .logWrite (.memRead s.cfg.logAddrStorage 2 .logPointer) s) := by
  simp only [exec, execLogWrite, hs, decide_true, checked_run]

theorem exec_logDelete :
    exec .logDelete s = .next (startSequencer .ctl .logDelete (wipeSlot s.cfg 0 false) s) := by
  simp only [exec, execLogDelete, hs, decide_true, checked_run]

theorem exec_logRead {i : Nat} (hi : i < s.cfg.logCount) :
    exec (.logRead i) s
      = .next (startSequencer .ctl (.logRead i) (.memRead (slotAddr s.cfg i) slotBytes .logRead) s) := by
  simp only [exec, execLogRead, hs, hi, decide_true, checked_run]

end Issue

/-! ### The record and the pointer (42_log.md R164) -/

/-- The record is in its slot and the pointer past it: the two writes do not overlap. -/
theorem logWritten_of_dev {s u : State} (hc : ConfigLegal s.cfg) (hw : Memory.wf s.dev) {i : Nat}
    (hi : i < s.cfg.logCount)
    (hu : u.dev = (s.dev.writeBytes (slotAddr s.cfg i) (sealRecord (text (s.bank .ctl).buf 64) 64)).writeBytes
      s.cfg.logAddrStorage (bigEndian (BitVec.ofNat 16 (slotAddr s.cfg i + 64)))) :
    LogWritten (slotAddr s.cfg i) s u := by
  have hlen := length_sealRecord (length_text_add (s.bank .ctl).buf (m := 64) (by decide))
  have hbelow : slotAddr s.cfg i + 64 ≤ s.cfg.logAddrStorage := slot_below_pointer hc hi
  have hsize := hc.2.2.1
  constructor
  · intro j hj
    rw [hu, Memory.read_writeBytes_outside (.inl (by omega)), Memory.read_writeBytes_inside hw]
  · rw [hu]
    exact pointer_read_write (Memory.wf_writeBytes hw _ _) _ (by omega)
  · intro a hslot h0 h1
    rw [hu, Memory.read_writeBytes_outside (by rw [length_bigEndian]; omega),
      Memory.read_writeBytes_outside (by rwa [hlen])]

/-- `LogWritten` speaks of the parameters, BUF and the device alone. -/
theorem LogWritten.of_frame {p : Nat} {s t u : State} (h : LogWritten p t u) (hf : StoreFrameNoData s t)
    (hd : t.dev = s.dev) : LogWritten p s u := by
  obtain ⟨hrecord, hpointer, hrest⟩ := h
  rw [hf.outside.cfg] at hpointer hrest
  rw [hd] at hrest
  simp only [hf.buf] at hrecord
  exact ⟨hrecord, hpointer, hrest⟩

/-- A successful MemWrite and its settle change the device alone before the command goes on. -/
theorem seqRun_write_frame {s : State} {cmd : Instr} {addr : Nat} {data : List Byte} {k : AfterWrite}
    (hs : s.seq = .active cmd (.memWrite addr data k)) (hin : inDevice s.cfg addr data.length = true) :
    ∃ t, seqRun (allSucceed 2) s = .next (afterWrite cmd k t) ∧ t.dev = s.dev.writeBytes addr data
      ∧ StoreFrameNoData s t :=
  ⟨_, seqRun_write hs hin, rfl,
    storeFrameNoData_seqGo _ _ (storeFrameNoData_memWrite (storeFrameNoData_refl s) _ _ _ _)⟩

/-- From its record write on, LOG_WRITE takes two writes and their settles. -/
theorem seqRun_writeAt {s : State} (hc : ConfigLegal s.cfg) (hw : Memory.wf s.dev) {i : Nat}
    (hi : i < s.cfg.logCount) (scanned wiped : Bool) :
    ∃ u, seqRun (allSucceed 4) (writeAt .logWrite (slotAddr s.cfg i) scanned wiped s) = .next u
      ∧ Completed .ctl .ok u ∧ u.seq = .idle ∧ LogWritten (slotAddr s.cfg i) s u
      ∧ (u.bank .ctl).res0
          = BitVec.ofNat 16 ((if wiped then 0x200 else 0) + (if scanned then 0x100 else 0) + i)
      ∧ (u.bank .ctl).buf = (s.bank .ctl).buf ∧ StoreFrame s u := by
  have hlen := length_sealRecord (length_text_add (s.bank .ctl).buf (m := slotBytes) (by decide))
  obtain ⟨t, hrecord, htd, htf⟩ :=
    seqRun_write_frame (s := writeAt .logWrite (slotAddr s.cfg i) scanned wiped s) rfl
      (by rw [hlen]; exact slot_in_device hc hi (Nat.le_refl _))
  have htc : t.cfg = s.cfg := htf.outside.cfg
  obtain ⟨v, hpointer, hvd, hvf⟩ :=
    seqRun_write_frame (s := afterWrite .logWrite (.slotRecord (slotAddr s.cfg i) scanned wiped) t) rfl
      (by rw [afterWrite, seqGo_cfg, htc]; exact pointer_in_device hc)
  have hframe : StoreFrameNoData s v := ((storeFrameNoData_seqGo _ _ (storeFrameNoData_refl s)).trans htf).trans
    ((storeFrameNoData_seqGo _ _ (storeFrameNoData_refl t)).trans hvf)
  refine ⟨_, (seqRun_add hrecord).trans hpointer, completed_seqFinish .ok _, rfl, logWritten_of_dev hc hw hi ?_,
    ?_, ?_, storeFrame_seqFinish .ok (f := fun b => { b with res0 := logReport t.cfg _ _ _ }) (fun _ => ⟨rfl, rfl⟩)
      hframe.toStoreFrame⟩
  · rw [afterWrite, seqGo_dev, htd, htc] at hvd
    exact hvd
  · rw [← logReport_slot s.cfg (by have := hc.1.2; omega), ← htc]
    simp [afterWrite]
  · simpa [afterWrite] using hframe.buf

/-! ### The pointer, the scan and the wipe (42_log.md R162 to R164) -/

/-- LOG_WRITE's first read tests the pointer: its slot is written, or the scan begins. -/
theorem seqRun_logPointer {s : State} (hc : ConfigLegal s.cfg) (hscr : s.scr.length = 256) {p : Nat}
    (hp : p = (ofBigEndian (s.dev.read s.cfg.logAddrStorage) (s.dev.read (s.cfg.logAddrStorage + 1))).toNat) :
    ∃ t, seqRun (allSucceed 1)
          (startSequencer .ctl .logWrite (.memRead s.cfg.logAddrStorage 2 .logPointer) s)
        = .next (if validPointer s.cfg p = true then writeAt .logWrite p false false t
          else seqGo .logWrite (scanSlot s.cfg 0) t)
      ∧ StoreFrameNoData s t ∧ t.dev = s.dev ∧ t.scr.length = 256 := by
  have hstart := started_startSequencer .logWrite (.memRead s.cfg.logAddrStorage 2 .logPointer) s
  refine ⟨_, (seqRun_read (s := startSequencer _ _ _ s) rfl (pointer_in_device hc)).trans ?_,
    storeFrameNoData_memRead (storeFrameNoData_started hstart) true s.cfg.logAddrStorage 2, rfl,
    (length_memRead_scr ..).trans hscr⟩
  rw [afterRead, pointerRead_memRead (s := startSequencer _ _ _ s) hscr, hp]
  rfl

/-- The scan from slot 0 to the test of slot n, slots 0 to n-1 not empty. -/
theorem seqRun_scanTo {s : State} (hc : ConfigLegal s.cfg) (hscr : s.scr.length = 256) {n : Nat}
    (hn : n < s.cfg.logCount) (hne : ∀ j, j < n → s.dev.read (slotAddr s.cfg j) ≠ 0) :
    ∃ t, seqRun (allSucceed (n + 1)) (seqGo .logWrite (scanSlot s.cfg 0) s)
        = .next (afterRead .logWrite (.logScan n) t)
      ∧ StoreFrameNoData s t ∧ t.dev = s.dev ∧ t.scr.headD 0 = s.dev.read (slotAddr s.cfg n) := by
  obtain ⟨r, hr, hrs, hrf, hrd, hrscr, -⟩ := seqRun_scan hc n 0 (seqGo .logWrite (scanSlot s.cfg 0) s) (by omega)
    rfl (storeFrameNoData_seqGo _ _ (storeFrameNoData_refl s)) hscr fun j _ hj => hne j (by omega)
  rw [Nat.zero_add] at hrs
  have hrc : r.cfg = s.cfg := hrf.outside.cfg
  refine ⟨_, (seqRun_add hr).trans (seqRun_read hrs (hrc ▸ slot_in_device hc hn (by decide))),
    storeFrameNoData_memRead hrf _ _ _, hrd, ?_⟩
  rw [head_memRead hrscr, hrd, seqGo_dev]

/-- The scan finds slot i, the first empty one, and goes on to the record write there. -/
theorem seqRun_scan_empty {s : State} (hc : ConfigLegal s.cfg) (hscr : s.scr.length = 256) {i : Nat}
    (hi : i < s.cfg.logCount) (hempty : s.dev.read (slotAddr s.cfg i) = 0)
    (hne : ∀ j, j < i → s.dev.read (slotAddr s.cfg j) ≠ 0) :
    ∃ t, seqRun (allSucceed (i + 1)) (seqGo .logWrite (scanSlot s.cfg 0) s)
        = .next (writeAt .logWrite (slotAddr s.cfg i) true false t)
      ∧ StoreFrameNoData s t ∧ t.dev = s.dev := by
  obtain ⟨t, ht, htf, htd, hhead⟩ := seqRun_scanTo hc hscr hi hne
  rw [afterRead, if_pos (hhead.trans hempty), htf.outside.cfg] at ht
  exact ⟨t, ht, htf, htd⟩

/-- The scan of a full ring goes on to the wipe. -/
theorem seqRun_scan_full {s : State} (hc : ConfigLegal s.cfg) (hscr : s.scr.length = 256)
    (hfull : ∀ j, j < s.cfg.logCount → s.dev.read (slotAddr s.cfg j) ≠ 0) :
    ∃ t, seqRun (allSucceed s.cfg.logCount) (seqGo .logWrite (scanSlot s.cfg 0) s)
        = .next (seqGo .logWrite (wipeSlot s.cfg 0 true) t)
      ∧ StoreFrameNoData s t ∧ t.dev = s.dev := by
  obtain ⟨n, hn⟩ := Nat.exists_eq_succ_of_ne_zero (Nat.ne_of_gt hc.1.1)
  obtain ⟨t, ht, htf, htd, hhead⟩ :=
    seqRun_scanTo hc hscr (n := n) (by omega) fun j hj => hfull j (by omega)
  have hne : t.scr.headD 0 ≠ 0 := hhead ▸ hfull n (by omega)
  rw [afterRead, if_neg hne, htf.outside.cfg, if_neg (by omega)] at ht
  exact ⟨t, hn ▸ ht, htf, htd⟩

/-- The whole wipe: every slot is marked empty and the pointer is MIN_LOG_ADDR. -/
theorem seqRun_wipeRing {cmd : Instr} {r : Bool} {s : State} (hc : ConfigLegal s.cfg) (hw : Memory.wf s.dev)
    (hs : s.seq = .active cmd (wipeSlot s.cfg 0 r)) :
    ∃ t, seqRun (allSucceed (2 * (s.cfg.logCount + 1))) s = .next (afterWrite cmd (.wipePointer r) t)
      ∧ StoreFrameNoData s t ∧ Memory.wf t.dev
      ∧ (∀ j, j < s.cfg.logCount → t.dev.read (slotAddr s.cfg j) = 0)
      ∧ (ofBigEndian (t.dev.read s.cfg.logAddrStorage)
          (t.dev.read (s.cfg.logAddrStorage + 1))).toNat = s.cfg.minLogAddr
      ∧ (∀ a, (∀ j, j < s.cfg.logCount → a ≠ slotAddr s.cfg j) → a ≠ s.cfg.logAddrStorage →
          a ≠ s.cfg.logAddrStorage + 1 → t.dev.read a = s.dev.read a) := by
  obtain ⟨v, hv, hvs, hvf, hvw, -, -, hzero, hrest⟩ :=
    seqRun_wipe cmd r hc s.cfg.logCount 0 s (by omega) hc.1.1 hs (storeFrameNoData_refl s) hw
  obtain ⟨t, ht, htf, -, htw, hpointer, hkept⟩ := seqRun_wipePointer hc hvf hvs hvw
  refine ⟨t, (seqRun_add hv).trans ht, htf, htw, fun j hj => ?_, hpointer, fun a ha h0 h1 => ?_⟩
  · have hbelow : slotAddr s.cfg j + 64 ≤ s.cfg.logAddrStorage := slot_below_pointer hc hj
    rw [hkept _ (by omega) (by omega), hzero j (Nat.zero_le j) hj]
  · rw [hkept a h0 h1, hrest a fun j _ hj => ha j hj]

/-! ### LOG_WRITE (42_log.md R164) -/

/-- Settles O25: the pointer read finds the slot, whose record and pointer are then written. -/
theorem logWriteAtValidPointer : Obligations.LogWriteAtValidPointer := by
  unfold Obligations.LogWriteAtValidPointer
  intro s p hs hc hw hscr hp hvalid
  obtain ⟨t, ht, htf, htd, -⟩ := seqRun_logPointer hc hscr hp
  rw [if_pos hvalid] at ht
  obtain ⟨i, hi, rfl⟩ := validPointer_slot hc hvalid
  have htc := htf.outside.cfg
  obtain ⟨u, hu, hdone, hidle, hwritten, hres, hbuf, huf⟩ :=
    seqRun_writeAt (s := t) (htc ▸ hc) (htd ▸ hw) (htc ▸ hi) false false
  rw [htc] at hu hwritten
  refine ⟨_, u, exec_logWrite hs, started_startSequencer _ _ s, (seqRun_add ht).trans hu, hdone, hidle,
    hwritten.of_frame htf htd, ?_, hbuf.trans htf.buf, htf.toStoreFrame.trans huf⟩
  simp [hres, slotAddr, slotBytes]

/-- Settles O26: the scan finds the slots before slot i not empty and slot i empty. -/
theorem logWriteAtScannedSlot : Obligations.LogWriteAtScannedSlot := by
  unfold Obligations.LogWriteAtScannedSlot
  intro s i hs hc hw hscr hinvalid hi hempty hne
  obtain ⟨r, hr, hrf, hrd, hrscr⟩ := seqRun_logPointer hc hscr rfl
  rw [hinvalid, if_neg Bool.false_ne_true] at hr
  have hrc := hrf.outside.cfg
  obtain ⟨t, ht, htf, htd⟩ := seqRun_scan_empty (s := r) (hrc ▸ hc) hrscr (hrc ▸ hi) (by rwa [hrc, hrd])
    (by rwa [hrc, hrd])
  have hframe := hrf.trans htf
  have htc := hframe.outside.cfg
  obtain ⟨u, hu, hdone, hidle, hwritten, hres, hbuf, huf⟩ :=
    seqRun_writeAt (s := t) (htc ▸ hc) (by rwa [htd, hrd]) (htc ▸ hi) true false
  rw [hrc] at ht
  rw [htc] at hu hwritten
  exact ⟨_, u, exec_logWrite hs, started_startSequencer _ _ s,
    (seqRun_add ((seqRun_add hr).trans ht)).trans hu, hdone, hidle,
    hwritten.of_frame hframe (htd.trans hrd), hres, hbuf.trans hframe.buf, hframe.toStoreFrame.trans huf⟩

/-- Settles O27: the scan passes the last slot, and the record is written into the wiped ring. -/
theorem logWriteWipesFullRing : Obligations.LogWriteWipesFullRing := by
  unfold Obligations.LogWriteWipesFullRing
  intro s hs hc hw hscr hinvalid hfull
  obtain ⟨r, hr, hrf, hrd, hrscr⟩ := seqRun_logPointer hc hscr rfl
  rw [hinvalid, if_neg Bool.false_ne_true] at hr
  have hrc := hrf.outside.cfg
  obtain ⟨t, ht, htf, htd⟩ := seqRun_scan_full (s := r) (hrc ▸ hc) hrscr (by rwa [hrc, hrd])
  have hscan := storeFrameNoData_seqGo .logWrite (wipeSlot s.cfg 0 true) (hrf.trans htf)
  have htc := hscan.outside.cfg
  obtain ⟨v, hv, hvf, hvw, hzero, -, hwiped⟩ :=
    seqRun_wipeRing (s := seqGo .logWrite (wipeSlot s.cfg 0 true) t) (cmd := .logWrite) (r := true)
      (htc ▸ hc) (by rwa [seqGo_dev, htd, hrd]) (by rw [seqGo_seq, htc])
  have hframe := hscan.trans hvf
  have hvc := hframe.outside.cfg
  obtain ⟨u, hu, hdone, hidle, ⟨hrecord, hpointer, hrest⟩, hres, hbuf, huf⟩ :=
    seqRun_writeAt (s := v) (i := 0) (hvc ▸ hc) hvw (hvc ▸ hc.1.1) true true
  rw [hrc] at ht
  rw [htc] at hv hzero hwiped
  rw [seqGo_dev, htd, hrd] at hwiped
  simp only [hvc, hframe.buf] at hrecord hpointer hrest
  have hrun : seqRun (allSucceed (1 + s.cfg.logCount + 2 * (s.cfg.logCount + 1) + 4)) _ = .next u :=
    (seqRun_add ((seqRun_add ((seqRun_add hr).trans ht)).trans hv)).trans hu
  refine ⟨_, u, exec_logWrite hs, started_startSequencer _ _ s, hrun, hdone, hidle, hrecord, fun j h0 hj => ?_,
    hpointer, fun a hslot hne hp0 hp1 => ?_, hres, hbuf.trans hframe.buf, hframe.toStoreFrame.trans huf⟩
  · have hbelow : slotAddr s.cfg j + 64 ≤ s.cfg.logAddrStorage := slot_below_pointer hc hj
    have hafter : slotAddr s.cfg 0 + 64 ≤ slotAddr s.cfg j := by unfold slotAddr slotBytes; omega
    rw [hrest _ (.inr hafter) (by omega) (by omega), hzero j hj]
  · rw [hrest a hslot hp0 hp1, hwiped a hne hp0 hp1]

/-! ### LOG_DELETE and LOG_READ (42_log.md R165, R166) -/

/-- Settles O28: LOG_DELETE is the wipe. -/
theorem logDeleteWipesRing : Obligations.LogDeleteWipesRing := by
  unfold Obligations.LogDeleteWipesRing
  intro s hs hc hw
  have hstart := started_startSequencer .logDelete (wipeSlot s.cfg 0 false) s
  obtain ⟨t, ht, htf, -, hzero, hpointer, hrest⟩ :=
    seqRun_wipeRing (s := startSequencer .ctl .logDelete (wipeSlot s.cfg 0 false) s) hc hw rfl
  exact ⟨_, _, exec_logDelete hs, hstart, ht, completed_seqFinish .ok _, rfl, hzero, hpointer, hrest,
    storeFrameNoData_seqFinish .ok ((storeFrameNoData_started hstart).trans htf)⟩

/-- A record that a started read has brought is handed over with its text, or is CORRUPT. -/
theorem deliverRecord_startedRead {s : State} (i : Instr) (x : SeqStep) (a : Nat) {m : Nat}
    (hscr : m ≤ s.scr.length) (hbuf : m ≤ (s.bank .ctl).buf.length) :
    ∃ u, deliverRecord m (memRead true a m (startSequencer .ctl i x s)) = u ∧ u.seq = .idle ∧ SameDevice s u
      ∧ StoreFrame s u
      ∧ (∀ k, validate (s.dev.readBytes a m) m = .ok k →
          Completed .ctl .ok u ∧ (u.bank .ctl).res0 = BitVec.ofNat 16 k
            ∧ (u.bank .ctl).buf = (s.dev.readBytes a m).take (k + 1) ++ (s.bank .ctl).buf.drop (k + 1))
      ∧ (validate (s.dev.readBytes a m) m = .corrupt → Completed .ctl .corrupt u ∧ StoreFrameNoData s u) := by
  have hframe := storeFrameNoData_memRead (storeFrameNoData_started (started_startSequencer i x s)) true a m
  refine ⟨_, rfl, seq_deliverRecord m _, fun y => by rw [dev_deliverRecord]; rfl,
    storeFrame_deliverRecord m hframe, fun k hk => ?_, fun hk => ?_⟩
  · obtain ⟨-, -, hkm, -, -⟩ := validate_eq_ok hk
    rw [deliverRecord_of_ok (by rwa [take_scr_startedRead _ _ _ hscr])]
    exact ⟨completed_deliver _ _ _, res0_deliver _ _ _, buf_deliver_startedRead _ _ _ hscr _ (by omega) hbuf⟩
  · rw [deliverRecord_of_corrupt (by rwa [take_scr_startedRead _ _ _ hscr])]
    exact ⟨completed_seqFinish .corrupt _, storeFrameNoData_seqFinish .corrupt hframe⟩

/-- Settles O29: the slot's first byte tells an empty slot from a record, which is validated. -/
theorem logReadCompletes : Obligations.LogReadCompletes := by
  unfold Obligations.LogReadCompletes
  intro s i hs hc hi hscr hbuf
  have hstart := started_startSequencer (.logRead i) (.memRead (slotAddr s.cfg i) slotBytes .logRead) s
  have hhead : (memRead true (slotAddr s.cfg i) slotBytes
      (startSequencer .ctl (.logRead i) (.memRead (slotAddr s.cfg i) slotBytes .logRead) s)).scr.headD 0
        = s.dev.read (slotAddr s.cfg i) := head_memRead (n := 63) (s := startSequencer _ _ _ s) hscr
  refine ⟨_, _, exec_logRead hs hi, hstart, seqRun_read rfl (slot_in_device hc hi (Nat.le_refl _)), ?_⟩
  by_cases h0 : s.dev.read (slotAddr s.cfg i) = 0
  · rw [afterRead, if_pos (hhead.trans h0)]
    have hframe := storeFrameNoData_seqFinish .empty
      (storeFrameNoData_memRead (storeFrameNoData_started hstart) true (slotAddr s.cfg i) slotBytes)
    exact ⟨rfl, fun _ => rfl, hframe.toStoreFrame, fun _ => ⟨completed_seqFinish .empty _, hframe⟩,
      fun hne => absurd h0 hne⟩
  · obtain ⟨u, hu, hidle, hdev, hframe, hrecord⟩ := deliverRecord_startedRead (.logRead i)
      (.memRead (slotAddr s.cfg i) slotBytes .logRead) (slotAddr s.cfg i) (m := slotBytes)
      (by rw [hscr]; decide) (by rw [hbuf]; decide)
    rw [afterRead, if_neg (hhead ▸ h0), hu]
    exact ⟨hidle, hdev, hframe, fun h => absurd h h0, fun _ => hrecord⟩

/-! ### The bytes a log command can change (42_log.md R169, R170) -/

theorem dev_afterRead (cmd : Instr) (k : AfterRead) (s : State) : (afterRead cmd k s).dev = s.dev := by
  cases k with
  | readStatus m => exact dev_deliverRecord m s
  | rawRead n => rfl
  | logPointer => unfold afterRead; dsimp only; split <;> rfl
  | logScan i =>
    unfold afterRead
    dsimp only
    repeat' split
    all_goals rfl
  | logRead =>
    unfold afterRead
    dsimp only
    split
    · rfl
    · exact dev_deliverRecord slotBytes s

theorem dev_afterWrite (cmd : Instr) (k : AfterWrite) (s : State) : (afterWrite cmd k s).dev = s.dev := by
  cases k with
  | done v => rfl
  | wipeSlot i resume => unfold afterWrite; dsimp only; split <;> rfl
  | wipePointer resume => cases resume <;> rfl
  | slotRecord p scanned wiped => rfl

/-- A write within one slot is within the ring. -/
theorem slot_in_ring (c : Config) {i n : Nat} (hi : i < c.logCount) (hn : n ≤ slotBytes) :
    c.minLogAddr ≤ slotAddr c i ∧ slotAddr c i + n ≤ logEnd c := by
  unfold logEnd slotAddr slotBytes at *
  omega

/-- A log command writes a slot of the ring or the pointer. -/
theorem AfterWrite.Fits.logRange {c : Config} (hc : ConfigLegal c) {cmd : Instr} {addr n : Nat} {k : AfterWrite}
    (h : k.Fits c cmd addr n) (hlog : cmd = .logWrite ∨ cmd = .logDelete ∨ ∃ i, cmd = .logRead i) :
    (c.minLogAddr ≤ addr ∧ addr + n ≤ logEnd c) ∨ (addr = c.logAddrStorage ∧ n = 2) := by
  cases k with
  | done v =>
    obtain ⟨a, m, rfl | rfl, -⟩ | ⟨-, haddr, hn⟩ := h
    · simp at hlog
    · simp at hlog
    · exact .inr ⟨haddr, hn⟩
  | wipeSlot i resume =>
    obtain ⟨rfl, hi, rfl, -⟩ := h
    exact .inl (slot_in_ring c hi (by decide))
  | wipePointer resume =>
    obtain ⟨hn, haddr, -⟩ := h
    exact .inr ⟨haddr, hn⟩
  | slotRecord p scanned wiped =>
    obtain ⟨rfl, rfl, hp, -⟩ := h
    obtain ⟨i, hi, rfl⟩ := validPointer_slot hc hp
    exact .inl (slot_in_ring c hi (Nat.le_refl _))

/-- Settles O30: only a MemWrite changes the device, and a log command's is in the ring or the pointer. -/
theorem logCommandsStayInRing : Obligations.LogCommandsStayInRing := by
  unfold Obligations.LogCommandsStayInRing
  intro s t cmd todo ok took a h hs hlog he hout h0 h1
  obtain ⟨-, rfl⟩ | ⟨_, addr, n, k, -, -, ⟨-, rfl⟩ | ⟨-, rfl⟩⟩ | ⟨_, addr, data, k, hq, -, rfl⟩
    | ⟨_, w, k, -, ⟨-, rfl⟩ | ⟨-, rfl⟩⟩ := seqStep_cases he
  · rfl
  · rw [dev_afterRead, memRead_dev]
  · rfl
  · cases hs.symm.trans hq
    have hlen := length_landedBytes ok took (Memory.length_readBytes s.dev addr data.length)
    refine Memory.read_writeBytes_outside ?_
    rw [hlen]
    obtain ⟨hlo, hhi⟩ | ⟨rfl, hn⟩ := (fits_of_seq h hs).2.logRange h.legal hlog <;> omega
  · rw [dev_afterWrite]
  · rfl

end Sys2Proof.Machine
end

section
/-! SUPPORT. Every step keeps the invariant (O54): a power loss leaves the reset values of R40 with drawn bytes,
and a device in which at most one write is torn. -/

namespace Sys2Proof.Machine

/-! ### The bank after a power-up -/

theorem bank_powerCycle (took : BitVec 256) (boot : PerPort (List Access)) (s : State) (p : PortId) :
    (powerCycle took boot s).bank p = freshBank s.tick (boot.get p) p := by cases p <;> rfl

section Fresh
variable (tick : Nat) (host : List Access) (p : PortId)

theorem length_buf_freshBank : (freshBank tick host p).buf.length = 256 := by
  cases p <;> exact length_freeBytes _ _ _

theorem length_msg_freshBank : (freshBank tick host p).msg.length = 128 := by
  cases p <;> exact length_freeBytes _ _ _

theorem current_freshBank : (freshBank tick host p).current = none := by cases p <;> rfl

end Fresh

/-! ### The device after a power loss (70_reset_and_hazards.md R252) -/

/-- A torn write leaves the device as it was, or with bytes written within it: the write was inside. -/
theorem tornDevice_cases {s : State} (h : s.Inv) (took : BitVec 256) :
    tornDevice took s = s.dev
      ∨ ∃ addr bytes, addr + bytes.length ≤ s.cfg.devSize ∧ tornDevice took s = s.dev.writeBytes addr bytes := by
  match hs : s.seq with
  | .idle => exact .inl (by simp only [tornDevice, hs])
  | .active cmd (.memRead addr n k) => exact .inl (by simp only [tornDevice, hs])
  | .active cmd (.memWrite addr data k) => exact .inl (by simp only [tornDevice, hs])
  | .active cmd (.settle w k) =>
    obtain ⟨hin, hlen, -⟩ := fits_of_seq h hs
    refine .inr ⟨w.addr, mix took w.old w.new, ?_, by simp only [tornDevice, hs]⟩
    rw [length_mix, hlen, Nat.min_self]
    exact of_decide_eq_true hin

theorem wf_tornDevice {s : State} (h : s.Inv) (took : BitVec 256) : Memory.wf (tornDevice took s) := by
  obtain e | ⟨addr, bytes, -, e⟩ := tornDevice_cases h took <;> rw [e]
  · exact h.devForm
  · exact Memory.wf_writeBytes h.devForm addr bytes

theorem range_tornDevice {s : State} (h : s.Inv) (took : BitVec 256) :
    ∀ c ∈ tornDevice took s, c.1 < s.cfg.devSize := by
  obtain e | ⟨addr, bytes, hin, e⟩ := tornDevice_cases h took <;> rw [e]
  · exact h.devRange
  · intro c hc
    obtain hc | ⟨-, hc⟩ := Memory.mem_writeBytes hc
    · exact h.devRange c hc
    · omega

/-! ### The invariant -/

/-- The queues, the buffers, FLAGS and SEQ are those of the first power-up. -/
theorem inv_powerCycle {s : State} (h : s.Inv) (took : BitVec 256) (boot : PerPort (List Access)) :
    (powerCycle took boot s).Inv :=
  have hl := invariantAtReset s.cfg h.legal
  have hnone (p : PortId) : ((powerCycle took boot s).bank p).current = none := by
    rw [bank_powerCycle, current_freshBank]
  { legal := h.legal
    bufLength := fun p => by rw [bank_powerCycle, length_buf_freshBank]
    msgLength := fun p => by rw [bank_powerCycle, length_msg_freshBank]
    scrLength := length_freeBytes _ _ _
    devForm := wf_tornDevice h took
    devRange := range_tornDevice h took
    capacity := hl.capacity
    depth := hl.depth
    landed := hl.landed
    pending := hl.pending
    senders := hl.senders
    flagOwner := hl.flagOwner
    sequencer := trivial
    current := fun p cur hc => by rw [hnone] at hc; cases hc
    gates := fun p i q hc => by rw [hnone] at hc; cases hc }

/-- Settles O54: a power loss leaves a state as after reset, and every other step keeps the invariant. -/
theorem stepKeepsInvariant : Obligations.StepKeepsInvariant := by
  unfold Obligations.StepKeepsInvariant
  intro s t hs he
  have hrun := runEvent_of_step hs he
  by_cases hpower : ∃ took boot, nextEvent s = .powerLoss took boot
  · obtain ⟨took, boot, hev⟩ := hpower
    rw [hev] at hrun
    cases hrun
    exact inv_powerCycle hs.advance took boot
  · exact inv_runEvent hs.advance hrun fun took boot hev => hpower ⟨took, boot, hev⟩

end Sys2Proof.Machine
end

section
/-! SUPPORT. The queue and flag commands that pass their checks: each goes on in its issuing step when the
condition of its `hold until` is true, and is held on it when it is not (O32, O33, O35, O37, O39). Q_TRYRECV (O34)
and a flag command with mask 0 (O38) have no such condition. -/

namespace Sys2Proof.Machine

/-! ### The two ends of a `hold until` -/

section Fits
variable {i : Instr} {h : Hold} {s : State} (hf : h.Fits s.issuer (s.bank s.issuer).msg i)
include hf

theorem exec_of_lifted (hl : h.lifted s.issuer s = true) : exec i s = .next (h.resume s.issuer s) := by
  rw [exec_of_fits hf, awaitHold, if_pos hl]

theorem heldOn_exec (hl : h.lifted s.issuer s = false) : HeldOn s.issuer i h s (exec i s) := by
  rw [exec_of_fits hf, awaitHold, hl]
  exact heldOn_holdOn s.issuer i h s

end Fits

theorem onlyStatus_finish (p : PortId) (r : ResultCode) (s : State) : OnlyStatus p s (finish p r s) :=
  onlyStatus_updBank s p (fun _ => r) fun _ => none

theorem onlyBank_finish (p : PortId) (r : ResultCode) (s : State) : OnlyBank p s (finish p r s) :=
  onlyBank_updBank s p _

/-! ### Sends (43_dispatch.md R183 to R185) -/

/-- Settles O32: the condition is credit, and what follows it is the post. -/
theorem qSendPostsOrHolds : Obligations.QSendPostsOrHolds := by
  unfold Obligations.QSendPostsOrHolds
  intro s k q hq htag hp
  have hf : (Hold.credit q).Fits s.issuer (s.bank s.issuer).msg (.qSend k) :=
    ⟨by rw [queueOf_eq_some.1 hq], hp, decide_eq_true htag⟩
  refine ⟨fun hload => ?_, fun hload => heldOn_exec hf ?_⟩
  · exact ⟨_, exec_of_lifted hf (lifted_credit.2 hload), completed_finish _ _ _, posted_postMessage _ q s⟩
  · exact Bool.eq_false_iff.2 fun hl => Nat.not_lt.2 hload (lifted_credit.1 hl)

theorem resume_gate_closed {q : QueueId} {p : PortId} {s : State} (h : s.flag .connected = false) :
    (Hold.gate q).resume p s = finish p .dropped s := if_pos h

theorem resume_gate_open {q : QueueId} {p : PortId} {s : State} (h : s.flag .connected = true) :
    (Hold.gate q).resume p s = finish p .ok (postMessage p q s) := if_neg (by rw [h]; decide)

/-- Settles O33: the condition is that nothing of the port's own is pending, and a closed gate or credit. -/
theorem qSendcGates : Obligations.QSendcGates := by
  unfold Obligations.QSendcGates
  intro s k q hq htag hp
  have hf : (Hold.gate q).Fits s.issuer (s.bank s.issuer).msg (.qSendc k) :=
    ⟨by rw [queueOf_eq_some.1 hq], hp, decide_eq_true htag⟩
  refine ⟨fun hnil hoff => ?_, fun hnil hon hload => ?_, fun hwait => heldOn_exec hf ?_⟩
  · refine ⟨_, exec_of_lifted hf (lifted_gate.2 ⟨hnil, .inl hoff⟩), ?_⟩
    rw [resume_gate_closed hoff]
    exact ⟨completed_finish _ _ s, onlyStatus_finish _ _ s, onlyBank_finish _ _ s⟩
  · refine ⟨_, exec_of_lifted hf (lifted_gate.2 ⟨hnil, .inr hload⟩), ?_⟩
    rw [resume_gate_open hon]
    exact ⟨completed_finish _ _ _, posted_postMessage _ q s⟩
  · refine Bool.eq_false_iff.2 fun hl => ?_
    obtain ⟨hnil, hoff | hload⟩ := lifted_gate.1 hl <;> obtain hne | ⟨hon, hfull⟩ := hwait
    · exact hne hnil
    · exact Bool.false_ne_true (hoff.symm.trans hon)
    · exact hne hnil
    · exact Nat.not_lt.2 hfull hload

/-! ### Receives (43_dispatch.md R186, R187) -/

/-- Settles O35: the condition is a landed entry, and what follows it takes the front one. -/
theorem qRecvTakesFrontOrHolds : Obligations.QRecvTakesFrontOrHolds := by
  unfold Obligations.QRecvTakesFrontOrHolds
  intro s k q hq hp
  have hf : (Hold.entry q).Fits s.issuer (s.bank s.issuer).msg (.qRecv k) := ⟨by rw [queueOf_eq_some.1 hq], hp⟩
  refine ⟨fun hnil => heldOn_exec hf (Bool.eq_false_iff.2 fun hl => lifted_entry.1 hl hnil),
    fun m rest hcons hlen => ⟨_, exec_of_lifted hf (lifted_entry.2 ?_), received_receive hcons hlen⟩⟩
  rw [hcons]
  exact List.cons_ne_nil m rest

theorem exec_qTryrecv {s : State} {q : QueueId} (hp : s.issuer = receiver q) :
    exec (.qTryrecv q.number) s
      = .next (if (s.queue q).isEmpty then finish s.issuer .empty s else receive s.issuer q s) :=
  receiveChecked_of_receiver hp

/-- Settles O34: an empty queue is answered EMPTY, and the front entry of any other is taken. -/
theorem qTryrecvTakesFrontOrEmpty : Obligations.QTryrecvTakesFrontOrEmpty := by
  unfold Obligations.QTryrecvTakesFrontOrEmpty
  intro s k q hq hp
  obtain rfl := queueOf_eq_some.1 hq
  refine ⟨fun hnil => ⟨_, exec_qTryrecv hp, ?_⟩, fun m rest hcons hlen => ⟨_, exec_qTryrecv hp, ?_⟩⟩
  · rw [hnil, List.isEmpty_nil, if_pos rfl]
    exact ⟨completed_finish _ _ s, onlyStatus_finish _ _ s, onlyBank_finish _ _ s⟩
  · rw [hcons, List.isEmpty_cons, if_neg Bool.false_ne_true]
    exact received_receive hcons hlen

/-! ### Flag commands (43_dispatch.md R188 to R192) -/

/-- The operations that the three masks name, bit 0 first. -/
theorem eq_namedOps {mask : BitVec 2} {mk : FlagBit → FlagOp} {ops : List FlagOp}
    (h : (mask = 1 ∧ ops = [mk .connected]) ∨ (mask = 2 ∧ ops = [mk .reconnect])
      ∨ (mask = 3 ∧ ops = [mk .connected, mk .reconnect])) : ops = namedOps mk mask ∧ ops ≠ [] := by
  obtain ⟨rfl, rfl⟩ | ⟨rfl, rfl⟩ | ⟨rfl, rfl⟩ := h <;> exact ⟨rfl, List.cons_ne_nil _ _⟩

/-- A port may issue FLAG_SET exactly when it may set every bit that the mask names (R188(b), R224). -/
theorem allowed_namedOps_set (p : PortId) (mask : BitVec 2) :
    (namedOps .set mask).all (allowed p) = mayIssue (.flagSet mask) p := by
  cases p <;> revert mask <;> decide

theorem allowed_namedOps_clr (p : PortId) (mask : BitVec 2) :
    (namedOps .clr mask).all (allowed p) = mayIssue (.flagClear mask) p := by
  cases p <;> revert mask <;> decide

/-- Settles O37: the condition is room for all the operations, and what follows it posts them together. -/
theorem flagOperationsPostTogether : Obligations.FlagOperationsPostTogether := by
  unfold Obligations.FlagOperationsPostTogether
  intro s mask mk i ops hi hops hmay
  obtain ⟨rfl, hne⟩ := eq_namedOps hops
  have hf : (Hold.depth (namedOps mk mask)).Fits s.issuer (s.bank s.issuer).msg i := by
    obtain ⟨rfl, rfl⟩ | ⟨rfl, rfl⟩ := hi
    · exact ⟨⟨mask, .inl ⟨rfl, rfl⟩⟩, hne, (allowed_namedOps_set _ mask).trans hmay⟩
    · exact ⟨⟨mask, .inr ⟨rfl, rfl⟩⟩, hne, (allowed_namedOps_clr _ mask).trans hmay⟩
  refine ⟨fun hfit => ?_, fun hfull => heldOn_exec hf ?_⟩
  · exact ⟨_, exec_of_lifted hf (lifted_depth.2 hfit), completed_finish _ _ _, flagsPosted_postFlags _ _ s⟩
  · exact Bool.eq_false_iff.2 fun hl => Nat.not_le.2 hfull (lifted_depth.1 hl)

/-- Settles O38: mask 0 names no operation, so none is forbidden and none is posted. -/
theorem maskZeroCompletesAtOnce : Obligations.MaskZeroCompletesAtOnce := by
  unfold Obligations.MaskZeroCompletesAtOnce
  intro s i hi
  have he : exec i s = .next (finish s.issuer .ok s) := by obtain rfl | rfl := hi <;> rfl
  exact ⟨_, he, completed_finish _ _ s, onlyStatus_finish _ _ s, onlyBank_finish _ _ s⟩

theorem resume_ownFlags (p : PortId) (s : State) :
    Hold.ownFlags.resume p s
      = s.updBank p fun b => { b with rc := .ok, current := none, res0 := s.flags.setWidth 16 } := by
  simp [Hold.resume]

/-- Settles O39: the condition is that nothing of the port's own is pending, and what follows it samples FLAGS. -/
theorem flagGetSamplesOrHolds : Obligations.FlagGetSamplesOrHolds := by
  unfold Obligations.FlagGetSamplesOrHolds
  intro s
  have hf : Hold.ownFlags.Fits s.issuer (s.bank s.issuer).msg .flagGet := rfl
  refine ⟨fun hnil => ⟨_, exec_of_lifted hf (lifted_ownFlags.2 hnil), ?_⟩,
    fun hne => heldOn_exec hf (Bool.eq_false_iff.2 fun hl => hne (lifted_ownFlags.1 hl))⟩
  have hflags : (s.flags.setWidth 16).toNat = s.flags.toNat := BitVec.toNat_setWidth_of_le (by decide)
  rw [resume_ownFlags, Completed, State.busy, bank_updBank]
  exact ⟨⟨rfl, rfl⟩, hflags, rfl, rfl, rfl, onlyBank_updBank s _ _⟩

end Sys2Proof.Machine
end

section
/-! SUPPORT. Landings: the front entry of a pending buffer is applied to its resource (O40), and of all steps but a
power loss only NET's landings change CONNECTED or clear RECONNECT (O42). -/

namespace Sys2Proof.Machine

/-! ### What an operation does to FLAGS (43_dispatch.md R196) -/

section Apply
variable (f : BitVec 2)

theorem FlagOp.apply_set_connected :
    (FlagOp.apply (.set .connected) f).getLsbD 0 = true
      ∧ (FlagOp.apply (.set .connected) f).getLsbD 1 = f.getLsbD 1 := by revert f; decide

theorem FlagOp.apply_set_reconnect :
    (FlagOp.apply (.set .reconnect) f).getLsbD 1 = true
      ∧ (FlagOp.apply (.set .reconnect) f).getLsbD 0 = f.getLsbD 0 := by revert f; decide

theorem FlagOp.apply_clr_connected :
    (FlagOp.apply (.clr .connected) f).getLsbD 0 = false
      ∧ (FlagOp.apply (.clr .connected) f).getLsbD 1 = f.getLsbD 1 := by revert f; decide

theorem FlagOp.apply_clr_reconnect :
    (FlagOp.apply (.clr .reconnect) f).getLsbD 1 = false
      ∧ (FlagOp.apply (.clr .reconnect) f).getLsbD 0 = f.getLsbD 0 := by revert f; decide

end Apply

/-! ### The frame of a landing -/

theorem sameStore_land (p : PortId) (r : Resource) (s : State) : SameStore s (land p r s) := by
  cases r with
  | queue q => unfold land landMessage; dsimp only; split <;> exact ⟨rfl, rfl, fun _ => rfl, rfl⟩
  | flags => unfold land landFlag; dsimp only; split <;> exact ⟨rfl, rfl, fun _ => rfl, rfl⟩

theorem sameOutside_land (p : PortId) (r : Resource) (s : State) : SameOutside s (land p r s) := by
  cases r with
  | queue q => unfold land landMessage; dsimp only; split <;> exact ⟨rfl, rfl, rfl, rfl⟩
  | flags => unfold land landFlag; dsimp only; split <;> exact ⟨rfl, rfl, rfl, rfl⟩

theorem flags_landMessage (p : PortId) (q : QueueId) (s : State) : (landMessage p q s).flags = s.flags := by
  unfold landMessage
  split <;> rfl

/-- A landed Message changes no bank. -/
theorem bank_landMessage (p r : PortId) (q : QueueId) (s : State) : (landMessage p q s).bank r = s.bank r := by
  unfold landMessage
  split <;> rfl

section LandFlag
variable {p : PortId} {s : State} {op : FlagOp} {rest : List FlagOp} (h : s.pendFlags p = op :: rest)
include h

/-- The gates are retested in a state whose banks are the old ones. -/
theorem landFlag_eq_retestGates : ∃ t, landFlag p s = retestGates t ∧ ∀ r, t.bank r = s.bank r :=
  ⟨_, landFlag_cons h, fun _ => rfl⟩

/-- A Q_SENDC whose gate the landed operation leaves closed is dropped (43_dispatch.md R185). -/
theorem bank_landFlag_of_closed {r : PortId} (hc : ∃ i q, (s.bank r).current = some ⟨i, some (.gate q)⟩)
    (hn : (landFlag p s).pendFlags r = []) (hf : (landFlag p s).flag .connected = false) :
    (landFlag p s).bank r = { s.bank r with rc := .dropped, current := none } := by
  obtain ⟨t, ht, hb⟩ := landFlag_eq_retestGates h
  rw [ht] at hn hf ⊢
  rw [← hb] at hc ⊢
  rw [bank_retestGates, if_pos (gateClosed_eq_true.2 ⟨hc, hn, hf⟩)]

/-- Every other port's bank is unchanged. -/
theorem bank_landFlag_of_open {r : PortId} (ho : (∀ i q, (s.bank r).current ≠ some ⟨i, some (.gate q)⟩)
      ∨ (landFlag p s).pendFlags r ≠ [] ∨ (landFlag p s).flag .connected = true) :
    (landFlag p s).bank r = s.bank r := by
  obtain ⟨t, ht, hb⟩ := landFlag_eq_retestGates h
  rw [ht] at ho ⊢
  rw [← hb] at ho ⊢
  rw [bank_retestGates, if_neg fun hg => ?_]
  obtain ⟨⟨i, q, hc⟩, hn, hf⟩ := gateClosed_eq_true.1 hg
  obtain ho | ho | ho := ho
  · exact ho i q hc
  · exact ho hn
  · exact Bool.false_ne_true (hf.symm.trans ho)

end LandFlag

/-- Settles O40: a Message moves from one list to the other, and an operation is applied before the gates are
tested. -/
theorem landerAppliesFrontEntry : Obligations.LanderAppliesFrontEntry := by
  unfold Obligations.LanderAppliesFrontEntry
  refine fun s p => ⟨fun q m rest h => ?_, fun op rest h => ?_⟩
  · refine ⟨landMessage p q s, rfl, ?_, ?_, fun x hx => ?_, fun r x hrx => ?_,
      fun r => pendFlags_landMessage p r q s, flags_landMessage p q s, fun r => bank_landMessage p r q s,
      sameStore_land p (.queue q) s, sameOutside_land p (.queue q) s⟩
    · rw [pendQueue_landMessage, if_pos ⟨rfl, rfl⟩, h, List.tail_cons]
    · rw [queue_landMessage, if_pos rfl, h]; rfl
    · rw [queue_landMessage, if_neg hx]
    · rw [pendQueue_landMessage, if_neg (not_and_or.2 hrx)]
  · have hflags := flags_landFlag h
    refine ⟨landFlag p s, rfl, ?_, fun r hr => ?_, ?_, ?_, ?_, ?_, queue_landFlag p s,
      fun r x => pendQueue_landFlag p r s x, fun r i q hc hn hf => ?_, fun r ho => bank_landFlag_of_open h ho,
      sameStore_land p .flags s, sameOutside_land p .flags s⟩
    · rw [pendFlags_landFlag, if_pos rfl, h, List.tail_cons]
    · rw [pendFlags_landFlag, if_neg hr]
    · rintro rfl; rw [hflags]; exact FlagOp.apply_set_connected _
    · rintro rfl; rw [hflags]; exact FlagOp.apply_set_reconnect _
    · rintro rfl; rw [hflags]; exact FlagOp.apply_clr_connected _
    · rintro rfl; rw [hflags]; exact FlagOp.apply_clr_reconnect _
    · have hb := bank_landFlag_of_closed h ⟨i, q, hc⟩ hn hf
      refine ⟨⟨by rw [hb], by rw [State.busy, hb]; rfl⟩, ?_⟩
      constructor <;> rw [hb]

/-! ### Who changes FLAGS (43_dispatch.md R188(b), R195) -/

theorem flags_runEvent {e : Event} {s t : State} (h : s.Inv) (he : runEvent e s = .next t)
    (hland : ∀ p, e ≠ .land p .flags) (hpower : ∀ took boot, e ≠ .powerLoss took boot) :
    t.flags = s.flags := by
  cases e with
  | host p => exact (onlyPort_hostStep he).flags
  | port p => cases he; exact (onlyPort_retest h p).flags
  | sequencer ok took => exact (storeFrame_seqStep he).dispatcher.flags
  | land p r =>
    cases he
    cases r with
    | queue q => exact flags_landMessage p q s
    | flags => exact absurd rfl (hland p)
  | powerLoss took boot => exact absurd rfl (hpower took boot)

/-- The one operation that another port than NET may post. -/
theorem eq_set_reconnect_of_allowed {p : PortId} {op : FlagOp} (hp : p ≠ .net) (h : allowed p op = true) :
    op = .set .reconnect := by
  match op, h with
  | .set .reconnect, _ => rfl
  | .set .connected, h | .clr _, h => exact absurd (of_decide_eq_true h) hp

/-- The landings of another port than NET keep CONNECTED and do not clear RECONNECT. -/
theorem flags_landFlag_of_ne_net {s : State} (h : s.Inv) {p : PortId} (hp : p ≠ .net) :
    (landFlag p s).flags.getLsbD 0 = s.flags.getLsbD 0
      ∧ (s.flags.getLsbD 1 = true → (landFlag p s).flags.getLsbD 1 = true) := by
  cases hpend : s.pendFlags p with
  | nil => rw [landFlag_nil hpend]; exact ⟨rfl, id⟩
  | cons op rest =>
    obtain rfl := eq_set_reconnect_of_allowed hp (h.flagOwner p op (by rw [hpend]; exact List.mem_cons_self))
    obtain ⟨hset, hkept⟩ := FlagOp.apply_set_reconnect s.flags
    rw [flags_landFlag hpend]
    exact ⟨hkept, fun _ => hset⟩

/-- Settles O42: only landings and power losses change FLAGS, and another port than NET posts no operation but the
setting of RECONNECT. -/
theorem onlyNetChangesConnected : Obligations.OnlyNetChangesConnected := by
  unfold Obligations.OnlyNetChangesConnected
  intro s t hs he hchange
  by_contra hother
  obtain ⟨hnet, hpower⟩ := not_or.1 hother
  have hrun := runEvent_of_step hs he
  have hkept : t.flags.getLsbD 0 = s.flags.getLsbD 0
      ∧ (s.flags.getLsbD 1 = true → t.flags.getLsbD 1 = true) := by
    by_cases hland : ∃ p, nextEvent s = .land p .flags
    · obtain ⟨p, hev⟩ := hland
      rw [hev] at hrun
      cases hrun
      exact flags_landFlag_of_ne_net hs.advance fun hp => hnet (hp ▸ hev)
    · have hflags := flags_runEvent hs.advance hrun (fun p hev => hland ⟨p, hev⟩)
        fun took boot hev => hpower ⟨took, boot, hev⟩
      rw [hflags]
      exact ⟨rfl, id⟩
  obtain hne | ⟨hon, hoff⟩ := hchange
  · exact hne hkept.1
  · exact Bool.false_ne_true (hoff.symm.trans (hkept.2 hon))

end Sys2Proof.Machine
end

section
/-! SUPPORT. The dispatcher and the store do not touch each other's state (O57); two ports that are held in sends to
each other's full queue stay held (O58). -/

namespace Sys2Proof.Machine

/-! ### What the dispatcher leaves alone -/

/-- The store is unchanged, and in every bank BUF and CRC. -/
def StoreUntouched (s t : State) : Prop :=
  SameStore s t ∧ ∀ p, (t.bank p).buf = (s.bank p).buf ∧ (t.bank p).crc = (s.bank p).crc

theorem storeUntouched_refl (s : State) : StoreUntouched s s :=
  ⟨⟨rfl, rfl, fun _ => rfl, rfl⟩, fun _ => ⟨rfl, rfl⟩⟩

theorem storeUntouched_setQueue (q : QueueId) (l : List Image) (s : State) : StoreUntouched s (s.setQueue q l) :=
  ⟨⟨rfl, rfl, fun _ => rfl, rfl⟩, fun _ => ⟨rfl, rfl⟩⟩

theorem storeUntouched_postMessage (p : PortId) (q : QueueId) (s : State) :
    StoreUntouched s (postMessage p q s) := ⟨⟨rfl, rfl, fun _ => rfl, rfl⟩, fun _ => ⟨rfl, rfl⟩⟩

theorem storeUntouched_postFlags (p : PortId) (ops : List FlagOp) (s : State) :
    StoreUntouched s (postFlags p ops s) := ⟨⟨rfl, rfl, fun _ => rfl, rfl⟩, fun _ => ⟨rfl, rfl⟩⟩

theorem storeUntouched_updBank {s t : State} (h : StoreUntouched s t) (p : PortId) {f : Bank → Bank}
    (hf : ∀ b, (f b).buf = b.buf ∧ (f b).crc = b.crc) : StoreUntouched s (t.updBank p f) := by
  obtain ⟨hstore, hdata⟩ := h
  refine ⟨⟨hstore.seq, hstore.scr, hstore.device, hstore.bus⟩, fun r => ?_⟩
  by_cases hr : r = p
  · subst hr
    obtain ⟨hbuf, hcrc⟩ := hdata r
    rw [bank_updBank]
    exact ⟨(hf _).1.trans hbuf, (hf _).2.trans hcrc⟩
  · rw [bank_updBank_other _ _ _ hr]
    exact hdata r

theorem storeUntouched_finish {s t : State} (h : StoreUntouched s t) (p : PortId) (r : ResultCode) :
    StoreUntouched s (finish p r t) := storeUntouched_updBank h p fun _ => ⟨rfl, rfl⟩

theorem storeUntouched_receive (p : PortId) (q : QueueId) (s : State) : StoreUntouched s (receive p q s) := by
  cases h : s.queue q with
  | nil => rw [receive_nil h]; exact storeUntouched_refl s
  | cons m rest =>
    rw [receive_cons h]
    exact storeUntouched_updBank (storeUntouched_setQueue q rest s) p fun _ => ⟨rfl, rfl⟩

theorem storeUntouched_resume (h : Hold) (p : PortId) (s : State) : StoreUntouched s (h.resume p s) := by
  obtain ⟨q, -, e⟩ | ⟨q, -, -, e⟩ | ⟨q, -, e⟩ | ⟨ops, -, e⟩ | ⟨-, e⟩ := resume_cases h p s <;> rw [e]
  · exact storeUntouched_finish (storeUntouched_postMessage p q s) p .ok
  · exact storeUntouched_finish (storeUntouched_refl s) p .dropped
  · exact storeUntouched_receive p q s
  · exact storeUntouched_finish (storeUntouched_postFlags p ops s) p .ok
  · rw [finish_eq, setRes0_eq, updBank_updBank]
    exact storeUntouched_updBank (storeUntouched_refl s) p fun _ => ⟨rfl, rfl⟩

theorem storeUntouched_retest (p : PortId) (s : State) : StoreUntouched s (retest p s) := by
  obtain e | ⟨_, h, -, -, e⟩ := retest_cases p s <;> rw [e]
  · exact storeUntouched_refl s
  · exact storeUntouched_resume h p s

theorem storeUntouched_awaitHold (p : PortId) (i : Instr) (h : Hold) (s : State) :
    StoreUntouched s (awaitHold p i h s) := by
  unfold awaitHold
  split
  · exact storeUntouched_resume h p s
  · exact storeUntouched_updBank (storeUntouched_refl s) p fun _ => ⟨rfl, rfl⟩

theorem storeUntouched_land (p : PortId) (r : Resource) (s : State) : StoreUntouched s (land p r s) := by
  refine ⟨sameStore_land p r s, fun x => ?_⟩
  obtain hb | ⟨-, -, -, hb⟩ := bank_land p r s x <;> rw [hb] <;> exact ⟨rfl, rfl⟩

/-! ### The queue and flag commands (43_dispatch.md R201) -/

theorem storeUntouched_raise (p : PortId) (r : ResultCode) (s : State) : StoreUntouched s (raise p r s) :=
  storeUntouched_finish (storeUntouched_refl s) p r

theorem storeUntouched_sendChecked {q : Nat} {i : Instr} {hold : QueueId → Hold} {s t : State}
    (he : sendChecked q (fun x s => awaitHold s.issuer i (hold x) s) s = .next t) : StoreUntouched s t := by
  obtain rfl | rfl | ⟨x, -, -, -, rfl⟩ := sendChecked_cases he
  · exact storeUntouched_raise _ _ s
  · exact storeUntouched_raise _ _ s
  · exact storeUntouched_awaitHold _ _ _ s

theorem storeUntouched_receiveChecked {q : Nat} {run : QueueId → State → State} {s t : State}
    (he : receiveChecked q run s = .next t) (h : ∀ x, StoreUntouched s (run x s)) : StoreUntouched s t := by
  obtain rfl | rfl | ⟨x, -, -, rfl⟩ := receiveChecked_cases he
  · exact storeUntouched_raise _ _ s
  · exact storeUntouched_raise _ _ s
  · exact h x

theorem storeUntouched_postOps {i : Instr} {ops : List FlagOp} {s t : State} (he : postOps i ops s = .next t) :
    StoreUntouched s t := by
  obtain ⟨-, rfl⟩ | ⟨-, -, rfl⟩ | ⟨-, -, rfl⟩ := checked_cases he
  · exact storeUntouched_raise _ _ s
  · exact storeUntouched_raise _ _ s
  · split
    · exact storeUntouched_finish (storeUntouched_refl s) _ .ok
    · exact storeUntouched_awaitHold _ _ _ s

theorem storeUntouched_exec {i : Instr} {s t : State} (he : exec i s = .next t)
    (hi : (∃ q, i = .qSend q ∨ i = .qSendc q ∨ i = .qTryrecv q ∨ i = .qRecv q)
      ∨ (∃ m, i = .flagSet m ∨ i = .flagClear m) ∨ i = .flagGet) : StoreUntouched s t := by
  obtain ⟨q, rfl | rfl | rfl | rfl⟩ | ⟨m, rfl | rfl⟩ | rfl := hi
  · exact storeUntouched_sendChecked he
  · exact storeUntouched_sendChecked he
  · refine storeUntouched_receiveChecked he fun x => ?_
    split
    · exact storeUntouched_finish (storeUntouched_refl s) _ .empty
    · exact storeUntouched_receive _ x s
  · exact storeUntouched_receiveChecked he fun x => storeUntouched_awaitHold _ _ _ s
  · exact storeUntouched_postOps he
  · exact storeUntouched_postOps he
  · cases he; exact storeUntouched_awaitHold _ _ _ s

/-! ### The commands that post and take nothing -/

theorem sameDispatcher_checked {argOk permOk : Bool} {run : State → State} {s t : State}
    (he : checked argOk permOk run s = .next t) (h : SameDispatcher s (run s)) : SameDispatcher s t := by
  obtain ⟨-, rfl⟩ | ⟨-, -, rfl⟩ | ⟨-, -, rfl⟩ := checked_cases he
  · exact sameDispatcher_raise _ _ s
  · exact sameDispatcher_raise _ _ s
  · exact h

/-- FLAG_GET samples FLAGS or is held: it changes its bank alone. -/
theorem sameDispatcher_flagGet {s t : State} (he : exec .flagGet s = .next t) : SameDispatcher s t := by
  by_cases hnil : s.pendFlags s.issuer = []
  · obtain ⟨u, hu, -, -, -, -, -, hbank⟩ := (flagGetSamplesOrHolds s).1 hnil
    cases he.symm.trans hu
    exact hbank.dispatcher
  · obtain ⟨u, hu, -, -, -, hbank⟩ := (flagGetSamplesOrHolds s).2 hnil
    cases he.symm.trans hu
    exact hbank.dispatcher

theorem sameDispatcher_exec {i : Instr} {s t : State} (he : exec i s = .next t)
    (hq : ∀ q, i ≠ .qSend q ∧ i ≠ .qSendc q ∧ i ≠ .qTryrecv q ∧ i ≠ .qRecv q)
    (hm : ∀ m, i ≠ .flagSet m ∧ i ≠ .flagClear m) : SameDispatcher s t := by
  have hbank (f : Bank → Bank) : SameDispatcher s (s.updBank s.issuer f) := sameDispatcher_updBank s _ f
  cases i with
  | crcInit | crcByte | crcBuf =>
    cases he
    simp only [finishCrc, finish_eq, setRes0_eq, setCrc_eq, updBank_updBank]
    exact hbank _
  | crcSeal m =>
    refine sameDispatcher_checked he ?_
    rw [sealBuf_eq]
    exact hbank _
  | crcCheck m => exact sameDispatcher_checked he (sameDispatcher_checkBuf _ m s)
  | stRawRead a m | stRawWrite a m =>
    simp only [exec, execStRawRead, execStRawWrite] at he
    refine sameDispatcher_checked he ?_
    split
    · exact (sameDispatcher_setRes0 _ _ s).trans (sameDispatcher_finish _ _ _)
    · exact sameDispatcher_startSequencer _ _ _ s
  | stWriteStatus | stReadStatus | logWrite | logRead | logDelete =>
    exact sameDispatcher_checked he (sameDispatcher_startSequencer _ _ _ s)
  | qSend q | qSendc q | qTryrecv q | qRecv q => exact absurd (hq q) (by simp)
  | flagSet m | flagClear m => exact absurd (hm m) (by simp)
  | flagGet => exact sameDispatcher_flagGet he

/-- Settles O57: by the kind of the command; a retest is a hold that goes on, and a landing changes a bank by a drop
alone. -/
theorem dispatcherAndStoreAreIndependent : Obligations.DispatcherAndStoreAreIndependent := by
  unfold Obligations.DispatcherAndStoreAreIndependent
  exact ⟨fun i s t he => ⟨storeUntouched_exec he, sameDispatcher_exec he⟩, fun s p => storeUntouched_retest p s,
    fun s p r => storeUntouched_land p r s, fun s t ok took he => (storeFrame_seqStep he).dispatcher⟩

/-! ### Mutual full sends (43_dispatch.md R198) -/

/-- While the receiver of a queue is held, the queue's load does not fall: nothing is taken from it, and a landing
moves an entry from one part of the load to another. -/
theorem load_le_of_receiver_held {e : Event} {s t : State} {q : QueueId}
    (he : runEvent e s = .next t) (h : StillHeld (receiver q) e s t) : s.load q ≤ t.load q := by
  by_cases hland : ∃ r, e = .land r (.queue q)
  · obtain ⟨r, rfl⟩ := hland
    cases he
    exact Nat.le_of_eq (load_landMessage r q q s).symm
  · have hqueue : (s.queue q).length ≤ (t.queue q).length := by
      obtain ⟨l, hl⟩ := h.queues q rfl
      rw [hl, List.length_append]
      exact Nat.le_add_right _ _
    have hpend (r : PortId) : (s.pendQueue r q).length ≤ (t.pendQueue r q).length := by
      obtain ⟨l, hl⟩ := h.pending r q fun hev => hland ⟨r, hev⟩
      rw [hl, List.length_append]
      exact Nat.le_add_right _ _
    have h1 := hpend .ctl
    have h2 := hpend .ui
    have h3 := hpend .net
    unfold State.load
    omega

/-- A port held in a send to a full queue stays held in every step but a power loss. -/
theorem stillHeld_of_full {e : Event} {s t : State} {p : PortId} {i : Instr} {q : QueueId} (hs : s.Inv)
    (he : runEvent e s = .next t) (hc : (s.bank p).current = some ⟨i, some (.credit q)⟩) (hfull : s.load q = 10)
    (hpower : ∀ took boot, e ≠ .powerLoss took boot) : StillHeld p e s t := by
  obtain ⟨-, hl, -⟩ | ⟨⟨x, hx⟩, -⟩ | ⟨hheld, -⟩ := held_cases hs he hc hpower
  · exact absurd (lifted_credit.1 hl) (by rw [hfull]; decide)
  · cases hx
  · exact hheld

/-- Settles O58: each port stays held while the other's queue is full, and each queue stays full while its receiver
is held. -/
theorem mutualFullSendsNeverResume : Obligations.MutualFullSendsNeverResume := by
  unfold Obligations.MutualFullSendsNeverResume
  intro s t hs he hctl hui hloadUi hloadCtl hpower
  have hrun := runEvent_of_step hs he
  have hc := stillHeld_of_full hs.advance hrun hctl hloadUi hpower
  have hu := stillHeld_of_full hs.advance hrun hui hloadCtl hpower
  have full {q : QueueId} (hload : s.load q = 10) (hheld : StillHeld (receiver q) (nextEvent s) (advance s) t) :
      t.load q = 10 :=
    Nat.le_antisymm ((stepKeepsInvariant s t hs he).capacity q)
      (hload ▸ load_le_of_receiver_held (s := advance s) hrun hheld)
  exact ⟨hc.current.trans hctl, hu.current.trans hui, full hloadUi hu, full hloadCtl hc⟩

end Sys2Proof.Machine
end

section
/-! SUPPORT. The check order of every command (O43): a command is the checks of R222 in their order and then its
own rule, which completes with no error code. So an error code comes from a check alone (O44), every command
answers a next state, and no step is stuck (O55). -/

namespace Sys2Proof.Machine

/-! ### What follows the checks completes with no error code -/

/-- Port p is BUSY, or its command has completed with a code that is no error. -/
def NoError (p : PortId) (t : State) : Prop := t.busy p = false → (t.bank p).rc.isError = false

theorem noError_of_current {p : PortId} {t : State} {c : Current} (h : (t.bank p).current = some c) :
    NoError p t := fun hidle => by simp [State.busy, h] at hidle

theorem noError_finish {r : ResultCode} (hr : r.isError = false) (p : PortId) (s : State) :
    NoError p (finish p r s) := fun _ => by simpa using hr

theorem noError_startSequencer (p : PortId) (i : Instr) (first : SeqStep) (s : State) :
    NoError p (startSequencer p i first s) := noError_of_current (c := ⟨i, none⟩) (by simp)

/-- An empty queue has nothing to take, and the code would stay the one of the command before. -/
theorem noError_receive {q : QueueId} {s : State} (h : s.queue q ≠ []) (p : PortId) :
    NoError p (receive p q s) := by
  obtain ⟨m, rest, hq⟩ := List.exists_cons_of_ne_nil h
  intro _
  rw [receive_cons hq, bank_updBank]
  rfl

theorem noError_resume {h : Hold} {p : PortId} {s : State} (hl : h.lifted p s = true) :
    NoError p (h.resume p s) := by
  obtain ⟨q, -, e⟩ | ⟨q, -, -, e⟩ | ⟨q, rfl, e⟩ | ⟨ops, -, e⟩ | ⟨-, e⟩ := resume_cases h p s <;> rw [e]
  · exact noError_finish rfl p _
  · exact noError_finish rfl p s
  · exact noError_receive (lifted_entry.1 hl) p
  · exact noError_finish rfl p _
  · exact noError_finish rfl p _

theorem noError_awaitHold (p : PortId) (i : Instr) (h : Hold) (s : State) : NoError p (awaitHold p i h s) := by
  unfold awaitHold
  split
  · exact noError_resume ‹_›
  · exact noError_of_current (c := ⟨i, some h⟩) (by simp)

theorem noError_checkBuf (p : PortId) (m : Nat) (s : State) : NoError p (checkBuf p m s) := by
  unfold checkBuf
  split <;> exact noError_finish rfl p _

/-- A transfer of no bytes completes at once, any other starts the sequencer (41_store.md R143, R144). -/
theorem noError_transfer (p : PortId) (len : Nat) (i : Instr) (first : SeqStep) (s : State) :
    NoError p (if len = 0 then finishEmptyTransfer p s else startSequencer p i first s) := by
  split
  · exact noError_finish rfl p _
  · exact noError_startSequencer p i first s

/-! ### A command is its checks, in the order of R222, and its rule -/

/-- The outcome is the checks of command i in their order, and after them statements that complete with no error
code. -/
def IsChecked (i : Instr) (s : State) (o : Result) : Prop :=
  ∃ run, o = checked (argsLegal i s) (mayIssue i s.issuer) run s ∧ NoError s.issuer (run s)

theorem isChecked_errArg {i : Instr} {s : State} (h : argsLegal i s = false) :
    IsChecked i s (.next (raise s.issuer .errArg s)) :=
  ⟨finish s.issuer .ok, by rw [h]; rfl, noError_finish rfl s.issuer s⟩

theorem isChecked_sendChecked {q : Nat} {run : QueueId → State → State} {s : State}
    (h : ∀ x, NoError s.issuer (run x s)) : IsChecked (.qSend q) s (sendChecked q run s) := by
  match q with
  | 0 => exact ⟨run .ui, rfl, h .ui⟩
  | 1 => exact ⟨run .net, rfl, h .net⟩
  | 2 => exact ⟨run .ctl, rfl, h .ctl⟩
  | k + 3 => exact isChecked_errArg (by simp [argsLegal])

theorem isChecked_receiveChecked {q : Nat} {run : QueueId → State → State} {s : State}
    (h : ∀ x, NoError s.issuer (run x s)) : IsChecked (.qRecv q) s (receiveChecked q run s) := by
  match q with
  | 0 => exact ⟨run .ui, rfl, h .ui⟩
  | 1 => exact ⟨run .net, rfl, h .net⟩
  | 2 => exact ⟨run .ctl, rfl, h .ctl⟩
  | k + 3 => exact isChecked_errArg (by simp [argsLegal])

theorem isChecked_postOps {i : Instr} {ops : List FlagOp} {s : State} (hargs : argsLegal i s = true)
    (hmay : ops.all (allowed s.issuer) = mayIssue i s.issuer) : IsChecked i s (postOps i ops s) := by
  refine ⟨_, by rw [hargs, ← hmay]; rfl, ?_⟩
  split
  · exact noError_finish rfl s.issuer s
  · exact noError_awaitHold s.issuer i _ s

/-- R222, R224: `argsLegal` and `mayIssue` are what each command checks, in this order, before its own rule. -/
theorem isChecked_exec (i : Instr) (s : State) : IsChecked i s (exec i s) := by
  cases i with
  | crcInit | crcByte | crcBuf => exact ⟨_, checked_run.symm, noError_finish rfl s.issuer _⟩
  | crcSeal m => exact ⟨_, rfl, noError_finish rfl s.issuer _⟩
  | crcCheck m => exact ⟨_, rfl, noError_checkBuf s.issuer m s⟩
  | stRawRead addr len =>
    unfold exec execStRawRead
    exact ⟨_, rfl, noError_transfer s.issuer len _ _ s⟩
  | stRawWrite addr len =>
    unfold exec execStRawWrite
    exact ⟨_, rfl, noError_transfer s.issuer len _ _ s⟩
  | stWriteStatus | stReadStatus | logWrite | logRead | logDelete =>
    exact ⟨_, rfl, noError_startSequencer s.issuer _ _ s⟩
  | qSend q | qSendc q => exact isChecked_sendChecked fun x => noError_awaitHold s.issuer _ _ s
  | qTryrecv q =>
    refine isChecked_receiveChecked fun x => ?_
    split
    · exact noError_finish rfl s.issuer s
    · rename_i hne
      exact noError_receive (fun hnil => hne (List.isEmpty_iff.2 hnil)) s.issuer
  | qRecv q => exact isChecked_receiveChecked fun x => noError_awaitHold s.issuer _ _ s
  | flagSet mask => exact isChecked_postOps rfl (allowed_namedOps_set s.issuer mask)
  | flagClear mask => exact isChecked_postOps rfl (allowed_namedOps_clr s.issuer mask)
  | flagGet => exact ⟨_, checked_run.symm, noError_awaitHold s.issuer _ _ s⟩

/-- Settles O43: each check that fails raises its code, and what follows both completes with no error code. -/
theorem checksRunInOrder : Obligations.ChecksRunInOrder := by
  unfold Obligations.ChecksRunInOrder
  intro i s
  obtain ⟨run, he, hrun⟩ := isChecked_exec i s
  rw [he]
  refine ⟨fun hargs => ?_, fun hargs hmay => ?_, fun hargs hmay => ?_⟩
  · rw [hargs]
    exact rejected_raise s.issuer .errArg s
  · rw [hargs, hmay]
    exact rejected_raise s.issuer .errPerm s
  · rw [hargs, hmay]
    exact ⟨run s, checked_run, hrun⟩

/-- Settles O44: an error code is raised by a check, which changes STATUS alone. -/
theorem errorsHaveNoEffect : Obligations.ErrorsHaveNoEffect := by
  unfold Obligations.ErrorsHaveNoEffect
  intro i s t he hidle herr
  obtain ⟨run, hchecked, hrun⟩ := isChecked_exec i s
  obtain ⟨-, rfl⟩ | ⟨-, -, rfl⟩ | ⟨-, -, rfl⟩ := checked_cases (hchecked.symm.trans he)
  · exact ⟨onlyStatus_finish _ _ s, onlyBank_finish _ _ s⟩
  · exact ⟨onlyStatus_finish _ _ s, onlyBank_finish _ _ s⟩
  · rw [hrun hidle] at herr
    cases herr

/-! ### Every step answers a next state (60_exceptions.md R228) -/

theorem exists_exec (i : Instr) (s : State) : ∃ t, exec i s = .next t :=
  have ⟨_, he, _⟩ := isChecked_exec i s
  ⟨_, he⟩

theorem exists_issue (p : PortId) (w : Word) (s : State) : ∃ t, issue p w s = .next t := by
  unfold issue
  split
  · exact exists_exec _ _
  · exact ⟨_, rfl⟩

theorem exists_bankWrite (p : PortId) (off : Nat) (width : Width) (v : Word) (s : State) :
    ∃ t, bankWrite p off width v s = .next t := by
  unfold bankWrite
  split
  · split
    · exact exists_issue p v s
    · exact ⟨s, rfl⟩
  · repeat' split
    all_goals exact ⟨_, rfl⟩

theorem exists_bankAccess (p : PortId) (off : Nat) (a : Access) (s : State) :
    ∃ t, bankAccess p off a s = .next t := by
  unfold bankAccess
  split
  · exact ⟨_, rfl⟩
  · split
    · exact ⟨_, rfl⟩
    · exact exists_bankWrite _ _ _ _ _

/-- Whatever a host accesses, its step answers: a fault of the bus is the host's (assumption 14). -/
theorem exists_hostStep (p : PortId) (s : State) : ∃ t, hostStep p s = .next t := by
  unfold hostStep
  split
  · exact ⟨s, rfl⟩
  · split
    · exact ⟨_, rfl⟩
    · split
      · exact ⟨s, rfl⟩
      · exact exists_bankAccess p _ _ s

theorem exists_runEvent {s : State} (h : s.Inv) (e : Event) : ∃ t, runEvent e s = .next t := by
  cases e with
  | host p => exact exists_hostStep p s
  | port p => exact ⟨_, rfl⟩
  | sequencer ok took => exact exists_seqStep h ok took
  | land p r => exact ⟨_, rfl⟩
  | powerLoss took boot => exact ⟨_, rfl⟩

/-- Settles O55: the configuration is legal, and only a sequencer step could fault, whose transaction lies inside
the device. -/
theorem stepAlwaysAnswers : Obligations.StepAlwaysAnswers := by
  unfold Obligations.StepAlwaysAnswers
  intro s h
  rw [step, if_pos h.legal]
  exact exists_runEvent h.advance (nextEvent s)

end Sys2Proof.Machine
end

section
/-! SUPPORT. What a power loss leaves (70_reset_and_hazards.md R250 to R252): the volatile parts at their reset
values (O51), and a device in which only a write before the end of its settle is torn (O52). -/

namespace Sys2Proof.Machine

/-! ### The volatile parts (R250, R252(a), (b)) -/

theorem registers_freshBank (tick : Nat) (host : List Access) (p : PortId) :
    (freshBank tick host p).rc = .ok ∧ (freshBank tick host p).res0 = 0x0000
      ∧ (freshBank tick host p).crc = 0xFFFF := by cases p <;> exact ⟨rfl, rfl, rfl⟩

/-- A bank that a power-up has just made is not BUSY. -/
theorem busy_powerCycle (took : BitVec 256) (boot : PerPort (List Access)) (s : State) (p : PortId) :
    (powerCycle took boot s).busy p = false := by
  rw [State.busy, bank_powerCycle, current_freshBank]
  rfl

/-- Settles O51: the banks are fresh ones, and the dispatcher and SEQ are those of the first power-up (O50). -/
theorem powerLossResetsVolatileState : Obligations.PowerLossResetsVolatileState := by
  unfold Obligations.PowerLossResetsVolatileState
  intro s took boot
  refine ⟨_, runEvent_powerLoss took boot s, fun p => ?_, rfl, queue_launch s.cfg, rfl, rfl⟩
  rw [busy_powerCycle, bank_powerCycle]
  obtain ⟨hrc, hres0, hcrc⟩ := registers_freshBank s.tick (boot.get p) p
  exact ⟨hrc, rfl, hres0, hcrc, length_buf_freshBank _ _ _, length_msg_freshBank _ _ _,
    pendFlags_launch s.cfg p, pendQueue_launch s.cfg p⟩

/-! ### The device (R252(c) to (e)) -/

theorem tornDevice_settle {s : State} {cmd : Instr} {w : Outstanding} {k : AfterWrite} (took : BitVec 256)
    (hs : s.seq = .active cmd (.settle w k)) :
    tornDevice took s = s.dev.writeBytes w.addr (mix took w.old w.new) := by
  simp only [tornDevice, hs]

/-- Outside a settle there is no write to tear. -/
theorem tornDevice_of_not_settle {s : State} (took : BitVec 256)
    (hs : ∀ cmd w k, s.seq ≠ .active cmd (.settle w k)) : tornDevice took s = s.dev := by
  unfold tornDevice
  split
  · next h => exact absurd h (hs _ _ _)
  · rfl

/-- A second write to the same range leaves nothing of the first. -/
theorem Memory.writeBytes_writeBytes {m : Memory} (hm : Memory.wf m) (a : Nat) {xs ys : List Byte}
    (h : xs.length = ys.length) : (m.writeBytes a xs).writeBytes a ys = m.writeBytes a ys := by
  have hxs := Memory.wf_writeBytes hm a xs
  refine Memory.eq_of_read (Memory.wf_writeBytes hxs a ys) (Memory.wf_writeBytes hm a ys) fun x => ?_
  by_cases hx : x < a ∨ a + ys.length ≤ x
  · rw [Memory.read_writeBytes_outside hx, Memory.read_writeBytes_outside (by rwa [h]),
      Memory.read_writeBytes_outside hx]
  · obtain ⟨i, rfl⟩ := Nat.exists_eq_add_of_le (show a ≤ x by omega)
    have hi : i < ys.length := by omega
    rw [Memory.read_writeBytes_inside hxs a ys hi, Memory.read_writeBytes_inside hm a ys hi]

/-- Power lost after a MemWrite, successful or failed: the device is as if the tear alone had been written, since
the settle keeps the bytes from before the write. -/
theorem tornDevice_after_memWrite {s : State} (hwf : Memory.wf s.dev) (ok : Bool) (took took' : BitVec 256)
    (cmd : Instr) (addr : Nat) (data : List Byte) (k : AfterWrite) :
    tornDevice took' (seqGo cmd (settleOf ok addr data s.dev k) (memWrite ok took addr data s))
      = s.dev.writeBytes addr (mix took' (s.dev.readBytes addr data.length) data) := by
  have hlen := length_landedBytes ok took (Memory.length_readBytes s.dev addr data.length)
  exact (tornDevice_settle took' (seqGo_seq cmd _ _)).trans
    (Memory.writeBytes_writeBytes hwf addr (by simpa using hlen))

/-- Settles O52: the tear mixes the bytes from before the write with its data; no other step of the sequencer has
a write to tear. -/
theorem powerLossTearsOnlyUnsettledWrite : Obligations.PowerLossTearsOnlyUnsettledWrite := by
  unfold Obligations.PowerLossTearsOnlyUnsettledWrite
  intro s t u took took' boot hwf
  refine ⟨fun cmd addr data k ok hs he hloss => ?_, fun hs hloss a => ?_⟩
  · cases hloss
    have hdev : (powerCycle took' boot t).dev
        = s.dev.writeBytes addr (mix took' (s.dev.readBytes addr data.length) data) := by
      rw [eq_of_seqStep_memWrite hs he]
      exact tornDevice_after_memWrite hwf ok took took' cmd addr data k
    rw [hdev]
    exact ⟨fun i hi => read_writeBytes_mix hwf took' addr data hi,
      fun a ha => read_writeBytes_mix_outside s.dev took' ha⟩
  · cases hloss
    exact congrArg (·.read a) (tornDevice_of_not_settle took' hs)

end Sys2Proof.Machine
end
